-- ==== Sys2Proof/Word.lean ====
section
/-! DEFINITION. The words of BITFORK-CORE: bytes, 32-bit limbs and bus words, the 64-bit registers, and the N-bit
value as its limbs (00_scope.md R7, R8, R9). -/

namespace Sys2Proof

/-- A byte of BUF (10_state.md R27). -/
abbrev Byte := BitVec 8

/-- A limb: "one fixed-size (32-bit) word of the multi-word magnitude" (00_scope.md R13). -/
abbrev Limb := BitVec 32

/-- A bus word, a command word, a window register (10_state.md R31). -/
abbrev Word := BitVec 32

/-- ARG and RES are 64 bits each (00_scope.md R7). -/
abbrev DWord := BitVec 64

/-- An N-bit value as its limbs, limb 0 (the least significant) first (00_scope.md R9, 10_state.md R20).
A value register holds exactly W of them (10_state.md R21): State's invariant says so. -/
abbrev Value := List Limb

/-- The number a value stands for: "value represented = Σ limbs[i] × 2^(32·i)" (00_scope.md R9). -/
def valueNat : Value → Nat
  | [] => 0
  | l :: rest => l.toNat + 2 ^ 32 * valueNat rest

/-- `limb(x, i)` of 00_scope.md R9; a limb past the last one reads as 0. -/
def limb (x : Value) (i : Nat) : Limb := x.getD i 0

end Sys2Proof
end

