-- ==== Sys2Proof/Config.lean ====
section
/-! DEFINITION. What an instance of the block fixes (the parameters the spec leaves OPEN, 00_scope.md R7, 20_memory.md R57)
and the free values the spec leaves open (opaque constants: no proof can see what they are). -/

namespace Sys2Proof

/-- The three parts: W = 5, 8 or 16 limbs (00_scope.md R2). One instance implements exactly one width. -/
inductive Width where
  | w5
  | w8
  | w16
  deriving DecidableEq, Repr

/-- W, the limb count (00_scope.md R7). -/
def Width.limbs : Width → Nat
  | .w5 => 5
  | .w8 => 8
  | .w16 => 16

/-- N = 32·W, the value width in bits (00_scope.md R7). -/
def Width.bits (w : Width) : Nat := 32 * w.limbs

/-- B = 4·W, the length of the binary form in bytes (00_scope.md R7). -/
def Width.bytes (w : Width) : Nat := 4 * w.limbs

/-- H = 8·W, the length of the hex form in characters (00_scope.md R7). -/
def Width.chars (w : Width) : Nat := 8 * w.limbs

/-- HEX_UNRECOGNIZED: what FROMHEX does at a byte that is not a hex digit (46_serdes.md R187, R188). -/
inductive HexMode where
  | stop
  | zero
  deriving DecidableEq, Repr

/-- What an instance fixes. A step never changes it.
`windowPage` is WINDOW_BASE / 512: the base is 512-byte aligned (20_memory.md R57). -/
structure Params where
  width : Width
  hexMode : HexMode
  windowPage : Nat
  deriving DecidableEq, Repr

/-- WINDOW_BASE (20_memory.md R57). -/
def Params.windowBase (p : Params) : Nat := 512 * p.windowPage

/-- The parameters of `State.reset`: W = 16 (DESIGN CHOICE, log 1: the part on which every row of the opcode table is
legal), HEX_UNRECOGNIZED = STOP (the spec's default, 00_scope.md R7, log 2), page 0 (DESIGN CHOICE, log 3). -/
def Params.standard : Params := { width := .w16, hexMode := .stop, windowPage := 0 }

/-- FREE VALUE: the bus byte on lane `lane` of the narrow host write that made draw number `draw`
(20_memory.md R51: "whatever the platform's bus carries there. A model treats those bytes as any value"; log 7). -/
opaque Config.freeByte : Nat → Nat → Byte

/-- FREE VALUE: the 32 bits that element number `element` of the state holds after the loss of power that made draw
number `draw` (60_exceptions.md R225: "an unknown state until reset"; 93_implementation_defined.md U9; log 9). -/
opaque Config.freeWord : Nat → Nat → Word

end Sys2Proof
end

