-- ==== Sys2Proof/Syntax.lean ====
section
/-! DEFINITION. The commands of BFC1 revision 1: one constructor per row of spec/opcode_table.json (30_encoding.md R75). -/

namespace Sys2Proof

/-- The value registers V0 to V7 (10_state.md R20). -/
inductive Reg where
  | v0
  | v1
  | v2
  | v3
  | v4
  | v5
  | v6
  | v7
  deriving DecidableEq, Repr

/-- All eight, in order. -/
def Reg.all : List Reg := [.v0, .v1, .v2, .v3, .v4, .v5, .v6, .v7]

/-- A command. `rd`, `ra` and `rb` are the registers the RD, RA and RB fields name (30_encoding.md R71, R73);
`imm` is the 16-bit IMM field (30_encoding.md R74). Operands a format does not have are not written. -/
inductive Instr where
  | nop
  | clr (rd : Reg)
  | mov (rd ra : Reg)
  | ldi64 (rd : Reg)
  | not (rd ra : Reg)
  | neg (rd ra : Reg)
  | add (rd ra rb : Reg)
  | sub (rd ra rb : Reg)
  | add64 (rd ra : Reg)
  | sub64 (rd ra : Reg)
  | inc (rd ra : Reg)
  | dec (rd ra : Reg)
  | pinc (rd ra : Reg)
  | pdec (rd ra : Reg)
  | shl (rd ra : Reg)
  | shr (rd ra : Reg)
  | shli (rd ra : Reg) (imm : BitVec 16)
  | shri (rd ra : Reg) (imm : BitVec 16)
  | cmp (ra rb : Reg)
  | cmpeq64 (ra : Reg)
  | and (rd ra rb : Reg)
  | or (rd ra rb : Reg)
  | xor (rd ra rb : Reg)
  | tobytes (ra : Reg)
  | frombytes (rd : Reg)
  | tohex (ra : Reg)
  | fromhex (rd : Reg)
  | get64 (ra : Reg) (imm : BitVec 16)
  | trim (rd ra : Reg)
  deriving DecidableEq, Repr

end Sys2Proof
end

