-- ==== Sys2Proof/WellFormed.lean ====
section
/-! DEFINITION. Which commands a part accepts. The operand types already keep every register number in 0 to 7 and every
immediate in 0 to 65535 (30_encoding.md R73, R74), so the one check left is TRIM's width (30_encoding.md R78). -/

namespace Sys2Proof

/-- `WellFormed w i`: command `i` is legal on a part of width `w`. "TRIM (OP 0x28) is assigned in every instance but
legal only when W = 16" (30_encoding.md R78); every other command is legal on every part. -/
def WellFormed (w : Width) (i : Instr) : Bool :=
  match i with
  | .trim _ _ => w == .w16
  | .nop => true
  | .clr _ => true
  | .mov _ _ => true
  | .ldi64 _ => true
  | .not _ _ => true
  | .neg _ _ => true
  | .add _ _ _ => true
  | .sub _ _ _ => true
  | .add64 _ _ => true
  | .sub64 _ _ => true
  | .inc _ _ => true
  | .dec _ _ => true
  | .pinc _ _ => true
  | .pdec _ _ => true
  | .shl _ _ => true
  | .shr _ _ => true
  | .shli _ _ _ => true
  | .shri _ _ _ => true
  | .cmp _ _ => true
  | .cmpeq64 _ => true
  | .and _ _ _ => true
  | .or _ _ _ => true
  | .xor _ _ _ => true
  | .tobytes _ => true
  | .frombytes _ => true
  | .tohex _ => true
  | .fromhex _ => true
  | .get64 _ _ => true

end Sys2Proof
end

