-- ==== Sys2Proof/Decode.lean ====
section
/-! DEFINITION. The command decoder, total on every 32-bit word, with the checks in the order of 30_encoding.md R80, and the
encoder, both from the field layout (R71), the formats (R72) and the opcode map (R75). -/

namespace Sys2Proof

/-- The 29 assigned opcodes (30_encoding.md R75). -/
inductive Op where
  | nop | clr | mov | ldi64 | not | neg
  | add | sub | add64 | sub64 | inc | dec | pinc | pdec
  | shl | shr | shli | shri | cmp | cmpeq64
  | and | or | xor
  | tobytes | frombytes | tohex | fromhex | get64
  | trim
  deriving DecidableEq, Repr

/-- The eight formats (30_encoding.md R72). -/
inductive Format where
  | F0 | FD | FDA | FDAB | FDAI | FAB | FA | FAI
  deriving DecidableEq, Repr

/-- The operand fields of a command word (30_encoding.md R71). -/
structure Fields where
  rd : Reg
  ra : Reg
  rb : Reg
  imm : BitVec 16
  deriving DecidableEq, Repr

/-- Why a command word is illegal (60_exceptions.md R211). -/
inductive Cause where
  | reservedOpcode
  | unsupportedWidth
  | reservedField
  deriving DecidableEq, Repr

/-- What a command word decodes to: a command, or the cause it is rejected for. -/
inductive Decoded where
  | legal (i : Instr)
  | illegal (cause : Cause)
  deriving DecidableEq, Repr

/-- The OP value of each opcode (30_encoding.md R75). -/
def Op.code : Op → BitVec 6
  | .nop => 0x00#6
  | .clr => 0x01#6
  | .mov => 0x02#6
  | .ldi64 => 0x03#6
  | .not => 0x04#6
  | .neg => 0x05#6
  | .add => 0x08#6
  | .sub => 0x09#6
  | .add64 => 0x0A#6
  | .sub64 => 0x0B#6
  | .inc => 0x0C#6
  | .dec => 0x0D#6
  | .pinc => 0x0E#6
  | .pdec => 0x0F#6
  | .shl => 0x10#6
  | .shr => 0x11#6
  | .shli => 0x12#6
  | .shri => 0x13#6
  | .cmp => 0x14#6
  | .cmpeq64 => 0x15#6
  | .and => 0x18#6
  | .or => 0x19#6
  | .xor => 0x1A#6
  | .tobytes => 0x20#6
  | .frombytes => 0x21#6
  | .tohex => 0x22#6
  | .fromhex => 0x23#6
  | .get64 => 0x24#6
  | .trim => 0x28#6

/-- The format of each opcode (30_encoding.md R75). -/
def Op.format : Op → Format
  | .nop => .F0
  | .clr | .ldi64 | .frombytes | .fromhex => .FD
  | .mov | .not | .neg | .add64 | .sub64 | .inc | .dec | .pinc | .pdec | .shl | .shr | .trim => .FDA
  | .add | .sub | .and | .or | .xor => .FDAB
  | .shli | .shri => .FDAI
  | .cmp => .FAB
  | .cmpeq64 | .tobytes | .tohex => .FA
  | .get64 => .FAI

/-- The must-be-zero mask of each format (30_encoding.md R72, column "must-be-zero mask"). -/
def Format.zeroMask : Format → Word
  | .F0 => 0x03FFFFFF#32
  | .FD => 0x007FFFFF#32
  | .FDA => 0x000FFFFF#32
  | .FDAB => 0x0001FFFF#32
  | .FDAI => 0x000F0000#32
  | .FAB => 0x0381FFFF#32
  | .FA => 0x038FFFFF#32
  | .FAI => 0x038F0000#32

/-- Every assigned opcode, in the order of 30_encoding.md R75. -/
def Op.all : List Op :=
  [Op.nop, Op.clr, Op.mov, Op.ldi64, Op.not, Op.neg, Op.add, Op.sub, Op.add64, Op.sub64] ++
  [Op.inc, Op.dec, Op.pinc, Op.pdec, Op.shl, Op.shr, Op.shli, Op.shri, Op.cmp, Op.cmpeq64] ++
  [Op.and, Op.or, Op.xor, Op.tobytes, Op.frombytes, Op.tohex, Op.fromhex, Op.get64, Op.trim]

/-- The opcode with this OP value, none if the value is reserved (30_encoding.md R76). -/
def Op.ofCode (c : BitVec 6) : Option Op := Op.all.find? (fun o => o.code == c)

/-- The number a register field holds (30_encoding.md R73). -/
def Reg.num : Reg → BitVec 3
  | .v0 => 0#3
  | .v1 => 1#3
  | .v2 => 2#3
  | .v3 => 3#3
  | .v4 => 4#3
  | .v5 => 5#3
  | .v6 => 6#3
  | .v7 => 7#3

/-- The register a field names: "every number names a real register" (30_encoding.md R73). -/
def Reg.ofNum (n : BitVec 3) : Reg :=
  match n.toNat with
  | 0 => .v0
  | 1 => .v1
  | 2 => .v2
  | 3 => .v3
  | 4 => .v4
  | 5 => .v5
  | 6 => .v6
  | _ => .v7

/-- OP = c[31:26] (30_encoding.md R71). -/
def opField (c : Word) : BitVec 6 := c.extractLsb' 26 6

/-- RD = c[25:23], RA = c[22:20], RB = c[19:17], IMM = c[15:0] (30_encoding.md R71, R80). -/
def fieldsOf (c : Word) : Fields :=
  { rd := Reg.ofNum (c.extractLsb' 23 3)
    ra := Reg.ofNum (c.extractLsb' 20 3)
    rb := Reg.ofNum (c.extractLsb' 17 3)
    imm := c.extractLsb' 0 16 }

/-- The command an opcode makes of the operand fields of its format (30_encoding.md R72, R75). -/
def Op.build (o : Op) (f : Fields) : Instr :=
  match o with
  | .nop => .nop
  | .clr => .clr f.rd
  | .mov => .mov f.rd f.ra
  | .ldi64 => .ldi64 f.rd
  | .not => .not f.rd f.ra
  | .neg => .neg f.rd f.ra
  | .add => .add f.rd f.ra f.rb
  | .sub => .sub f.rd f.ra f.rb
  | .add64 => .add64 f.rd f.ra
  | .sub64 => .sub64 f.rd f.ra
  | .inc => .inc f.rd f.ra
  | .dec => .dec f.rd f.ra
  | .pinc => .pinc f.rd f.ra
  | .pdec => .pdec f.rd f.ra
  | .shl => .shl f.rd f.ra
  | .shr => .shr f.rd f.ra
  | .shli => .shli f.rd f.ra f.imm
  | .shri => .shri f.rd f.ra f.imm
  | .cmp => .cmp f.ra f.rb
  | .cmpeq64 => .cmpeq64 f.ra
  | .and => .and f.rd f.ra f.rb
  | .or => .or f.rd f.ra f.rb
  | .xor => .xor f.rd f.ra f.rb
  | .tobytes => .tobytes f.ra
  | .frombytes => .frombytes f.rd
  | .tohex => .tohex f.ra
  | .fromhex => .fromhex f.rd
  | .get64 => .get64 f.ra f.imm
  | .trim => .trim f.rd f.ra

/-- `execute(c)`'s decode checks, in their order (30_encoding.md R80): the first that applies gives the cause. -/
def decode (w : Width) (c : Word) : Decoded :=
  match Op.ofCode (opField c) with
  | none => .illegal .reservedOpcode
  | some o =>
    if o = .trim ∧ w ≠ .w16 then .illegal .unsupportedWidth
    else if c &&& o.format.zeroMask ≠ 0#32 then .illegal .reservedField
    else .legal (o.build (fieldsOf c))

/-- The opcode of a command (30_encoding.md R75). -/
def Instr.op : Instr → Op
  | .nop => .nop
  | .clr _ => .clr
  | .mov _ _ => .mov
  | .ldi64 _ => .ldi64
  | .not _ _ => .not
  | .neg _ _ => .neg
  | .add _ _ _ => .add
  | .sub _ _ _ => .sub
  | .add64 _ _ => .add64
  | .sub64 _ _ => .sub64
  | .inc _ _ => .inc
  | .dec _ _ => .dec
  | .pinc _ _ => .pinc
  | .pdec _ _ => .pdec
  | .shl _ _ => .shl
  | .shr _ _ => .shr
  | .shli _ _ _ => .shli
  | .shri _ _ _ => .shri
  | .cmp _ _ => .cmp
  | .cmpeq64 _ => .cmpeq64
  | .and _ _ _ => .and
  | .or _ _ _ => .or
  | .xor _ _ _ => .xor
  | .tobytes _ => .tobytes
  | .frombytes _ => .frombytes
  | .tohex _ => .tohex
  | .fromhex _ => .fromhex
  | .get64 _ _ => .get64
  | .trim _ _ => .trim

/-- The operand fields of a command, "with unused fields 0" (30_encoding.md R75): field value 0 is V0. -/
def Instr.fields : Instr → Fields
  | .nop => ⟨.v0, .v0, .v0, 0#16⟩
  | .clr rd | .ldi64 rd | .frombytes rd | .fromhex rd => ⟨rd, .v0, .v0, 0#16⟩
  | .mov rd ra | .not rd ra | .neg rd ra | .add64 rd ra | .sub64 rd ra => ⟨rd, ra, .v0, 0#16⟩
  | .inc rd ra | .dec rd ra | .pinc rd ra | .pdec rd ra => ⟨rd, ra, .v0, 0#16⟩
  | .shl rd ra | .shr rd ra | .trim rd ra => ⟨rd, ra, .v0, 0#16⟩
  | .add rd ra rb | .sub rd ra rb | .and rd ra rb | .or rd ra rb | .xor rd ra rb => ⟨rd, ra, rb, 0#16⟩
  | .shli rd ra imm | .shri rd ra imm => ⟨rd, ra, .v0, imm⟩
  | .cmp ra rb => ⟨.v0, ra, rb, 0#16⟩
  | .cmpeq64 ra | .tobytes ra | .tohex ra => ⟨.v0, ra, .v0, 0#16⟩
  | .get64 ra imm => ⟨.v0, ra, .v0, imm⟩

/-- `(OP << 26) | (RD << 23) | (RA << 20) | (RB << 17) | IMM` (30_encoding.md R75). -/
def packWord (o : Op) (f : Fields) : Word :=
  (o.code.setWidth 32 <<< 26) ||| (f.rd.num.setWidth 32 <<< 23) ||| (f.ra.num.setWidth 32 <<< 20) |||
    (f.rb.num.setWidth 32 <<< 17) ||| f.imm.setWidth 32

/-- The command word of a command (30_encoding.md R75). -/
def encode (i : Instr) : Word := packWord i.op i.fields

/-- The command the decoder reads from an opcode-table word, on the part of `State.reset` (log 1). A word of more than
32 bits is no command (30_encoding.md R70). -/
def decodeTableWord (nbits w : Nat) : Option Instr :=
  if nbits ≤ 32 ∧ w < 2 ^ 32 then
    match decode Params.standard.width (BitVec.ofNat 32 w) with
    | .legal i => some i
    | .illegal _ => none
  else none

end Sys2Proof
end

