-- ==== Sys2Proof/Machine/State.lean ====
section
/-! DEFINITION. The state of the block (10_state.md section 1), the host's side of it (20_memory.md R64), the reasons a
step can stop, and the state after reset (70_reset_and_hazards.md R240). -/

namespace Sys2Proof.Machine

/-- The eight value registers (10_state.md R20). -/
structure RegFile where
  v0 : Value
  v1 : Value
  v2 : Value
  v3 : Value
  v4 : Value
  v5 : Value
  v6 : Value
  v7 : Value
  deriving DecidableEq, Repr

/-- BUF as (offset, byte) pairs in one canonical form (`Memory.wf`); an offset that is not listed reads 0x00, the reset
contents of every BUF byte (10_state.md R38). -/
abbrev Memory := List Host.Cell

/-- Offsets strictly rising. -/
def Memory.rising : Memory → Bool
  | [] => true
  | [_] => true
  | a :: b :: rest => a.1 < b.1 && Memory.rising (b :: rest)

/-- The canonical form: offsets strictly rising and below 256 (20_memory.md R50), no listed byte 0x00. -/
def Memory.wf (m : Memory) : Bool := Memory.rising m && m.all (fun c => c.1 < 256 && c.2 != 0#8)

/-- One thing that happens to the block from outside (20_memory.md R64, 60_exceptions.md R225).
A write carries the byte lanes the host itself drives, lane k being bits 8k+7 to 8k of the bus word; a 32-bit write drives
all four (20_memory.md R51). -/
inductive Access where
  /-- a host write at a window offset -/
  | write (off : BitVec 9) (lanes : BitVec 4) (data : Word)
  /-- a host read at a window offset -/
  | read (off : BitVec 9)
  /-- the reset input, asserted and released between two accesses (70_reset_and_hazards.md R240, R241) -/
  | reset
  /-- power is lost and comes back, with no reset yet (60_exceptions.md R225) -/
  | powerLoss
  deriving DecidableEq, Repr

/-- What the host gets back (20_memory.md R64, last column). -/
inductive Response where
  /-- nothing -/
  | none
  /-- the write response to a CMD write, after the command's completion -/
  | written
  /-- the word read -/
  | data (w : Word)
  deriving DecidableEq, Repr

/-- One entry of the model's record of illegal commands (92_eei_decisions.md D24). -/
structure IllegalRecord where
  cause : Cause
  command : Word
  deriving DecidableEq, Repr

/-- No fault exists: "No command that passes the decode checks … raises any exception" (60_exceptions.md R210), an illegal
command goes on (R213), and no host access fails (20_memory.md R55). Nothing raises a value of this type: safe. -/
inductive Fault where
  deriving DecidableEq, Repr

/-- Why a step refuses. -/
inductive Refusal where
  /-- raised by an arm of `exec` whose instruction has no meaning yet; safe (the model stops). No arm raises it. -/
  | notModelled (mnemonic : String)
  deriving DecidableEq, Repr

/-- The block's state. `params` is what the instance fixes; `regs` to `errcmd` are the spec's state, the parts of
10_state.md section 1; `pending` to `known` are the model's own (logs 4, 6, 7, 8, 9). -/
structure State where
  /-- W, HEX_UNRECOGNIZED and WINDOW_BASE; no step changes it -/
  params : Params
  /-- V0 to V7 (R20) -/
  regs : RegFile
  /-- ARG (R24) -/
  arg : DWord
  /-- RES (R25) -/
  res : DWord
  /-- BLEN (R26) -/
  blen : Word
  /-- BUF (R27) -/
  buf : Memory
  /-- STATUS.LT (R28) -/
  lt : Bool
  /-- STATUS.EQ (R28) -/
  eq : Bool
  /-- STATUS.GT (R28) -/
  gt : Bool
  /-- STATUS.ILL (R33) -/
  ill : Bool
  /-- STATUS.CAUSE (R33) -/
  cause : BitVec 4
  /-- ERRCMD (R35) -/
  errcmd : Word
  /-- the accesses still to come, oldest first: the block's input -/
  pending : List Access
  /-- what the host got back from the last access -/
  response : Response
  /-- how many events have drawn free values -/
  draws : Nat
  /-- every illegal command so far, newest first; nothing clears it -/
  illegalLog : List IllegalRecord
  /-- false from a loss of power to the next reset -/
  known : Bool
  deriving DecidableEq, Repr

/-- The value whose W limbs are all 0. -/
def zeroValue (w : Width) : Value := List.replicate w.limbs 0#32

/-- Every value register zero: "default construction yields zero" (10_state.md R38). -/
def RegFile.zero (w : Width) : RegFile :=
  { v0 := zeroValue w, v1 := zeroValue w, v2 := zeroValue w, v3 := zeroValue w
    v4 := zeroValue w, v5 := zeroValue w, v6 := zeroValue w, v7 := zeroValue w }

/-- The state after reset of an instance with these parameters (10_state.md R38, 70_reset_and_hazards.md R240).
The model's own fields: no access pending, no response, no draw made, nothing recorded, the state known
(DESIGN CHOICE, logs 4, 6, 7, 8, 9). -/
def State.resetOf (p : Params) : State :=
  { params := p
    regs := RegFile.zero p.width
    arg := 0#64
    res := 0#64
    blen := 0#32
    buf := []
    lt := false
    eq := false
    gt := false
    ill := false
    cause := 0#4
    errcmd := 0#32
    pending := []
    response := .none
    draws := 0
    illegalLog := []
    known := true }

/-- The state after reset, of the instance `Params.standard` (logs 1, 2, 3). -/
def State.reset : State := State.resetOf Params.standard

end Sys2Proof.Machine
end

