-- ==== Sys2Proof/Machine/Ops.lean ====
section
/-! DEFINITION. The shared operations: value registers, the scalar registers, BUF, limb construction, the record of an
illegal command (60_exceptions.md R213) and its clearing (10_state.md R34). Every meaning reads and writes State through
these. -/

namespace Sys2Proof.Machine

/-- What every meaning answers. -/
abbrev Result := Host.Outcome State Fault Refusal

/-! ## Values -/

/-- `fromLimbs(l_0, ..., l_(W-1))` (00_scope.md R9): exactly `n` limbs, limb i being `f i`. -/
def fromLimbs (n : Nat) (f : Nat → Limb) : Value := (List.range n).map f

/-- `limb(x, i) <- v`. A limb index past the value's limbs writes nothing. -/
def setLimb (x : Value) (i : Nat) (v : Limb) : Value := x.set i v

/-- `zext_N` of a 64-bit integer: limb 0 the low half, limb 1 the high half, "remaining limbs zeroed"
(40_construction.md R103). -/
def zext64 (n : Nat) (a : DWord) : Value :=
  fromLimbs n fun i =>
    if i = 0 then a.extractLsb' 0 32 else if i = 1 then a.extractLsb' 32 32 else 0#32

/-- `byte(x, k) = x[8k+7:8k]` (00_scope.md R9): byte k mod 4 of limb k / 4. -/
def byteOf (x : Value) (k : Nat) : Byte := (limb x (k / 4)).extractLsb' (8 * (k % 4)) 8

/-- Four bytes as one word, byte 0 in bits 7:0 (20_memory.md R52, R53). -/
def packWordLE (b0 b1 b2 b3 : Byte) : Word := b3 ++ b2 ++ b1 ++ b0

/-- The value whose byte k is `f k` (20_memory.md R53: limb i is bytes 4i to 4i+3, least significant first). -/
def fromBytes (n : Nat) (f : Nat → Byte) : Value :=
  fromLimbs n fun i => packWordLE (f (4 * i)) (f (4 * i + 1)) (f (4 * i + 2)) (f (4 * i + 3))

/-! ## Value registers -/

/-- `V[r]` (00_scope.md R10). -/
def RegFile.get (rf : RegFile) (r : Reg) : Value :=
  match r with
  | .v0 => rf.v0
  | .v1 => rf.v1
  | .v2 => rf.v2
  | .v3 => rf.v3
  | .v4 => rf.v4
  | .v5 => rf.v5
  | .v6 => rf.v6
  | .v7 => rf.v7

/-- `V[r] <- v` (00_scope.md R10). -/
def RegFile.set (rf : RegFile) (r : Reg) (v : Value) : RegFile :=
  match r with
  | .v0 => { rf with v0 := v }
  | .v1 => { rf with v1 := v }
  | .v2 => { rf with v2 := v }
  | .v3 => { rf with v3 := v }
  | .v4 => { rf with v4 := v }
  | .v5 => { rf with v5 := v }
  | .v6 => { rf with v6 := v }
  | .v7 => { rf with v7 := v }

/-- The register file with `f r` in each register. -/
def RegFile.ofFn (f : Reg → Value) : RegFile :=
  { v0 := f .v0, v1 := f .v1, v2 := f .v2, v3 := f .v3
    v4 := f .v4, v5 := f .v5, v6 := f .v6, v7 := f .v7 }

/-! ## BUF -/

/-- `BUF[a]`: the byte listed at `a`, or 0x00. -/
def Memory.read (m : Memory) (a : Nat) : Byte :=
  match m with
  | [] => 0#8
  | c :: rest => if c.1 = a then c.2 else Memory.read rest a

/-- `m` without any entry at `a`. -/
def Memory.erase (m : Memory) (a : Nat) : Memory := m.filter (fun c => c.1 != a)

/-- A cell put before the first cell of a higher offset. -/
def Memory.insert (m : Memory) (c : Host.Cell) : Memory :=
  match m with
  | [] => [c]
  | d :: rest => if c.1 < d.1 then c :: d :: rest else d :: Memory.insert rest c

/-- `BUF[a] <- b`, keeping the canonical form: writing 0x00 removes the entry. -/
def Memory.write (m : Memory) (a : Nat) (b : Byte) : Memory :=
  if b = 0#8 then m.erase a else (m.erase a).insert (a, b)

/-- `MemWrite`: the bytes of the list at `a`, `a + 1`, … (00_scope.md R10). -/
def Memory.writeBytes (m : Memory) (a : Nat) (bs : List Byte) : Memory :=
  match bs with
  | [] => m
  | b :: rest => Memory.writeBytes (m.write a b) (a + 1) rest

/-! ## Reads and updates of State -/

/-- W of this instance. -/
def State.limbs (s : State) : Nat := s.params.width.limbs

/-- V[r]. -/
def State.reg (s : State) (r : Reg) : Value := s.regs.get r

/-- BUF[k]. -/
def State.readByte (s : State) (k : Nat) : Byte := s.buf.read k

/-- V[r] <- v. -/
def State.setReg (s : State) (r : Reg) (v : Value) : State := { s with regs := s.regs.set r v }

/-- ARG <- v. -/
def State.setArg (s : State) (v : DWord) : State := { s with arg := v }

/-- RES <- v. -/
def State.setRes (s : State) (v : DWord) : State := { s with res := v }

/-- BLEN <- v. -/
def State.setBlen (s : State) (v : Word) : State := { s with blen := v }

/-- BUF replaced. -/
def State.setBuf (s : State) (m : Memory) : State := { s with buf := m }

/-- `(STATUS.LT, STATUS.EQ, STATUS.GT) <- (lt, eq, gt)`. -/
def State.setOrder (s : State) (lt eq gt : Bool) : State := { s with lt := lt, eq := eq, gt := gt }

/-- STATUS.ILL, STATUS.CAUSE and ERRCMD. -/
def State.setRecord (s : State) (ill : Bool) (cause : BitVec 4) (errcmd : Word) : State :=
  { s with ill := ill, cause := cause, errcmd := errcmd }

/-- One more entry of the model's record of illegal commands (log 8). -/
def State.addIllegal (s : State) (r : IllegalRecord) : State := { s with illegalLog := r :: s.illegalLog }

/-- The accesses still to come. -/
def State.setPending (s : State) (l : List Access) : State := { s with pending := l }

/-- What the host gets back. -/
def State.setResponse (s : State) (r : Response) : State := { s with response := r }

/-- The number of draws of free values. -/
def State.setDraws (s : State) (n : Nat) : State := { s with draws := n }

/-- `MemWrite(a, length, bytes)` (00_scope.md R10). -/
def State.writeBytes (s : State) (a : Nat) (bs : List Byte) : State := s.setBuf (s.buf.writeBytes a bs)

/-! ## Illegal commands: the block's one exception, and the return from it -/

/-- The code of a cause in STATUS.CAUSE (60_exceptions.md R211). -/
def causeCode (c : Cause) : BitVec 4 :=
  match c with
  | .reservedOpcode => 1#4
  | .unsupportedWidth => 2#4
  | .reservedField => 3#4

/-- `raise IllegalCommand(cause)` for the command word `c` (60_exceptions.md R213): ILL, CAUSE and ERRCMD are written if ILL
was 0, else the first record is kept. Every illegal command also goes into the model's never-cleared record
(92_eei_decisions.md D24, log 8). -/
def raiseIllegal (cause : Cause) (c : Word) (s : State) : State :=
  let s1 := s.addIllegal ⟨cause, c⟩
  if s.ill then s1 else s1.setRecord true (causeCode cause) c

/-- "A host write to STATUS with bit 3 set clears ILL and CAUSE … and that is the whole of 'return'" (60_exceptions.md R216).
ERRCMD is unchanged (10_state.md R34). -/
def clearIllegal (s : State) : State := s.setRecord false 0#4 s.errcmd

end Sys2Proof.Machine
end

