-- ==== Sys2Proof/Machine/Operands.lean ====
section
/-! DEFINITION. Every operand form of the commands (30_encoding.md R73, R74; 10_state.md R24, R26). Register operands are
`State.reg`. -/

namespace Sys2Proof.Machine

/-- The 64-bit integer operand: all of ARG, as an N-bit value (LDI64, ADD64, SUB64, CMPEQ64; 10_state.md R24). -/
def argValue (s : State) : Value := zext64 s.limbs s.arg

/-- The register-source shift amount: ARG[31:0], unsigned; ARG[63:32] is ignored (43_shift.md R143). -/
def argAmount (s : State) : Nat := (s.arg.extractLsb' 0 32).toNat

/-- IMM "is always read as an unsigned integer" (30_encoding.md R74): a shift amount or a word index. -/
def immValue (imm : BitVec 16) : Nat := imm.toNat

/-- FROMHEX's input length: min(BLEN, 256) (46_serdes.md R186). -/
def textLength (s : State) : Nat := min s.blen.toNat 256

/-- FROMHEX's input bytes: BUF[0..L-1] (46_serdes.md R186). -/
def textBytes (s : State) : List Byte := (List.range (textLength s)).map s.readByte

end Sys2Proof.Machine
end

