-- ==== Sys2Proof/Machine/AddSub.lean ====
section
/-! DEFINITION. The carry chain, and NOT, NEG, ADD, SUB, ADD64, SUB64 (41_negate_addsub.md). -/

namespace Sys2Proof.Machine

/-- Limbs `i`, `i + 1`, … (`n` of them) of `addChain`, with the 64-bit carry accumulator (41_negate_addsub.md R112). -/
def addFrom (a b : Value) (carry : BitVec 64) (i n : Nat) : Value :=
  match n with
  | 0 => []
  | m + 1 =>
    let acc := carry + (limb a i).setWidth 64 + (limb b i).setWidth 64
    acc.extractLsb' 0 32 :: addFrom a b ((acc.extractLsb' 32 32).setWidth 64) (i + 1) m

/-- `addChain(a, b)` on W = `n` limbs: the carry out of the top limb is discarded (41_negate_addsub.md R112). -/
def addChain (n : Nat) (a b : Value) : Value := addFrom a b 0#64 0 n

/-- The complement: "flips every bit of every limb" (41_negate_addsub.md R110). -/
def notValue (n : Nat) (a : Value) : Value := fromLimbs n fun i => limb a i ^^^ 0xFFFFFFFF#32

/-- The N-bit value whose limb 0 is 1 (41_negate_addsub.md R111). -/
def oneValue (n : Nat) : Value := fromLimbs n fun i => if i = 0 then 1#32 else 0#32

/-- Two's-complement negation: "complement followed by adding 1" (41_negate_addsub.md R111). -/
def negValue (n : Nat) (a : Value) : Value := addChain n (notValue n a) (oneValue n)

/-- NOT (41_negate_addsub.md R110). -/
def execNot (rd ra : Reg) (s : State) : Result := .next (s.setReg rd (notValue s.limbs (s.reg ra)))

/-- NEG (41_negate_addsub.md R111). -/
def execNeg (rd ra : Reg) (s : State) : Result := .next (s.setReg rd (negValue s.limbs (s.reg ra)))

/-- ADD (41_negate_addsub.md R113). -/
def execAdd (rd ra rb : Reg) (s : State) : Result :=
  .next (s.setReg rd (addChain s.limbs (s.reg ra) (s.reg rb)))

/-- SUB: "`a += (-b)`" (41_negate_addsub.md R114). -/
def execSub (rd ra rb : Reg) (s : State) : Result :=
  .next (s.setReg rd (addChain s.limbs (s.reg ra) (negValue s.limbs (s.reg rb))))

/-- ADD64 (41_negate_addsub.md R115). -/
def execAdd64 (rd ra : Reg) (s : State) : Result :=
  .next (s.setReg rd (addChain s.limbs (s.reg ra) (argValue s)))

/-- SUB64 (41_negate_addsub.md R116). -/
def execSub64 (rd ra : Reg) (s : State) : Result :=
  .next (s.setReg rd (addChain s.limbs (s.reg ra) (negValue s.limbs (argValue s))))

end Sys2Proof.Machine
end

