-- ==== Sys2Proof/Machine/Bitwise.lean ====
section
/-! DEFINITION. AND, OR, XOR: "elementwise over limbs, no carry" (45_bitwise.md). -/

namespace Sys2Proof.Machine

/-- One limb operation on every limb (45_bitwise.md). -/
def limbwise (f : Limb → Limb → Limb) (n : Nat) (a b : Value) : Value := fromLimbs n fun i => f (limb a i) (limb b i)

/-- AND (45_bitwise.md R170). -/
def execAnd (rd ra rb : Reg) (s : State) : Result :=
  .next (s.setReg rd (limbwise (fun x y => x &&& y) s.limbs (s.reg ra) (s.reg rb)))

/-- OR (45_bitwise.md R171). -/
def execOr (rd ra rb : Reg) (s : State) : Result :=
  .next (s.setReg rd (limbwise (fun x y => x ||| y) s.limbs (s.reg ra) (s.reg rb)))

/-- XOR (45_bitwise.md R172). -/
def execXor (rd ra rb : Reg) (s : State) : Result :=
  .next (s.setReg rd (limbwise (fun x y => x ^^^ y) s.limbs (s.reg ra) (s.reg rb)))

end Sys2Proof.Machine
end

