-- ==== Sys2Proof/Machine/Flags.lean ====
section
/-! DEFINITION. The comparison flags (10_state.md R28; 44_compare.md R160, R162) and the STATUS word (10_state.md R33). -/

namespace Sys2Proof.Machine

/-- CMP's scan: limbs `n - 1` down to 0, the first that differs decides (44_compare.md R160). -/
def compareLimbs (a b : Value) (n : Nat) : Ordering :=
  match n with
  | 0 => .eq
  | i + 1 =>
    if (limb a i).toNat < (limb b i).toNat then .lt
    else if (limb b i).toNat < (limb a i).toNat then .gt
    else compareLimbs a b i

/-- LT, EQ, GT from the outcome of a CMP: exactly one of them (44_compare.md R160). -/
def setOrdering (o : Ordering) (s : State) : State :=
  match o with
  | .lt => s.setOrder true false false
  | .eq => s.setOrder false true false
  | .gt => s.setOrder false false true

/-- CMPEQ64's test on W = `n` limbs: limbs 0 and 1 match the halves of the integer, "all limbs at index ≥ 2 must be zero"
(44_compare.md R162). -/
def equals64 (a : Value) (x : DWord) (n : Nat) : Bool :=
  limb a 0 == x.extractLsb' 0 32 && limb a 1 == x.extractLsb' 32 32 &&
    (List.range n).all (fun i => i < 2 || limb a i == 0#32)

/-- STATUS as the host reads it: LT, EQ, GT, ILL in bits 0 to 3, CAUSE in 7:4, 0 in 31:8 (10_state.md R33). -/
def statusWord (s : State) : Word :=
  0#24 ++ s.cause ++ BitVec.ofBool s.ill ++ BitVec.ofBool s.gt ++ BitVec.ofBool s.eq ++ BitVec.ofBool s.lt

end Sys2Proof.Machine
end

