-- ==== Sys2Proof/Machine/Compare.lean ====
section
/-! DEFINITION. CMP and CMPEQ64 (44_compare.md). -/

namespace Sys2Proof.Machine

/-- CMP: unsigned magnitude comparison (44_compare.md R160). -/
def execCmp (ra rb : Reg) (s : State) : Result :=
  .next (setOrdering (compareLimbs (s.reg ra) (s.reg rb) s.limbs) s)

/-- CMPEQ64: equality against ARG; LT and GT are written 0 (44_compare.md R162). -/
def execCmpeq64 (ra : Reg) (s : State) : Result :=
  .next (s.setOrder false (equals64 (s.reg ra) s.arg s.limbs) false)

end Sys2Proof.Machine
end

