-- ==== Sys2Proof/Machine/Construction.lean ====
section
/-! DEFINITION. NOP, CLR, MOV, LDI64 (40_construction.md). -/

namespace Sys2Proof.Machine

/-- NOP: no operation (40_construction.md R100). -/
def execNop (s : State) : Result := .next s

/-- CLR: `V[RD] <- 0` (40_construction.md R101). -/
def execClr (rd : Reg) (s : State) : Result := .next (s.setReg rd (zeroValue s.params.width))

/-- MOV: `V[RD] <- V[RA]` (40_construction.md R102). -/
def execMov (rd ra : Reg) (s : State) : Result := .next (s.setReg rd (s.reg ra))

/-- LDI64: `V[RD] <- zext_N(ARG)` (40_construction.md R103). -/
def execLdi64 (rd : Reg) (s : State) : Result := .next (s.setReg rd (argValue s))

end Sys2Proof.Machine
end

