-- ==== Sys2Proof/Machine/IncDec.lean ====
section
/-! DEFINITION. The increment and decrement chains, and INC, DEC, PINC, PDEC (42_incdec.md). -/

namespace Sys2Proof.Machine

/-- `incChain` (42_incdec.md R130): "add 1 to limb 0; if it wraps to 0, carry into the next limb, continuing across limbs
but never past the top limb". -/
def incChain (a : Value) : Value :=
  match a with
  | [] => []
  | l :: rest => if l + 1#32 ≠ 0#32 then (l + 1#32) :: rest else (l + 1#32) :: incChain rest

/-- `decChain` (42_incdec.md R130): the mirror, borrowing while a limb becomes 0xFFFFFFFF. -/
def decChain (a : Value) : Value :=
  match a with
  | [] => []
  | l :: rest => if l - 1#32 ≠ 0xFFFFFFFF#32 then (l - 1#32) :: rest else (l - 1#32) :: decChain rest

/-- INC: the new value to V[RA] and V[RD] (42_incdec.md R131). -/
def execInc (rd ra : Reg) (s : State) : Result :=
  let t := incChain (s.reg ra)
  .next ((s.setReg ra t).setReg rd t)

/-- DEC: the new value to V[RA] and V[RD] (42_incdec.md R132). -/
def execDec (rd ra : Reg) (s : State) : Result :=
  let t := decChain (s.reg ra)
  .next ((s.setReg ra t).setReg rd t)

/-- PINC: the new value to V[RA], then the old value to V[RD], written last (42_incdec.md R133). -/
def execPinc (rd ra : Reg) (s : State) : Result :=
  let old := s.reg ra
  .next ((s.setReg ra (incChain old)).setReg rd old)

/-- PDEC: the new value to V[RA], then the old value to V[RD], written last (42_incdec.md R134). -/
def execPdec (rd ra : Reg) (s : State) : Result :=
  let old := s.reg ra
  .next ((s.setReg ra (decChain old)).setReg rd old)

end Sys2Proof.Machine
end

