-- ==== Sys2Proof/Machine/Narrowing.lean ====
section
/-! DEFINITION. TRIM (47_narrowing.md). -/

namespace Sys2Proof.Machine

/-- The low 8 limbs kept, the limbs above them 0 (47_narrowing.md R200). -/
def trimValue (n : Nat) (x : Value) : Value := fromLimbs n fun i => if i < 8 then limb x i else 0#32

/-- TRIM: on W = 16 the low 256 bits; on another part an illegal command with cause UNSUPPORTED_WIDTH, which leaves V[RD]
unchanged (47_narrowing.md R200). The decoder rejects such a word before this point (30_encoding.md R80); run all the
same, the command recorded is its own word (log 11). -/
def execTrim (rd ra : Reg) (s : State) : Result :=
  if s.params.width = .w16 then .next (s.setReg rd (trimValue s.limbs (s.reg ra)))
  else .next (raiseIllegal .unsupportedWidth (encode (.trim rd ra)) s)

end Sys2Proof.Machine
end

