-- ==== Sys2Proof/Machine/Serdes.lean ====
section
/-! DEFINITION. The binary form (TOBYTES, FROMBYTES), the hex form (TOHEX, FROMHEX) and the 64-bit word accessor (GET64)
(46_serdes.md). -/

namespace Sys2Proof.Machine

/-! ## Character classes (46_serdes.md R184) -/

/-- The output digit of a nibble: `0`..`9`, `a`..`f` (46_serdes.md R184). -/
def hexChar (nib : BitVec 4) : Byte :=
  if nib.toNat < 10 then BitVec.ofNat 8 (0x30 + nib.toNat) else BitVec.ofNat 8 (0x61 + (nib.toNat - 10))

/-- `0x30..0x39` (46_serdes.md R184). -/
def isDecimalDigit (c : Byte) : Bool := 0x30 ≤ c.toNat && c.toNat ≤ 0x39

/-- `0x61..0x66` (46_serdes.md R184). -/
def isLowerHex (c : Byte) : Bool := 0x61 ≤ c.toNat && c.toNat ≤ 0x66

/-- `0x41..0x46` (46_serdes.md R184). -/
def isUpperHex (c : Byte) : Bool := 0x41 ≤ c.toNat && c.toNat ≤ 0x46

/-- `isHexDigit(c)` (46_serdes.md R184). -/
def isHexDigit (c : Byte) : Bool := isDecimalDigit c || isLowerHex c || isUpperHex c

/-- `hexVal(c)`: the digit value, 0 for every other byte (46_serdes.md R184). -/
def hexVal (c : Byte) : Nat :=
  if isDecimalDigit c then c.toNat - 0x30
  else if isLowerHex c then c.toNat - 0x61 + 10
  else if isUpperHex c then c.toNat - 0x41 + 10
  else 0

/-- `isSpace(c)`: 0x09 to 0x0D and 0x20 (46_serdes.md R184). -/
def isSpace (c : Byte) : Bool := (0x09 ≤ c.toNat && c.toNat ≤ 0x0D) || c.toNat == 0x20

/-! ## The parser (46_serdes.md R187, R188) -/

/-- The text after a leading `0x` or `0X`, if there is one (46_serdes.md R187). -/
def skipHexMark (text : List Byte) : List Byte :=
  match text with
  | c0 :: c1 :: rest => if c0 = 0x30#8 ∧ (c1 = 0x78#8 ∨ c1 = 0x58#8) then rest else text
  | _ => text

/-- The digit run: up to the first byte that is not a hex digit (STOP, 46_serdes.md R187), or every byte (ZERO,
46_serdes.md R188). -/
def digitRun (mode : HexMode) (text : List Byte) : List Byte :=
  match mode with
  | .stop => text.takeWhile isHexDigit
  | .zero => text

/-- Digits, least significant first, paired into at most `n` bytes, least significant first; a last lone digit makes a byte
of one nibble (46_serdes.md R187, the loop over q and k). -/
def pairDigits (n : Nat) (digits : List Byte) : List Byte :=
  match n, digits with
  | 0, _ => []
  | _, [] => []
  | _ + 1, [d] => [BitVec.ofNat 8 (hexVal d)]
  | m + 1, d :: e :: rest =>
    (BitVec.ofNat 8 (hexVal d) ||| (BitVec.ofNat 8 (hexVal e) <<< 4)) :: pairDigits m rest

/-- The digits `parseHex` reads: whitespace skipped, then the prefix, then the run (46_serdes.md R187, R188). -/
def hexDigits (mode : HexMode) (text : List Byte) : List Byte :=
  digitRun mode (skipHexMark (text.dropWhile isSpace))

/-- `parseHex` of the bytes `text` on W = `n` limbs (46_serdes.md R187, R188). -/
def parseHex (mode : HexMode) (n : Nat) (text : List Byte) : Value :=
  let bytes := pairDigits (4 * n) (hexDigits mode text).reverse
  fromBytes n fun k => bytes.getD k 0#8

/-- Character `j` of the hex form of `x` on W = `n` limbs, most significant first (46_serdes.md R185). -/
def hexCharAt (n : Nat) (x : Value) (j : Nat) : Byte :=
  let k := 4 * n - 1 - j / 2
  if j % 2 = 0 then hexChar ((byteOf x k).extractLsb' 4 4) else hexChar ((byteOf x k).extractLsb' 0 4)

/-- RES of GET64: limbs 2n and 2n+1, 0 past the top limb (46_serdes.md R190). -/
def word64 (w : Nat) (x : Value) (n : Nat) : DWord :=
  let lo : Limb := if 2 * n < w then limb x (2 * n) else 0#32
  let hi : Limb := if 2 * n + 1 < w then limb x (2 * n + 1) else 0#32
  hi ++ lo

/-! ## The commands -/

/-- TOBYTES (46_serdes.md R180). -/
def execTobytes (ra : Reg) (s : State) : Result :=
  let x := s.reg ra
  let b := s.params.width.bytes
  .next ((s.writeBytes 0 ((List.range b).map (byteOf x))).setBlen (BitVec.ofNat 32 b))

/-- FROMBYTES: the full 32-bit BLEN is compared with B (46_serdes.md R183). -/
def execFrombytes (rd : Reg) (s : State) : Result :=
  if s.blen = BitVec.ofNat 32 s.params.width.bytes then .next (s.setReg rd (fromBytes s.limbs s.readByte))
  else .next (s.setReg rd (zeroValue s.params.width))

/-- TOHEX (46_serdes.md R185). -/
def execTohex (ra : Reg) (s : State) : Result :=
  let x := s.reg ra
  let h := s.params.width.chars
  .next ((s.writeBytes 0 ((List.range h).map (hexCharAt s.limbs x))).setBlen (BitVec.ofNat 32 h))

/-- FROMHEX (46_serdes.md R186). -/
def execFromhex (rd : Reg) (s : State) : Result :=
  .next (s.setReg rd (parseHex s.params.hexMode s.limbs (textBytes s)))

/-- GET64 (46_serdes.md R190). -/
def execGet64 (ra : Reg) (imm : BitVec 16) (s : State) : Result :=
  .next (s.setRes (word64 s.limbs (s.reg ra) (immValue imm)))

end Sys2Proof.Machine
end

