-- ==== Sys2Proof/Machine/Shift.lean ====
section
/-! DEFINITION. The two barrel shifters, and SHL, SHR, SHLI, SHRI (43_shift.md). The guard `r ≠ 0` on the complementary
contribution is normative (43_shift.md R142). -/

namespace Sys2Proof.Machine

/-- `limb(res, j) <- limb(res, j) OR v`. -/
def orLimb (res : Value) (j : Nat) (v : Limb) : Value := setLimb res j (limb res j ||| v)

/-- What source limb `i` contributes to a left shift by `32 k + r` (43_shift.md R140). -/
def shlLimb (n k r : Nat) (a res : Value) (i : Nat) : Value :=
  let res1 := if i + k < n then orLimb res (i + k) (limb a i <<< r) else res
  if r ≠ 0 ∧ i + k + 1 < n then orLimb res1 (i + k + 1) (limb a i >>> (32 - r)) else res1

/-- `shl(a, s)` on W = `n` limbs (43_shift.md R140). -/
def shl (n : Nat) (a : Value) (amount : Nat) : Value :=
  (List.range n).foldl (shlLimb n (amount / 32) (amount % 32) a) (fromLimbs n fun _ => 0#32)

/-- What source limb `i` contributes to a right shift by `32 k + r` (43_shift.md R141). -/
def shrLimb (k r : Nat) (a res : Value) (i : Nat) : Value :=
  let res1 := if k ≤ i then orLimb res (i - k) (limb a i >>> r) else res
  if r ≠ 0 ∧ k + 1 ≤ i then orLimb res1 (i - k - 1) (limb a i <<< (32 - r)) else res1

/-- `shr(a, s)` on W = `n` limbs (43_shift.md R141). -/
def shr (n : Nat) (a : Value) (amount : Nat) : Value :=
  (List.range n).foldl (shrLimb (amount / 32) (amount % 32) a) (fromLimbs n fun _ => 0#32)

/-- SHL, amount ARG[31:0] (43_shift.md R143). -/
def execShl (rd ra : Reg) (s : State) : Result :=
  .next (s.setReg rd (shl s.limbs (s.reg ra) (argAmount s)))

/-- SHR, amount ARG[31:0] (43_shift.md R144). -/
def execShr (rd ra : Reg) (s : State) : Result :=
  .next (s.setReg rd (shr s.limbs (s.reg ra) (argAmount s)))

/-- SHLI, amount IMM (43_shift.md R145). -/
def execShli (rd ra : Reg) (imm : BitVec 16) (s : State) : Result :=
  .next (s.setReg rd (shl s.limbs (s.reg ra) (immValue imm)))

/-- SHRI, amount IMM (43_shift.md R146). -/
def execShri (rd ra : Reg) (imm : BitVec 16) (s : State) : Result :=
  .next (s.setReg rd (shr s.limbs (s.reg ra) (immValue imm)))

end Sys2Proof.Machine
end

