-- ==== Sys2Proof/Machine/Dispatch.lean ====
section
/-! DEFINITION. `perform the rule of op` (30_encoding.md R80): one arm per command. -/

namespace Sys2Proof.Machine

def exec (i : Instr) (s : State) : Host.Outcome State Fault Refusal :=
  match i with
  | .nop => Sys2Proof.Machine.execNop s
  | .clr rd => Sys2Proof.Machine.execClr rd s
  | .mov rd ra => Sys2Proof.Machine.execMov rd ra s
  | .ldi64 rd => Sys2Proof.Machine.execLdi64 rd s
  | .not rd ra => Sys2Proof.Machine.execNot rd ra s
  | .neg rd ra => Sys2Proof.Machine.execNeg rd ra s
  | .add rd ra rb => Sys2Proof.Machine.execAdd rd ra rb s
  | .sub rd ra rb => Sys2Proof.Machine.execSub rd ra rb s
  | .add64 rd ra => Sys2Proof.Machine.execAdd64 rd ra s
  | .sub64 rd ra => Sys2Proof.Machine.execSub64 rd ra s
  | .inc rd ra => Sys2Proof.Machine.execInc rd ra s
  | .dec rd ra => Sys2Proof.Machine.execDec rd ra s
  | .pinc rd ra => Sys2Proof.Machine.execPinc rd ra s
  | .pdec rd ra => Sys2Proof.Machine.execPdec rd ra s
  | .shl rd ra => Sys2Proof.Machine.execShl rd ra s
  | .shr rd ra => Sys2Proof.Machine.execShr rd ra s
  | .shli rd ra imm => Sys2Proof.Machine.execShli rd ra imm s
  | .shri rd ra imm => Sys2Proof.Machine.execShri rd ra imm s
  | .cmp ra rb => Sys2Proof.Machine.execCmp ra rb s
  | .cmpeq64 ra => Sys2Proof.Machine.execCmpeq64 ra s
  | .and rd ra rb => Sys2Proof.Machine.execAnd rd ra rb s
  | .or rd ra rb => Sys2Proof.Machine.execOr rd ra rb s
  | .xor rd ra rb => Sys2Proof.Machine.execXor rd ra rb s
  | .tobytes ra => Sys2Proof.Machine.execTobytes ra s
  | .frombytes rd => Sys2Proof.Machine.execFrombytes rd s
  | .tohex ra => Sys2Proof.Machine.execTohex ra s
  | .fromhex rd => Sys2Proof.Machine.execFromhex rd s
  | .get64 ra imm => Sys2Proof.Machine.execGet64 ra imm s
  | .trim rd ra => Sys2Proof.Machine.execTrim rd ra s

end Sys2Proof.Machine
end

