-- ==== Sys2Proof/Machine/Bus.lean ====
section
/-! DEFINITION. The host window (10_state.md R31 to R37, 20_memory.md R51, R52, R56), the issue of a command by a CMD write
(10_state.md R32, 30_encoding.md R80), reset (70_reset_and_hazards.md R240) and loss of power (60_exceptions.md R225). -/

namespace Sys2Proof.Machine

/-! ## The window -/

/-- The registers of the window (10_state.md R31); `buf j` is BUF word j. -/
inductive WindowReg where
  | id | cmd | status | errcmd | argLo | argHi | resLo | resHi | blen | reserved
  | buf (j : Nat)
  deriving DecidableEq, Repr

/-- The register at a window offset: "the access addresses the word at `off & 0x1FC`" (20_memory.md R51; the map is
10_state.md R31). -/
def windowReg (off : BitVec 9) : WindowReg :=
  let a := (off &&& 0x1FC#9).toNat
  if a = 0x000 then .id
  else if a = 0x004 then .cmd
  else if a = 0x008 then .status
  else if a = 0x00C then .errcmd
  else if a = 0x010 then .argLo
  else if a = 0x014 then .argHi
  else if a = 0x018 then .resLo
  else if a = 0x01C then .resHi
  else if a = 0x020 then .blen
  else if a < 0x100 then .reserved
  else .buf ((a - 0x100) / 4)

/-- The window offset of a platform address, none outside the window (20_memory.md R57: the base is a platform parameter). -/
def windowOffset (p : Params) (addr : Nat) : Option (BitVec 9) :=
  if p.windowBase ≤ addr ∧ addr < p.windowBase + 512 then some (BitVec.ofNat 9 (addr - p.windowBase)) else none

/-- ID: MAGIC 0xBF0C, REV 0x01, WIDTH W (10_state.md R36). -/
def idWord (w : Width) : Word := 0xBF0C#16 ++ 0x01#8 ++ BitVec.ofNat 8 w.limbs

/-- BUF word j: `{BUF[4j+3], BUF[4j+2], BUF[4j+1], BUF[4j]}` (20_memory.md R52). -/
def readBufWord (s : State) (j : Nat) : Word :=
  packWordLE (s.readByte (4 * j)) (s.readByte (4 * j + 1)) (s.readByte (4 * j + 2)) (s.readByte (4 * j + 3))

/-- `BUF[4j] <- w[7:0]; …; BUF[4j+3] <- w[31:24]` (20_memory.md R52). -/
def writeBufWord (s : State) (j : Nat) (w : Word) : State :=
  s.writeBytes (4 * j) [w.extractLsb' 0 8, w.extractLsb' 8 8, w.extractLsb' 16 8, w.extractLsb' 24 8]

/-- The word a read of the window returns (10_state.md R31 to R37). -/
def readWindow (s : State) (off : BitVec 9) : Word :=
  match windowReg off with
  | .id => idWord s.params.width
  | .cmd => 0#32
  | .status => statusWord s
  | .errcmd => s.errcmd
  | .argLo => s.arg.extractLsb' 0 32
  | .argHi => s.arg.extractLsb' 32 32
  | .resLo => s.res.extractLsb' 0 32
  | .resHi => s.res.extractLsb' 32 32
  | .blen => s.blen
  | .reserved => 0#32
  | .buf j => readBufWord s j

/-- A host write of STATUS: bit 3 clears ILL and CAUSE, "every other bit of w is ignored" (10_state.md R34). -/
def writeStatus (w : Word) (s : State) : State := if w.getLsbD 3 then clearIllegal s else s

/-- A host write of `c` to CMD: decode, then execute or record (10_state.md R32, 30_encoding.md R80). -/
def issueCommand (c : Word) (s : State) : Result :=
  match decode s.params.width c with
  | .legal i => exec i s
  | .illegal cause => .next (raiseIllegal cause c s)

/-- A host write of the word `w` (10_state.md R31 to R37, 20_memory.md R56): a write to a read-only or reserved register is
ignored. -/
def writeWindow (off : BitVec 9) (w : Word) (s : State) : Result :=
  match windowReg off with
  | .cmd => issueCommand w s
  | .status => .next (writeStatus w s)
  | .argLo => .next (s.setArg (s.arg.extractLsb' 32 32 ++ w))
  | .argHi => .next (s.setArg (w ++ s.arg.extractLsb' 0 32))
  | .blen => .next (s.setBlen w)
  | .buf j => .next (writeBufWord s j w)
  | .id | .errcmd | .resLo | .resHi | .reserved => .next s

/-! ## The bus -/

/-- The bus word of a host write: the host's own lanes carry its data, the others "whatever the platform's bus carries
there" (20_memory.md R51), a free value (log 7). -/
def busWord (lanes : BitVec 4) (data : Word) (draw : Nat) : Word :=
  let lane := fun (k : Nat) => if lanes.getLsbD k then data.extractLsb' (8 * k) 8 else Config.freeByte draw k
  packWordLE (lane 0) (lane 1) (lane 2) (lane 3)

/-- A write that does not drive all four lanes makes a draw. -/
def drawsAfter (lanes : BitVec 4) (draws : Nat) : Nat := if lanes = 0xF#4 then draws else draws + 1

/-- What the host gets back from a write at an offset (20_memory.md R64, last column): the write response from CMD, after the
command's completion (R55), nothing from ARG, BLEN, BUF or STATUS, and nothing from an ignored write (DESIGN CHOICE, log 6). -/
def writeResponse (off : BitVec 9) : Response := if windowReg off = .cmd then .written else .none

/-- Reset: every piece of the block's state at its value of 10_state.md R38 (70_reset_and_hazards.md R240). The instance's
parameters, the host's accesses still to come, the draws and the model's record are not the block's state (logs 8, 10). -/
def resetBlock (s : State) : State :=
  { State.resetOf s.params with
    pending := s.pending
    draws := s.draws
    illegalLog := s.illegalLog }

/-- After a loss of power, before reset: "any value: every state element" (93_implementation_defined.md U9; log 9).
Element numbers: 16 r + i limb i of Vr, 128 and 129 ARG, 130 and 131 RES, 132 BLEN, 133 ERRCMD, 134 STATUS, 135 + j BUF
word j. -/
def losePower (s : State) : State :=
  let e := Config.freeWord s.draws
  let status := e 134
  { s with
    regs := RegFile.ofFn fun r => fromLimbs s.limbs fun i => e (16 * r.num.toNat + i)
    arg := e 129 ++ e 128
    res := e 131 ++ e 130
    blen := e 132
    errcmd := e 133
    buf := Memory.writeBytes [] 0 ((List.range 256).map fun k => (e (135 + k / 4)).extractLsb' (8 * (k % 4)) 8)
    lt := status.getLsbD 0
    eq := status.getLsbD 1
    gt := status.getLsbD 2
    ill := status.getLsbD 3
    cause := status.extractLsb' 4 4
    response := .none
    draws := s.draws + 1
    known := false }

/-- One thing from outside, performed completely, and what the host gets back from it (20_memory.md R55, R59, R64). -/
def performAccess (a : Access) (s : State) : Result :=
  match a with
  | .write off lanes data =>
    writeWindow off (busWord lanes data s.draws)
      ((s.setResponse (writeResponse off)).setDraws (drawsAfter lanes s.draws))
  | .read off => .next (s.setResponse (.data (readWindow s off)))
  | .reset => .next (resetBlock s)
  | .powerLoss => .next (losePower s)

/-! ## What a host sends -/

/-- A 32-bit host write at a window offset. -/
def writeWord (off : BitVec 9) (w : Word) : Access := .write off 0xF#4 w

/-- The CMD write of a command word (10_state.md R32). -/
def commandWrite (c : Word) : Access := writeWord 0x004#9 c

end Sys2Proof.Machine
end

