-- ==== Sys2Proof/Machine/Step.lean ====
section
/-! DEFINITION. One step: the block performs the oldest host access still to come (20_memory.md R59). -/

namespace Sys2Proof.Machine

/-- One step. "The block performs host accesses one at a time, in the order it receives them. Each takes effect completely
before the next begins" (20_memory.md R59). With no access to perform, nothing changes (log 5). -/
def step (s : State) : Host.Outcome State Fault Refusal :=
  match s.pending with
  | [] => .next s
  | a :: rest => performAccess a (s.setPending rest)

/-- `s` with the host about to write the command word `w` to CMD: the block fetches nothing, "The host writes one command
word per operation" (92_eei_decisions.md D4, log 4). -/
def State.withFetchWord (s : State) (_nbits w : Nat) : State :=
  s.setPending (commandWrite (BitVec.ofNat 32 w) :: s.pending)

end Sys2Proof.Machine
end

