-- ==== Sys2Proof/Machine/Assembler.lean ====
section
/-! DEFINITION. The host's notation: the pseudo-instructions and their expansions (30_encoding.md R83), the assembler for one
line, and the `wr` and `rd` lines of a host program (30_encoding.md R82). Host control flow (labels, `goto`) is the host's
own: "the block never sees them". Text is a list of characters. -/

namespace Sys2Proof.Machine

/-! ## Pseudo-instructions (30_encoding.md R83) -/

/-- The eight pseudo-instructions. -/
inductive Pseudo where
  | li (rd : Reg) (x : DWord)
  | addi (rd ra : Reg) (x : DWord)
  | subi (rd ra : Reg) (x : DWord)
  | cmpeqi (ra : Reg) (x : DWord)
  | shlx (rd ra : Reg) (amount : Word)
  | shrx (rd ra : Reg) (amount : Word)
  | setlen (n : Word)
  | clrill
  deriving DecidableEq, Repr

/-- `wr 0x010, imm64[31:0] ; wr 0x014, imm64[63:32] ;` then a command (30_encoding.md R83). -/
def withArg (x : DWord) (i : Instr) : List Access :=
  [writeWord 0x010#9 (x.extractLsb' 0 32), writeWord 0x014#9 (x.extractLsb' 32 32), commandWrite (encode i)]

/-- The host accesses a pseudo-instruction stands for (30_encoding.md R83). -/
def expandPseudo (p : Pseudo) : List Access :=
  match p with
  | .li rd x => withArg x (.ldi64 rd)
  | .addi rd ra x => withArg x (.add64 rd ra)
  | .subi rd ra x => withArg x (.sub64 rd ra)
  | .cmpeqi ra x => withArg x (.cmpeq64 ra)
  | .shlx rd ra amount => [writeWord 0x010#9 amount, commandWrite (encode (.shl rd ra))]
  | .shrx rd ra amount => [writeWord 0x010#9 amount, commandWrite (encode (.shr rd ra))]
  | .setlen n => [writeWord 0x020#9 n]
  | .clrill => [writeWord 0x008#9 0x00000008#32]

/-! ## One line of text (30_encoding.md R82) -/

/-- The mnemonic of each opcode, in lower case; a line's mnemonic is "case-insensitive" (30_encoding.md R82). -/
def mnemonicText (o : Op) : List Char :=
  match o with
  | .nop => ['n', 'o', 'p']
  | .clr => ['c', 'l', 'r']
  | .mov => ['m', 'o', 'v']
  | .ldi64 => ['l', 'd', 'i', '6', '4']
  | .not => ['n', 'o', 't']
  | .neg => ['n', 'e', 'g']
  | .add => ['a', 'd', 'd']
  | .sub => ['s', 'u', 'b']
  | .add64 => ['a', 'd', 'd', '6', '4']
  | .sub64 => ['s', 'u', 'b', '6', '4']
  | .inc => ['i', 'n', 'c']
  | .dec => ['d', 'e', 'c']
  | .pinc => ['p', 'i', 'n', 'c']
  | .pdec => ['p', 'd', 'e', 'c']
  | .shl => ['s', 'h', 'l']
  | .shr => ['s', 'h', 'r']
  | .shli => ['s', 'h', 'l', 'i']
  | .shri => ['s', 'h', 'r', 'i']
  | .cmp => ['c', 'm', 'p']
  | .cmpeq64 => ['c', 'm', 'p', 'e', 'q', '6', '4']
  | .and => ['a', 'n', 'd']
  | .or => ['o', 'r']
  | .xor => ['x', 'o', 'r']
  | .tobytes => ['t', 'o', 'b', 'y', 't', 'e', 's']
  | .frombytes => ['f', 'r', 'o', 'm', 'b', 'y', 't', 'e', 's']
  | .tohex => ['t', 'o', 'h', 'e', 'x']
  | .fromhex => ['f', 'r', 'o', 'm', 'h', 'e', 'x']
  | .get64 => ['g', 'e', 't', '6', '4']
  | .trim => ['t', 'r', 'i', 'm']

/-- Space and tab separate the words of a line. -/
def isBlank (c : Char) : Bool := c == ' ' || c == '\t'

/-- Blanks cut off at both ends. -/
def trimBlanks (t : List Char) : List Char := ((t.dropWhile isBlank).reverse.dropWhile isBlank).reverse

/-- The parts of a text between the commas. -/
def splitCommas (t : List Char) : List (List Char) :=
  match t with
  | [] => [[]]
  | c :: rest =>
    if c = ',' then [] :: splitCommas rest
    else match splitCommas rest with
      | [] => [[c]]
      | p :: ps => (c :: p) :: ps

/-- The operands of a line: none if nothing follows the mnemonic, else the parts between the commas, blanks cut off. -/
def operandTexts (t : List Char) : List (List Char) :=
  if t.all isBlank then [] else (splitCommas t).map trimBlanks

/-- "A register is written `v0` to `v7`" (30_encoding.md R82). -/
def parseReg (t : List Char) : Option Reg :=
  match t with
  | ['v', d] => if '0'.toNat ≤ d.toNat ∧ d.toNat ≤ '7'.toNat then some (Reg.ofNum (BitVec.ofNat 3 (d.toNat - '0'.toNat))) else none
  | _ => none

/-- The value of a digit character below `base`. -/
def digitOf (base : Nat) (c : Char) : Option Nat :=
  let v :=
    if '0'.toNat ≤ c.toNat ∧ c.toNat ≤ '9'.toNat then c.toNat - '0'.toNat
    else if 'a'.toNat ≤ c.toLower.toNat ∧ c.toLower.toNat ≤ 'f'.toNat then c.toLower.toNat - 'a'.toNat + 10
    else base
  if v < base then some v else none

/-- The number a digit string stands for, after the digits already read. -/
def parseDigits (base acc : Nat) (t : List Char) : Option Nat :=
  match t with
  | [] => some acc
  | c :: rest => match digitOf base c with
    | some v => parseDigits base (acc * base + v) rest
    | none => none

/-- "in decimal, or in hexadecimal with a `0x`" before it (30_encoding.md R82). -/
def parseNumber (t : List Char) : Option Nat :=
  match t with
  | [] => none
  | ['0', 'x'] => none
  | '0' :: 'x' :: rest => parseDigits 16 0 rest
  | _ => parseDigits 10 0 t

/-- "It must be in 0 to 65535, or the assembler rejects the line" (30_encoding.md R82). -/
def parseImm (t : List Char) : Option (BitVec 16) :=
  match parseNumber t with
  | some n => if n < 65536 then some (BitVec.ofNat 16 n) else none
  | none => none

/-- A 32-bit number of a host line. -/
def parseWord (t : List Char) : Option Word :=
  match parseNumber t with
  | some n => if n < 2 ^ 32 then some (BitVec.ofNat 32 n) else none
  | none => none

/-- A 64-bit immediate of a pseudo-instruction (30_encoding.md R83: imm64). -/
def parseDWord (t : List Char) : Option DWord :=
  match parseNumber t with
  | some n => if n < 2 ^ 64 then some (BitVec.ofNat 64 n) else none
  | none => none

/-- A window offset of a host line (20_memory.md R51: 0 ≤ off ≤ 0x1FF). -/
def parseOffset (t : List Char) : Option (BitVec 9) :=
  match parseNumber t with
  | some n => if n < 512 then some (BitVec.ofNat 9 n) else none
  | none => none

/-- The operand fields of a format, destination first, "every field that is not an operand set to 0"
(30_encoding.md R82, R75's syntax column). -/
def parseOperands (fmt : Format) (ops : List (List Char)) : Option Fields :=
  match fmt, ops with
  | .F0, [] => some ⟨.v0, .v0, .v0, 0#16⟩
  | .FD, [d] => (parseReg d).map fun rd => ⟨rd, .v0, .v0, 0#16⟩
  | .FDA, [d, a] => (parseReg d).bind fun rd => (parseReg a).map fun ra => ⟨rd, ra, .v0, 0#16⟩
  | .FDAB, [d, a, b] =>
    (parseReg d).bind fun rd => (parseReg a).bind fun ra => (parseReg b).map fun rb => ⟨rd, ra, rb, 0#16⟩
  | .FDAI, [d, a, n] =>
    (parseReg d).bind fun rd => (parseReg a).bind fun ra => (parseImm n).map fun imm => ⟨rd, ra, .v0, imm⟩
  | .FAB, [a, b] => (parseReg a).bind fun ra => (parseReg b).map fun rb => ⟨.v0, ra, rb, 0#16⟩
  | .FA, [a] => (parseReg a).map fun ra => ⟨.v0, ra, .v0, 0#16⟩
  | .FAI, [a, n] => (parseReg a).bind fun ra => (parseImm n).map fun imm => ⟨.v0, ra, .v0, imm⟩
  | _, _ => none

/-- A line without its comment: "A comment starts with `;`" (30_encoding.md R82). -/
def lineCode (line : List Char) : List Char := trimBlanks (line.takeWhile (· != ';'))

/-- The first word of a line, in lower case. -/
def lineWord (line : List Char) : List Char := ((lineCode line).takeWhile (fun c => !isBlank c)).map Char.toLower

/-- What follows the first word of a line. -/
def lineRest (line : List Char) : List Char := (lineCode line).dropWhile (fun c => !isBlank c)

/-- The command word of a command line for a part of width `w`; none if the line is rejected or holds no command. The
assembler "never emits an illegal command" (30_encoding.md R82), so TRIM is rejected where W ≠ 16. -/
def assembleLine (w : Width) (line : List Char) : Option Word :=
  match Op.all.find? (fun o => mnemonicText o == lineWord line) with
  | none => none
  | some o =>
    if o = .trim ∧ w ≠ .w16 then none
    else (parseOperands o.format (operandTexts (lineRest line))).map (packWord o)

/-- The part of a text before `->` and the part after it. -/
def splitArrow (t : List Char) : Option (List Char × List Char) :=
  match t with
  | [] => none
  | '-' :: '>' :: rest => some ([], rest)
  | c :: rest => (splitArrow rest).map fun p => (c :: p.1, p.2)

/-- `wr OFFSET, VALUE` and `rd OFFSET -> name` (30_encoding.md R82). The name is the host's. -/
def hostLine (line : List Char) : Option Access :=
  if lineWord line = ['w', 'r'] then
    match operandTexts (lineRest line) with
    | [o, v] => (parseOffset o).bind fun off => (parseWord v).map fun w => writeWord off w
    | _ => none
  else if lineWord line = ['r', 'd'] then
    match splitArrow (lineRest line) with
    | some (o, _) => (parseOffset (trimBlanks o)).map .read
    | none => (parseOffset (trimBlanks (lineRest line))).map .read
  else none

/-- `LI`, `CMPEQI`: a register and a 64-bit immediate (30_encoding.md R83). -/
def parseRegDWord (f : Reg → DWord → Pseudo) (ops : List (List Char)) : Option Pseudo :=
  match ops with
  | [r, x] => (parseReg r).bind fun r => (parseDWord x).map fun x => f r x
  | _ => none

/-- `ADDI`, `SUBI`: two registers and a 64-bit immediate (30_encoding.md R83). -/
def parseRegRegDWord (f : Reg → Reg → DWord → Pseudo) (ops : List (List Char)) : Option Pseudo :=
  match ops with
  | [d, a, x] => (parseReg d).bind fun d => (parseReg a).bind fun a => (parseDWord x).map fun x => f d a x
  | _ => none

/-- `SHLX`, `SHRX`: two registers and a 32-bit amount (30_encoding.md R83). -/
def parseRegRegWord (f : Reg → Reg → Word → Pseudo) (ops : List (List Char)) : Option Pseudo :=
  match ops with
  | [d, a, n] => (parseReg d).bind fun d => (parseReg a).bind fun a => (parseWord n).map fun n => f d a n
  | _ => none

/-- A line that holds a pseudo-instruction, written like a command line (30_encoding.md R82, R83). -/
def pseudoLine (line : List Char) : Option Pseudo :=
  let word := lineWord line
  let ops := operandTexts (lineRest line)
  if word = ['l', 'i'] then parseRegDWord .li ops
  else if word = ['a', 'd', 'd', 'i'] then parseRegRegDWord .addi ops
  else if word = ['s', 'u', 'b', 'i'] then parseRegRegDWord .subi ops
  else if word = ['c', 'm', 'p', 'e', 'q', 'i'] then parseRegDWord .cmpeqi ops
  else if word = ['s', 'h', 'l', 'x'] then parseRegRegWord .shlx ops
  else if word = ['s', 'h', 'r', 'x'] then parseRegRegWord .shrx ops
  else if word = ['s', 'e', 't', 'l', 'e', 'n'] then
    match ops with
    | [n] => (parseWord n).map .setlen
    | _ => none
  else if word = ['c', 'l', 'r', 'i', 'l', 'l'] then
    match ops with
    | [] => some .clrill
    | _ => none
  else none

/-- The host accesses one line of a host program stands for: a command's CMD write, a pseudo-instruction's expansion, or a
`wr` or `rd` line; none for a line that is rejected, empty or host control flow (30_encoding.md R82, R83). -/
def lineAccesses (w : Width) (line : List Char) : Option (List Access) :=
  match assembleLine w line with
  | some c => some [commandWrite c]
  | none => match pseudoLine line with
    | some p => some (expandPseudo p)
    | none => (hostLine line).map fun a => [a]

end Sys2Proof.Machine
end

