-- ==== Sys2Proof/Safety.lean ====
section
/-! DEFINITION. What a good state is and what a safe run is, in the terms the statements use. -/

namespace Sys2Proof.Machine

/-- "A value register always holds exactly W limbs" (10_state.md R21). -/
def State.LimbsExact (s : State) : Prop := ∀ r : Reg, (s.reg r).length = s.limbs

/-- "The invariant CAUSE = 0 if and only if ILL = 0 holds in every reachable state", and "4 to 15 are never produced"
(10_state.md R33). -/
def State.CauseMatchesIll (s : State) : Prop := (s.cause = 0#4 ↔ s.ill = false) ∧ s.cause.toNat ≤ 3

/-- No two of LT, EQ and GT are set together (10_state.md R28: CMP sets exactly one, CMPEQ64 at most EQ, reset none). -/
def State.OneOrderFlag (s : State) : Prop :=
  (s.lt = true → s.eq = false ∧ s.gt = false) ∧ (s.eq = true → s.lt = false ∧ s.gt = false) ∧
    (s.gt = true → s.lt = false ∧ s.eq = false)

/-- While ILL = 1, CAUSE and ERRCMD are those of an illegal command the block was given (10_state.md R35). -/
def State.RecordIsReal (s : State) : Prop :=
  s.ill = true → ∃ r ∈ s.illegalLog, s.cause = causeCode r.cause ∧ s.errcmd = r.command

/-- The invariant every step keeps. Its last three parts hold while the state is known, that is, from a reset to the next
loss of power (60_exceptions.md R225). -/
structure State.Inv (s : State) : Prop where
  limbsExact : s.LimbsExact
  bufCanonical : Memory.wf s.buf = true
  causeMatchesIll : s.known = true → s.CauseMatchesIll
  oneOrderFlag : s.known = true → s.OneOrderFlag
  recordIsReal : s.known = true → s.RecordIsReal

/-- The host sends these accesses, and the block performs them all. -/
def runAccesses (as : List Access) (s : State) : Result :=
  Host.Core.run Sys2Proof.core as.length (s.setPending as)

/-- A safe run of `k` steps: it goes through and no command in it was illegal ("claims should take 'no illegal command
issued' as a premise", 92_eei_decisions.md D24). -/
def LegalRun (k : Nat) (s : State) : Prop :=
  ∃ t : State, Host.Core.run Sys2Proof.core k s = .next t ∧ t.illegalLog = s.illegalLog

end Sys2Proof.Machine
end

