-- ==== Sys2Proof/Certificates/Slice0/Obligations.lean ====
section
/-! DEFINITION. The statements for the provers. Each docstring says which rule of spec/ it formalises; OBLIGATIONS.json has
the titles, the tiers and the citations. -/

open Sys2Proof Sys2Proof.Machine

namespace Sys2Proof.Certificates

/-! ## The words the statements use -/

/-- ARG, RES and BLEN are unchanged. -/
def SameScalars (s t : State) : Prop := t.arg = s.arg ∧ t.res = s.res ∧ t.blen = s.blen

/-- LT, EQ and GT are unchanged. -/
def SameFlags (s t : State) : Prop := t.lt = s.lt ∧ t.eq = s.eq ∧ t.gt = s.gt

/-- ILL, CAUSE, ERRCMD and the model's record of illegal commands are unchanged. -/
def SameRecord (s t : State) : Prop :=
  t.ill = s.ill ∧ t.cause = s.cause ∧ t.errcmd = s.errcmd ∧ t.illegalLog = s.illegalLog

/-- Every byte of BUF reads as before. -/
def SameBytes (s t : State) : Prop := ∀ a : Nat, t.readByte a = s.readByte a

/-- The parameters and the host's side are unchanged. -/
def SameOutside (s t : State) : Prop :=
  t.params = s.params ∧ t.pending = s.pending ∧ t.response = s.response ∧ t.draws = s.draws ∧ t.known = s.known

/-- Every value register but those listed is unchanged. -/
def SameRegsBut (rs : List Reg) (s t : State) : Prop := ∀ q : Reg, q ∉ rs → t.reg q = s.reg q

/-- The frame of a command that writes the listed value registers and nothing else. -/
def OnlyRegs (rs : List Reg) (s t : State) : Prop :=
  SameRegsBut rs s t ∧ SameScalars s t ∧ SameFlags s t ∧ SameRecord s t ∧ SameBytes s t ∧ SameOutside s t

/-- The frame of a comparison: only LT, EQ and GT may change. -/
def OnlyFlags (s t : State) : Prop :=
  SameRegsBut [] s t ∧ SameScalars s t ∧ SameRecord s t ∧ SameBytes s t ∧ SameOutside s t

/-- The frame of TOBYTES and TOHEX: only BLEN and the BUF bytes below `n` may change. -/
def OnlyBufBelow (n : Nat) (s t : State) : Prop :=
  SameRegsBut [] s t ∧ t.arg = s.arg ∧ t.res = s.res ∧ SameFlags s t ∧ SameRecord s t ∧ SameOutside s t ∧
    ∀ a : Nat, n ≤ a → t.readByte a = s.readByte a

/-- The parts of 10_state.md section 1 and the parameters are the same in two states. -/
def SameBlock (s u : State) : Prop :=
  s.params = u.params ∧ s.regs = u.regs ∧ s.arg = u.arg ∧ s.res = u.res ∧ s.blen = u.blen ∧ s.buf = u.buf ∧
    s.lt = u.lt ∧ s.eq = u.eq ∧ s.gt = u.gt ∧ s.ill = u.ill ∧ s.cause = u.cause ∧ s.errcmd = u.errcmd

/-- The command word with OP `op` and these fields: `(OP << 26) | (RD << 23) | (RA << 20) | (RB << 17) | IMM`
(30_encoding.md R75), as a number. -/
def wordOf (op : Nat) (rd ra rb : Reg) (imm : Nat) : Word :=
  BitVec.ofNat 32
    (op * 2 ^ 26 + rd.num.toNat * 2 ^ 23 + ra.num.toNat * 2 ^ 20 + rb.num.toNat * 2 ^ 17 + imm)

/-- `c` is the word of command `i`, on every part on which `i` is legal. -/
def HasWord (i : Instr) (c : Word) : Prop :=
  encode i = c ∧ ∀ w : Width, WellFormed w i = true → decode w c = .legal i

/-- `z` is the N-bit value whose limbs 0 and 1 are the halves of `a` (40_construction.md R103). -/
def IsZext (n : Nat) (z : Value) (a : DWord) : Prop :=
  z.length = n ∧ limb z 0 = a.extractLsb' 0 32 ∧ limb z 1 = a.extractLsb' 32 32 ∧ ∀ i : Nat, 2 ≤ i → limb z i = 0#32

/-- `z` is the limbwise complement of `a` (41_negate_addsub.md R110). -/
def IsNot (n : Nat) (z a : Value) : Prop :=
  z.length = n ∧ ∀ i : Nat, i < n → limb z i = limb a i ^^^ 0xFFFFFFFF#32

/-- `z` is "the N-bit value whose limb 0 is 1" (41_negate_addsub.md R111). -/
def IsOne (n : Nat) (z : Value) : Prop :=
  z.length = n ∧ limb z 0 = 1#32 ∧ ∀ i : Nat, 1 ≤ i → limb z i = 0#32

/-- `z` is the two's-complement negation of `a`: complement, then add 1 (41_negate_addsub.md R111). -/
def IsNeg (n : Nat) (z a : Value) : Prop :=
  ∃ u e : Value, IsNot n u a ∧ IsOne n e ∧ z = addChain n u e

/-- The rows of spec/opcode_table.json: opcode, match, mask. -/
def opcodeTable : List (Op × Word × Word) :=
  [(Op.nop, 0x00000000#32, 0xFFFFFFFF#32), (Op.clr, 0x04000000#32, 0xFC7FFFFF#32), (Op.mov, 0x08000000#32, 0xFC0FFFFF#32),
   (Op.ldi64, 0x0C000000#32, 0xFC7FFFFF#32), (Op.not, 0x10000000#32, 0xFC0FFFFF#32), (Op.neg, 0x14000000#32, 0xFC0FFFFF#32)] ++
  [(Op.add, 0x20000000#32, 0xFC01FFFF#32), (Op.sub, 0x24000000#32, 0xFC01FFFF#32), (Op.add64, 0x28000000#32, 0xFC0FFFFF#32),
   (Op.sub64, 0x2C000000#32, 0xFC0FFFFF#32), (Op.inc, 0x30000000#32, 0xFC0FFFFF#32), (Op.dec, 0x34000000#32, 0xFC0FFFFF#32)] ++
  [(Op.pinc, 0x38000000#32, 0xFC0FFFFF#32), (Op.pdec, 0x3C000000#32, 0xFC0FFFFF#32), (Op.shl, 0x40000000#32, 0xFC0FFFFF#32),
   (Op.shr, 0x44000000#32, 0xFC0FFFFF#32), (Op.shli, 0x48000000#32, 0xFC0F0000#32), (Op.shri, 0x4C000000#32, 0xFC0F0000#32)] ++
  [(Op.cmp, 0x50000000#32, 0xFF81FFFF#32), (Op.cmpeq64, 0x54000000#32, 0xFF8FFFFF#32), (Op.and, 0x60000000#32, 0xFC01FFFF#32),
   (Op.or, 0x64000000#32, 0xFC01FFFF#32), (Op.xor, 0x68000000#32, 0xFC01FFFF#32), (Op.tobytes, 0x80000000#32, 0xFF8FFFFF#32)] ++
  [(Op.frombytes, 0x84000000#32, 0xFC7FFFFF#32), (Op.tohex, 0x88000000#32, 0xFF8FFFFF#32),
   (Op.fromhex, 0x8C000000#32, 0xFC7FFFFF#32), (Op.get64, 0x90000000#32, 0xFF8F0000#32), (Op.trim, 0xA0000000#32, 0xFC0FFFFF#32)]

/-- The 35 reserved OP values (30_encoding.md R76). -/
def reservedOps : List Nat :=
  [0x06, 0x07, 0x16, 0x17, 0x1B, 0x1C, 0x1D, 0x1E, 0x1F, 0x25, 0x26, 0x27, 0x29, 0x2A, 0x2B, 0x2C, 0x2D, 0x2E] ++
  [0x2F, 0x30, 0x31, 0x32, 0x33, 0x34, 0x35, 0x36, 0x37, 0x38, 0x39, 0x3A, 0x3B, 0x3C, 0x3D, 0x3E, 0x3F]

/-- The ASCII codes of `0123456789abcdef` (46_serdes.md R184, R185). -/
def hexAlphabet : List Byte :=
  [0x30#8, 0x31#8, 0x32#8, 0x33#8, 0x34#8, 0x35#8, 0x36#8, 0x37#8] ++
  [0x38#8, 0x39#8, 0x61#8, 0x62#8, 0x63#8, 0x64#8, 0x65#8, 0x66#8]

/-- The number a string of digit bytes stands for, most significant first. -/
def hexNumber (ds : List Byte) : Nat := ds.foldl (fun acc d => 16 * acc + hexVal d) 0

/-- The prefixes FROMHEX skips: none, `0x`, `0X` (46_serdes.md R184). -/
def hexMarks : List (List Byte) := [[], [0x30#8, 0x78#8], [0x30#8, 0x58#8]]

/-- BUF holds `text` from byte 0, and BLEN is its length (at most 256). -/
def HoldsText (s : State) (text : List Byte) : Prop :=
  text.length ≤ 256 ∧ s.blen = BitVec.ofNat 32 text.length ∧ ∀ j : Nat, j < text.length → s.readByte j = text.getD j 0#8

/-- The accesses of the software reset sequence (70_reset_and_hazards.md R242). -/
def softwareReset : List Access :=
  Reg.all.map (fun r => commandWrite (encode (.clr r))) ++
  [writeWord 0x010#9 1#32, writeWord 0x014#9 0#32, commandWrite (encode (.cmpeq64 .v0)), writeWord 0x010#9 0#32,
   commandWrite (encode (.get64 .v0 0#16)), writeWord 0x020#9 0#32] ++
  (List.range 64).map (fun j => writeWord (BitVec.ofNat 9 (0x100 + 4 * j)) 0#32) ++
  [writeWord 0x008#9 0x8#32]

/-- What a host sends a W = 8 part to give it BUF[0..31] of another part and have it decoded (47_narrowing.md R201). -/
def copyToW8 (t : State) (rd : Reg) : List Access :=
  (List.range 8).map (fun j => writeWord (BitVec.ofNat 9 (0x100 + 4 * j)) (readBufWord t j)) ++
  [writeWord 0x020#9 32#32, commandWrite (encode (.frombytes rd))]

end Sys2Proof.Certificates

open Sys2Proof.Certificates

/-! ## Encoding -/

/-- Every legal command survives encoding and decoding, with every operand at every value (30_encoding.md R75; R82: the
assembler never emits an illegal command). -/
def Obligations.DecodeOfEncodeIsTheCommand : Prop :=
  ∀ (w : Width) (i : Instr), WellFormed w i = true → decode w (encode i) = .legal i

/-- No bit of a legal word is dropped: a word that decodes to `i` is the word of `i`, and `i` is legal on the part. -/
def Obligations.EncodeOfDecodeIsTheWord : Prop :=
  ∀ (w : Width) (c : Word) (i : Instr), decode w c = .legal i → encode i = c ∧ WellFormed w i = true

/-- The rows of spec/opcode_table.json: on W = 16 a word decodes to a command of the row's opcode exactly when its masked
bits are the row's match. -/
def Obligations.OpcodeTableRowsDecode : Prop :=
  ∀ row ∈ opcodeTable, ∀ c : Word,
    (∃ i : Instr, decode .w16 c = .legal i ∧ i.op = row.1) ↔ c &&& row.2.2 = row.2.1

/-- Which words are illegal, and with which cause: the checks of 30_encoding.md R80 in their order (R76, R77, R78), on the
OP field as a number. -/
def Obligations.IllegalWordsAndTheirCauses : Prop :=
  ∀ (w : Width) (c : Word),
    (decode w c = .illegal .reservedOpcode ↔ c.toNat / 2 ^ 26 ∈ reservedOps) ∧
    (decode w c = .illegal .unsupportedWidth ↔ c.toNat / 2 ^ 26 = 0x28 ∧ w ≠ .w16) ∧
    (decode w c = .illegal .reservedField ↔
      c.toNat / 2 ^ 26 ∉ reservedOps ∧ ¬(c.toNat / 2 ^ 26 = 0x28 ∧ w ≠ .w16) ∧
        ∀ row ∈ opcodeTable, c &&& row.2.2 ≠ row.2.1)

/-- Words written out by the spec decode to what it says they are (40_construction.md to 47_narrowing.md examples,
95_test_vectors.md section 2.1). -/
def Obligations.SpecWordsDecode : Prop :=
  decode .w5 0x05800000#32 = .legal (.clr .v3) ∧ decode .w5 0x09500000#32 = .legal (.mov .v2 .v5) ∧
  decode .w5 0x21940000#32 = .legal (.add .v3 .v1 .v2) ∧ decode .w5 0x3E200000#32 = .legal (.pdec .v4 .v2) ∧
  decode .w5 0x49100028#32 = .legal (.shli .v2 .v1 40#16) ∧ decode .w8 0x50140000#32 = .legal (.cmp .v1 .v2) ∧
  decode .w5 0x6A940000#32 = .legal (.xor .v5 .v1 .v2) ∧ decode .w5 0x90100001#32 = .legal (.get64 .v1 1#16) ∧
  decode .w16 0xA0A00000#32 = .legal (.trim .v1 .v2) ∧ decode .w8 0xA0A00001#32 = .illegal .unsupportedWidth ∧
  decode .w8 0x00000001#32 = .illegal .reservedField ∧ decode .w8 0x18000000#32 = .illegal .reservedOpcode

/-! ## The machine as a whole -/

/-- A host write of a legal word to CMD (offset 0x004, its low two bits ignored) executes the decoded command once, on the
state with that access taken off the host's list and answered (10_state.md R32, 20_memory.md R51). -/
def Obligations.CmdWriteExecutesTheDecodedCommand : Prop :=
  ∀ (s : State) (off : BitVec 9) (c : Word) (rest : List Access) (i : Instr),
    s.pending = .write off 0xF#4 c :: rest → off &&& 0x1FC#9 = 0x004#9 → decode s.params.width c = .legal i →
    step s = exec i { s with pending := rest, response := .written }

/-- An illegal command records ILL, CAUSE and ERRCMD if ILL was 0, else keeps the first record, changes nothing else of the
block, and the CMD write completes normally (60_exceptions.md R213; the codes are R211's). -/
def Obligations.IllegalCommandOnlyRecords : Prop :=
  ∀ (s : State) (off : BitVec 9) (c : Word) (rest : List Access) (cause : Cause),
    s.pending = .write off 0xF#4 c :: rest → off &&& 0x1FC#9 = 0x004#9 → decode s.params.width c = .illegal cause →
    ∃ t : State, step s = .next t ∧ t.response = .written ∧ t.pending = rest ∧
      (s.ill = false → t.ill = true ∧ t.errcmd = c ∧ (cause = .reservedOpcode → t.cause = 1#4) ∧
        (cause = .unsupportedWidth → t.cause = 2#4) ∧ (cause = .reservedField → t.cause = 3#4)) ∧
      (s.ill = true → t.ill = true ∧ t.cause = s.cause ∧ t.errcmd = s.errcmd) ∧
      SameRegsBut [] s t ∧ SameScalars s t ∧ SameFlags s t ∧ SameBytes s t ∧ t.params = s.params

/-- From ILL = 0, any sequence of command words goes through; ILL = 0 after it exactly when every word was legal, and ILL = 1
means ERRCMD holds the first illegal one and CAUSE its cause (60_exceptions.md R214). -/
def Obligations.IllTellsWhetherASequenceWasLegal : Prop :=
  ∀ (s : State) (cmds : List Word), s.ill = false →
    ∃ t : State, runAccesses (cmds.map commandWrite) s = .next t ∧
      (t.ill = false ↔ ∀ c ∈ cmds, ∃ i : Instr, decode s.params.width c = .legal i) ∧
      (t.ill = true → ∃ (pre post : List Word) (c : Word) (cause : Cause), cmds = pre ++ c :: post ∧
        (∀ d ∈ pre, ∃ i : Instr, decode s.params.width d = .legal i) ∧
        decode s.params.width c = .illegal cause ∧ t.errcmd = c ∧ t.cause = causeCode cause)

/-- Every step keeps the invariant of Safety.lean: exactly W limbs in every register (10_state.md R21), BUF canonical, and
while the state is known CAUSE = 0 exactly when ILL = 0 and CAUSE ≤ 3 (R33), at most one of LT, EQ, GT (R28), and a record
that is of a command the block was given (R35). -/
def Obligations.StepKeepsTheInvariant : Prop :=
  ∀ s t : State, s.Inv → step s = .next t → t.Inv

/-- The invariant holds in the reset state of every part, and after the reset event in every state, which is then known
again (`known` is the model's own field, log 9). -/
def Obligations.ResetMeetsTheInvariant : Prop :=
  (∀ p : Params, (State.resetOf p).Inv) ∧
  ∀ (s : State) (rest : List Access), s.pending = .reset :: rest →
    ∃ t : State, step s = .next t ∧ t.Inv ∧ t.known = true

/-- The reset values of 10_state.md R38, on every part, and `State.reset` is the reset state of one of them. -/
def Obligations.ResetValuesAreTheSpecs : Prop :=
  (∀ p : Params,
    (∀ r : Reg, ((State.resetOf p).reg r).length = p.width.limbs ∧ ∀ i : Nat, limb ((State.resetOf p).reg r) i = 0#32) ∧
    (State.resetOf p).arg = 0#64 ∧ (State.resetOf p).res = 0#64 ∧ (State.resetOf p).blen = 0#32 ∧
    (∀ k : Nat, (State.resetOf p).readByte k = 0#8) ∧
    (State.resetOf p).lt = false ∧ (State.resetOf p).eq = false ∧ (State.resetOf p).gt = false ∧
    (State.resetOf p).ill = false ∧ (State.resetOf p).cause = 0#4 ∧ (State.resetOf p).errcmd = 0#32) ∧
  ∃ p : Params, State.reset = State.resetOf p

/-- The reset event, from every state (after a loss of power too), leaves every piece of state at its value of 10_state.md
R38, whatever it held (70_reset_and_hazards.md R240); ID reads as before, the part being the same. -/
def Obligations.ResetEventSetsEveryPieceOfState : Prop :=
  ∀ (s : State) (rest : List Access), s.pending = .reset :: rest →
    ∃ t : State, step s = .next t ∧ t.pending = rest ∧ t.params = s.params ∧
      (∀ r : Reg, (t.reg r).length = s.limbs ∧ ∀ i : Nat, limb (t.reg r) i = 0#32) ∧
      t.arg = 0#64 ∧ t.res = 0#64 ∧ t.blen = 0#32 ∧ (∀ k : Nat, t.readByte k = 0#8) ∧
      t.lt = false ∧ t.eq = false ∧ t.gt = false ∧ t.ill = false ∧ t.cause = 0#4 ∧ t.errcmd = 0#32 ∧
      readWindow t 0x000#9 = readWindow s 0x000#9

/-- "One hardware instance implements exactly one width" (00_scope.md R2): no step changes the parameters. -/
def Obligations.StepKeepsTheParameters : Prop :=
  ∀ s t : State, step s = .next t → t.params = s.params

/-- No step faults or refuses, in any state (60_exceptions.md R210, R213; 20_memory.md R55). -/
def Obligations.StepAlwaysAnswersNext : Prop := ∀ s : State, ∃ t : State, step s = .next t

/-- The model's record of illegal commands (its own field, log 8) only grows, through resets and loss of power too, and every
illegal command written to CMD goes into it (92_eei_decisions.md D24). -/
def Obligations.StepForgetsNoIllegalCommand : Prop :=
  (∀ s t : State, step s = .next t → s.illegalLog <:+ t.illegalLog) ∧
  ∀ (s : State) (off : BitVec 9) (c : Word) (rest : List Access) (cause : Cause),
    s.pending = .write off 0xF#4 c :: rest → off &&& 0x1FC#9 = 0x004#9 → decode s.params.width c = .illegal cause →
    ∃ t : State, step s = .next t ∧ t.illegalLog = ⟨cause, c⟩ :: s.illegalLog

/-- In a run in which no illegal command was issued and power was not lost, ILL is set at the end only if it was set at the
start (92_eei_decisions.md D24: claims take "no illegal command issued" as a premise). -/
def Obligations.LegalRunsNeverSetIll : Prop :=
  ∀ (k : Nat) (s t : State), Host.Core.run Sys2Proof.core k s = .next t → t.illegalLog = s.illegalLog →
    Access.powerLoss ∉ s.pending → t.ill = true → s.ill = true

/-- LT, EQ and GT change in no step but a CMD write of CMP or CMPEQ64, a reset, or a loss of power (10_state.md R28: "No
other command writes them. The host cannot write them"). -/
def Obligations.OrderFlagsChangeOnlyByCompares : Prop :=
  ∀ s t : State, step s = .next t → ¬SameFlags s t →
    ∃ (a : Access) (rest : List Access), s.pending = a :: rest ∧
      (a = .reset ∨ a = .powerLoss ∨
        ∃ (off : BitVec 9) (lanes : BitVec 4) (data : Word) (i : Instr), a = .write off lanes data ∧
          off &&& 0x1FC#9 = 0x004#9 ∧ decode s.params.width (busWord lanes data s.draws) = .legal i ∧
          ((∃ ra rb : Reg, i = .cmp ra rb) ∨ ∃ ra : Reg, i = .cmpeq64 ra))

/-- A value register changes in no step but a CMD write of a command that names it as a destination (RD, or RA of INC, DEC,
PINC, PDEC), a reset, or a loss of power (10_state.md R20: "The host cannot read or write a value register directly"). -/
def Obligations.ValueRegistersChangeOnlyByCommands : Prop :=
  ∀ (s t : State) (q : Reg), step s = .next t → t.reg q ≠ s.reg q →
    ∃ (a : Access) (rest : List Access), s.pending = a :: rest ∧
      (a = .reset ∨ a = .powerLoss ∨
        ∃ (off : BitVec 9) (lanes : BitVec 4) (data : Word) (i : Instr), a = .write off lanes data ∧
          off &&& 0x1FC#9 = 0x004#9 ∧ decode s.params.width (busWord lanes data s.draws) = .legal i ∧
          ((i.fields.rd = q ∧ i.op.format ∈ [Format.FD, .FDA, .FDAB, .FDAI]) ∨
            (i.fields.ra = q ∧ i.op ∈ [Op.inc, Op.dec, Op.pinc, Op.pdec])))

/-- Who writes what (the last column of the table of 10_state.md section 1): no command writes ARG, the parameters or the
host's side; only GET64 writes RES; only TOBYTES and TOHEX write BLEN and BUF. -/
def Obligations.CommandsWriteOnlyTheirState : Prop :=
  ∀ (i : Instr) (s t : State), exec i s = .next t →
    t.arg = s.arg ∧ SameOutside s t ∧ (i.op ≠ .get64 → t.res = s.res) ∧
    (i.op ≠ .tobytes → i.op ≠ .tohex → t.blen = s.blen ∧ t.buf = s.buf) ∧
    (i.op ≠ .cmp → i.op ≠ .cmpeq64 → SameFlags s t)

/-- Every legal command completes in every state, and records nothing (60_exceptions.md R210). -/
def Obligations.LegalCommandsCompleteAndRecordNothing : Prop :=
  ∀ (i : Instr) (s : State), WellFormed s.params.width i = true → ∃ t : State, exec i s = .next t ∧ SameRecord s t

/-- "no hidden or microarchitectural state that a program can observe" (10_state.md R30): what a command does to the block
depends on the block's own parts only, not on the host's list, the draws or the model's record. -/
def Obligations.CommandsSeeOnlyTheBlock : Prop :=
  ∀ (i : Instr) (s u : State), SameBlock s u →
    ∃ t v : State, exec i s = .next t ∧ exec i u = .next v ∧ SameBlock t v

/-! ## Construction -/

/-- 40_construction.md R100. -/
def Obligations.NopChangesNothing : Prop :=
  encode .nop = 0x00000000#32 ∧ (∀ s : State, exec .nop s = .next s) ∧
  ∀ (w : Width) (c : Word), c.toNat / 2 ^ 26 = 0 →
    decode w c = if c = 0x00000000#32 then .legal .nop else .illegal .reservedField

/-- 40_construction.md R101. -/
def Obligations.ClrSetsTheRegisterToZero : Prop :=
  encode (.clr .v3) = 0x05800000#32 ∧
  ∀ (rd : Reg) (s : State), HasWord (.clr rd) (wordOf 0x01 rd .v0 .v0 0) ∧
    ∃ t : State, exec (.clr rd) s = .next t ∧ OnlyRegs [rd] s t ∧
      (t.reg rd).length = s.limbs ∧ (∀ i : Nat, limb (t.reg rd) i = 0#32) ∧ valueNat (t.reg rd) = 0

/-- 40_construction.md R102; with RD = RA nothing changes. -/
def Obligations.MovCopiesTheRegister : Prop :=
  encode (.mov .v2 .v5) = 0x09500000#32 ∧
  ∀ (rd ra : Reg) (s : State), HasWord (.mov rd ra) (wordOf 0x02 rd ra .v0 0) ∧
    (∃ t : State, exec (.mov rd ra) s = .next t ∧ OnlyRegs [rd] s t ∧ t.reg rd = s.reg ra) ∧
    exec (.mov ra ra) s = .next s

/-- 40_construction.md R103. -/
def Obligations.Ldi64LoadsArg : Prop :=
  encode (.ldi64 .v1) = 0x0C800000#32 ∧
  ∀ (rd : Reg) (s : State), HasWord (.ldi64 rd) (wordOf 0x03 rd .v0 .v0 0) ∧
    ∃ t : State, exec (.ldi64 rd) s = .next t ∧ OnlyRegs [rd] s t ∧
      IsZext s.limbs (t.reg rd) s.arg ∧ valueNat (t.reg rd) = s.arg.toNat

/-! ## Complement, negation, addition, subtraction -/

/-- The carry chain (41_negate_addsub.md R112): a carry sequence from 0, exact in 64 bits and below 2^33, each limb its low
32 bits, the next carry its high 32 bits (0 or 1), and no other limb. -/
def Obligations.AddChainPropagatesTheCarry : Prop :=
  ∀ (n : Nat) (a b : Value), (addChain n a b).length = n ∧
    ∃ carry : Nat → BitVec 64, carry 0 = 0#64 ∧ ∀ i : Nat, i < n →
      ∃ acc : BitVec 64, acc = carry i + (limb a i).setWidth 64 + (limb b i).setWidth 64 ∧
        acc.toNat = (carry i).toNat + (limb a i).toNat + (limb b i).toNat ∧ acc.toNat < 2 ^ 33 ∧
        limb (addChain n a b) i = acc.extractLsb' 0 32 ∧
        carry (i + 1) = (acc.extractLsb' 32 32).setWidth 64 ∧ (carry (i + 1)).toNat ≤ 1

/-- NOT and NEG (41_negate_addsub.md R110, R111). -/
def Obligations.NotAndNegWriteTheirResults : Prop :=
  encode (.not .v2 .v1) = 0x11100000#32 ∧ encode (.neg .v3 .v1) = 0x15900000#32 ∧
  ∀ (rd ra : Reg) (s : State),
    HasWord (.not rd ra) (wordOf 0x04 rd ra .v0 0) ∧ HasWord (.neg rd ra) (wordOf 0x05 rd ra .v0 0) ∧
    (∃ t : State, exec (.not rd ra) s = .next t ∧ OnlyRegs [rd] s t ∧ IsNot s.limbs (t.reg rd) (s.reg ra)) ∧
    ∃ t : State, exec (.neg rd ra) s = .next t ∧ OnlyRegs [rd] s t ∧ IsNeg s.limbs (t.reg rd) (s.reg ra)

/-- ADD, SUB, ADD64, SUB64 over the chain of `AddChainPropagatesTheCarry` (41_negate_addsub.md R113 to R116): SUB adds the
negation, the 64-bit forms take zext_N(ARG). -/
def Obligations.AddAndSubWriteTheirResults : Prop :=
  encode (.add .v3 .v1 .v2) = 0x21940000#32 ∧ encode (.sub .v4 .v1 .v2) = 0x26140000#32 ∧
  encode (.add64 .v5 .v1) = 0x2A900000#32 ∧ encode (.sub64 .v6 .v1) = 0x2F100000#32 ∧
  ∀ (rd ra rb : Reg) (s : State),
    HasWord (.add rd ra rb) (wordOf 0x08 rd ra rb 0) ∧ HasWord (.sub rd ra rb) (wordOf 0x09 rd ra rb 0) ∧
    HasWord (.add64 rd ra) (wordOf 0x0A rd ra .v0 0) ∧ HasWord (.sub64 rd ra) (wordOf 0x0B rd ra .v0 0) ∧
    (∃ t : State, exec (.add rd ra rb) s = .next t ∧ OnlyRegs [rd] s t ∧
      t.reg rd = addChain s.limbs (s.reg ra) (s.reg rb)) ∧
    (∃ t : State, exec (.sub rd ra rb) s = .next t ∧ OnlyRegs [rd] s t ∧
      ∃ m : Value, IsNeg s.limbs m (s.reg rb) ∧ t.reg rd = addChain s.limbs (s.reg ra) m) ∧
    (∃ t : State, exec (.add64 rd ra) s = .next t ∧ OnlyRegs [rd] s t ∧
      ∃ z : Value, IsZext s.limbs z s.arg ∧ t.reg rd = addChain s.limbs (s.reg ra) z) ∧
    ∃ t : State, exec (.sub64 rd ra) s = .next t ∧ OnlyRegs [rd] s t ∧
      ∃ z m : Value, IsZext s.limbs z s.arg ∧ IsNeg s.limbs m z ∧ t.reg rd = addChain s.limbs (s.reg ra) m

/-- The integer arithmetic laws (41_negate_addsub.md R117): every result is the exact one modulo 2^N. -/
def Obligations.ArithmeticIsModulo2ToTheN : Prop :=
  ∀ (rd ra rb : Reg) (s : State), s.LimbsExact →
    (∃ t : State, exec (.add rd ra rb) s = .next t ∧
      valueNat (t.reg rd) = (valueNat (s.reg ra) + valueNat (s.reg rb)) % 2 ^ s.params.width.bits) ∧
    (∃ t : State, exec (.sub rd ra rb) s = .next t ∧ (valueNat (t.reg rd) : Int) =
      ((valueNat (s.reg ra) : Int) - (valueNat (s.reg rb) : Int)) % (2 ^ s.params.width.bits : Nat)) ∧
    (∃ t : State, exec (.add64 rd ra) s = .next t ∧
      valueNat (t.reg rd) = (valueNat (s.reg ra) + s.arg.toNat) % 2 ^ s.params.width.bits) ∧
    (∃ t : State, exec (.sub64 rd ra) s = .next t ∧ (valueNat (t.reg rd) : Int) =
      ((valueNat (s.reg ra) : Int) - (s.arg.toNat : Int)) % (2 ^ s.params.width.bits : Nat)) ∧
    (∃ t : State, exec (.neg rd ra) s = .next t ∧ (valueNat (t.reg rd) : Int) =
      (-(valueNat (s.reg ra) : Int)) % (2 ^ s.params.width.bits : Nat)) ∧
    ∃ t : State, exec (.not rd ra) s = .next t ∧
      valueNat (t.reg rd) = 2 ^ s.params.width.bits - 1 - valueNat (s.reg ra)

/-- The source's identities as two commands each (41_negate_addsub.md R117): `a + b - b == a`, in place too (rd = re = ra),
whenever the sum does not overwrite b; `a + (-a) == 0` whenever the negation does not overwrite a. -/
def Obligations.AddThenSubGivesTheOperandBack : Prop :=
  ∀ (ra rb rd re : Reg) (s : State), s.LimbsExact →
    (rd ≠ rb → ∃ t u : State, exec (.add rd ra rb) s = .next t ∧ exec (.sub re rd rb) t = .next u ∧
      u.reg re = s.reg ra) ∧
    (re ≠ ra → ∃ t u : State, exec (.neg re ra) s = .next t ∧ exec (.add rd ra re) t = .next u ∧ valueNat (u.reg rd) = 0)

/-! ## Increment and decrement -/

/-- The chains (42_incdec.md R130): limb i is changed exactly when every limb below it wrapped, and the chain is the exact
result modulo 2^N. -/
def Obligations.IncDecChainsCarryThroughWrappedLimbs : Prop :=
  ∀ (w : Width) (a : Value), a.length = w.limbs →
    (incChain a).length = w.limbs ∧ (decChain a).length = w.limbs ∧
    (∀ i : Nat, i < w.limbs →
      ((∀ j : Nat, j < i → limb a j = 0xFFFFFFFF#32) → limb (incChain a) i = limb a i + 1#32) ∧
      ((∃ j : Nat, j < i ∧ limb a j ≠ 0xFFFFFFFF#32) → limb (incChain a) i = limb a i) ∧
      ((∀ j : Nat, j < i → limb a j = 0#32) → limb (decChain a) i = limb a i - 1#32) ∧
      ((∃ j : Nat, j < i ∧ limb a j ≠ 0#32) → limb (decChain a) i = limb a i)) ∧
    valueNat (incChain a) = (valueNat a + 1) % 2 ^ w.bits ∧
    valueNat (decChain a) = (valueNat a + (2 ^ w.bits - 1)) % 2 ^ w.bits

/-- INC and DEC: the new value to V[RA] and V[RD] (42_incdec.md R131, R132). -/
def Obligations.IncAndDecWriteTheNewValueTwice : Prop :=
  encode (.inc .v1 .v1) = 0x30900000#32 ∧ encode (.dec .v2 .v2) = 0x35200000#32 ∧
  ∀ (rd ra : Reg) (s : State),
    HasWord (.inc rd ra) (wordOf 0x0C rd ra .v0 0) ∧ HasWord (.dec rd ra) (wordOf 0x0D rd ra .v0 0) ∧
    (∃ t : State, exec (.inc rd ra) s = .next t ∧ OnlyRegs [rd, ra] s t ∧
      t.reg ra = incChain (s.reg ra) ∧ t.reg rd = incChain (s.reg ra)) ∧
    ∃ t : State, exec (.dec rd ra) s = .next t ∧ OnlyRegs [rd, ra] s t ∧
      t.reg ra = decChain (s.reg ra) ∧ t.reg rd = decChain (s.reg ra)

/-- PINC and PDEC: the new value to V[RA], the old value to V[RD], written last, so that RD = RA keeps the old value
(42_incdec.md R133, R134). -/
def Obligations.PincAndPdecReturnTheOldValue : Prop :=
  encode (.pinc .v3 .v1) = 0x39900000#32 ∧ encode (.pdec .v4 .v2) = 0x3E200000#32 ∧
  ∀ (rd ra : Reg) (s : State),
    HasWord (.pinc rd ra) (wordOf 0x0E rd ra .v0 0) ∧ HasWord (.pdec rd ra) (wordOf 0x0F rd ra .v0 0) ∧
    (∃ t : State, exec (.pinc rd ra) s = .next t ∧ OnlyRegs [rd, ra] s t ∧ t.reg rd = s.reg ra ∧
      (rd ≠ ra → t.reg ra = incChain (s.reg ra))) ∧
    ∃ t : State, exec (.pdec rd ra) s = .next t ∧ OnlyRegs [rd, ra] s t ∧ t.reg rd = s.reg ra ∧
      (rd ≠ ra → t.reg ra = decChain (s.reg ra))

/-! ## Shifts -/

/-- Where each limb of a shift comes from (43_shift.md R140, R141, R142): the whole-limb shift, the sub-limb shift, and the
complementary part only when r ≠ 0. -/
def Obligations.ShifterPlacesTheLimbs : Prop :=
  ∀ (n amount : Nat) (a : Value),
    (shl n a amount).length = n ∧ (shr n a amount).length = n ∧
    ∀ j : Nat, j < n →
      limb (shl n a amount) j =
        ((if amount / 32 ≤ j then limb a (j - amount / 32) <<< (amount % 32) else 0#32) |||
         (if amount % 32 ≠ 0 ∧ amount / 32 + 1 ≤ j then limb a (j - amount / 32 - 1) >>> (32 - amount % 32) else 0#32)) ∧
      limb (shr n a amount) j =
        ((if j + amount / 32 < n then limb a (j + amount / 32) >>> (amount % 32) else 0#32) |||
         (if amount % 32 ≠ 0 ∧ j + amount / 32 + 1 < n then limb a (j + amount / 32 + 1) <<< (32 - amount % 32) else 0#32))

/-- SHL, SHR, SHLI, SHRI: the amount is ARG[31:0] or IMM, not reduced (43_shift.md R143 to R146). -/
def Obligations.ShiftCommandsWriteTheirResults : Prop :=
  encode (.shl .v2 .v1) = 0x41100000#32 ∧ encode (.shr .v3 .v1) = 0x45900000#32 ∧
  encode (.shli .v2 .v1 40#16) = 0x49100028#32 ∧ encode (.shri .v3 .v1 40#16) = 0x4D900028#32 ∧
  ∀ (rd ra : Reg) (imm : BitVec 16) (s : State),
    HasWord (.shl rd ra) (wordOf 0x10 rd ra .v0 0) ∧ HasWord (.shr rd ra) (wordOf 0x11 rd ra .v0 0) ∧
    HasWord (.shli rd ra imm) (wordOf 0x12 rd ra .v0 imm.toNat) ∧
    HasWord (.shri rd ra imm) (wordOf 0x13 rd ra .v0 imm.toNat) ∧
    (∃ t : State, exec (.shl rd ra) s = .next t ∧ OnlyRegs [rd] s t ∧
      t.reg rd = shl s.limbs (s.reg ra) (s.arg.toNat % 2 ^ 32)) ∧
    (∃ t : State, exec (.shr rd ra) s = .next t ∧ OnlyRegs [rd] s t ∧
      t.reg rd = shr s.limbs (s.reg ra) (s.arg.toNat % 2 ^ 32)) ∧
    (∃ t : State, exec (.shli rd ra imm) s = .next t ∧ OnlyRegs [rd] s t ∧
      t.reg rd = shl s.limbs (s.reg ra) imm.toNat) ∧
    ∃ t : State, exec (.shri rd ra imm) s = .next t ∧ OnlyRegs [rd] s t ∧
      t.reg rd = shr s.limbs (s.reg ra) imm.toNat

/-- The shifts are multiplication and division by 2^s: `shl(a, s) = (a · 2^s) mod 2^N`, `shr(a, s) = floor(a / 2^s)`
(43_shift.md R140, R141). -/
def Obligations.ShiftsMultiplyAndDivide : Prop :=
  ∀ (w : Width) (a : Value) (amount : Nat), a.length = w.limbs →
    valueNat (shl w.limbs a amount) = valueNat a * 2 ^ amount % 2 ^ w.bits ∧
    valueNat (shr w.limbs a amount) = valueNat a / 2 ^ amount

/-- The laws of the shifts (43_shift.md R147; for shr, which R147 does not name, they follow from R141): multiples of 32
move limbs, shifts compose, excessive amounts give zero. -/
def Obligations.ShiftLawsHold : Prop :=
  ∀ (w : Width) (a : Value) (m s1 s2 : Nat), a.length = w.limbs →
    (∀ j : Nat, j < w.limbs →
      limb (shl w.limbs a (32 * m)) j = (if m ≤ j then limb a (j - m) else 0#32) ∧
      limb (shr w.limbs a (32 * m)) j = (if j + m < w.limbs then limb a (j + m) else 0#32)) ∧
    shl w.limbs (shl w.limbs a s1) s2 = shl w.limbs a (s1 + s2) ∧
    shr w.limbs (shr w.limbs a s1) s2 = shr w.limbs a (s1 + s2) ∧
    (w.bits ≤ s1 → shl w.limbs a s1 = zeroValue w ∧ shr w.limbs a s1 = zeroValue w)

/-! ## Comparison -/

/-- CMP: the most significant limb that differs decides; exactly one flag is set (44_compare.md R160). -/
def Obligations.CmpSetsOneOrderFlag : Prop :=
  encode (.cmp .v1 .v2) = 0x50140000#32 ∧
  ∀ (ra rb : Reg) (s : State), HasWord (.cmp ra rb) (wordOf 0x14 .v0 ra rb 0) ∧
    ∃ t : State, exec (.cmp ra rb) s = .next t ∧ OnlyFlags s t ∧
      (t.lt = true ↔ ∃ i : Nat, i < s.limbs ∧ (limb (s.reg ra) i).toNat < (limb (s.reg rb) i).toNat ∧
        ∀ j : Nat, i < j → j < s.limbs → limb (s.reg ra) j = limb (s.reg rb) j) ∧
      (t.gt = true ↔ ∃ i : Nat, i < s.limbs ∧ (limb (s.reg rb) i).toNat < (limb (s.reg ra) i).toNat ∧
        ∀ j : Nat, i < j → j < s.limbs → limb (s.reg ra) j = limb (s.reg rb) j) ∧
      (t.eq = true ↔ ∀ j : Nat, j < s.limbs → limb (s.reg ra) j = limb (s.reg rb) j) ∧
      ((t.lt = true ∧ t.eq = false ∧ t.gt = false) ∨ (t.lt = false ∧ t.eq = true ∧ t.gt = false) ∨
        (t.lt = false ∧ t.eq = false ∧ t.gt = true))

/-- "The order CMP computes is the numeric order of the values" (44_compare.md R161). -/
def Obligations.CmpIsTheNumericOrder : Prop :=
  ∀ (ra rb : Reg) (s : State), s.LimbsExact →
    ∃ t : State, exec (.cmp ra rb) s = .next t ∧
      (t.lt = true ↔ valueNat (s.reg ra) < valueNat (s.reg rb)) ∧
      (t.eq = true ↔ valueNat (s.reg ra) = valueNat (s.reg rb)) ∧
      (t.gt = true ↔ valueNat (s.reg rb) < valueNat (s.reg ra))

/-- CMPEQ64 (44_compare.md R162). -/
def Obligations.Cmpeq64ComparesWithArg : Prop :=
  encode (.cmpeq64 .v1) = 0x54100000#32 ∧
  ∀ (ra : Reg) (s : State), HasWord (.cmpeq64 ra) (wordOf 0x15 .v0 ra .v0 0) ∧
    ∃ t : State, exec (.cmpeq64 ra) s = .next t ∧ OnlyFlags s t ∧ t.lt = false ∧ t.gt = false ∧
      (t.eq = true ↔ limb (s.reg ra) 0 = s.arg.extractLsb' 0 32 ∧ limb (s.reg ra) 1 = s.arg.extractLsb' 32 32 ∧
        ∀ i : Nat, 2 ≤ i → i < s.limbs → limb (s.reg ra) i = 0#32)

/-! ## Bitwise -/

/-- AND, OR, XOR limb by limb (45_bitwise.md R170, R171, R172). -/
def Obligations.BitwiseCommandsWorkLimbByLimb : Prop :=
  encode (.and .v3 .v1 .v2) = 0x61940000#32 ∧ encode (.or .v4 .v1 .v2) = 0x66140000#32 ∧
  encode (.xor .v5 .v1 .v2) = 0x6A940000#32 ∧
  ∀ (rd ra rb : Reg) (s : State),
    HasWord (.and rd ra rb) (wordOf 0x18 rd ra rb 0) ∧ HasWord (.or rd ra rb) (wordOf 0x19 rd ra rb 0) ∧
    HasWord (.xor rd ra rb) (wordOf 0x1A rd ra rb 0) ∧
    (∃ t : State, exec (.and rd ra rb) s = .next t ∧ OnlyRegs [rd] s t ∧ (t.reg rd).length = s.limbs ∧
      ∀ i : Nat, i < s.limbs → limb (t.reg rd) i = limb (s.reg ra) i &&& limb (s.reg rb) i) ∧
    (∃ t : State, exec (.or rd ra rb) s = .next t ∧ OnlyRegs [rd] s t ∧ (t.reg rd).length = s.limbs ∧
      ∀ i : Nat, i < s.limbs → limb (t.reg rd) i = limb (s.reg ra) i ||| limb (s.reg rb) i) ∧
    ∃ t : State, exec (.xor rd ra rb) s = .next t ∧ OnlyRegs [rd] s t ∧ (t.reg rd).length = s.limbs ∧
      ∀ i : Nat, i < s.limbs → limb (t.reg rd) i = limb (s.reg ra) i ^^^ limb (s.reg rb) i

/-! ## Serializers -/

/-- TOBYTES: BUF[k] becomes x[8k+7:8k] for k below B, BLEN becomes B, the rest of BUF is unchanged (46_serdes.md R180). -/
def Obligations.TobytesWritesTheBinaryForm : Prop :=
  encode (.tobytes .v1) = 0x80100000#32 ∧
  ∀ (ra : Reg) (s : State), HasWord (.tobytes ra) (wordOf 0x20 .v0 ra .v0 0) ∧
    (s.LimbsExact → ∃ t : State, exec (.tobytes ra) s = .next t ∧ OnlyBufBelow s.params.width.bytes s t ∧
      t.blen.toNat = 4 * s.limbs ∧
      ∀ k : Nat, k < 4 * s.limbs → (t.readByte k).toNat = valueNat (s.reg ra) / 2 ^ (8 * k) % 256)

/-- FROMBYTES: the sum of BUF[k]·2^(8k) when BLEN = B, zero for every other BLEN; BUF bytes at B and above are never read
(46_serdes.md R183). -/
def Obligations.FrombytesReadsTheBinaryForm : Prop :=
  encode (.frombytes .v2) = 0x85000000#32 ∧
  ∀ (rd : Reg) (s : State), HasWord (.frombytes rd) (wordOf 0x21 rd .v0 .v0 0) ∧
    ∃ t : State, exec (.frombytes rd) s = .next t ∧ OnlyRegs [rd] s t ∧ (t.reg rd).length = s.limbs ∧
      (s.blen.toNat = 4 * s.limbs →
        valueNat (t.reg rd) = ∑ k ∈ Finset.range (4 * s.limbs), (s.readByte k).toNat * 2 ^ (8 * k)) ∧
      (s.blen.toNat ≠ 4 * s.limbs → valueNat (t.reg rd) = 0) ∧
      ∀ u : State, u.params = s.params → u.blen = s.blen →
        (∀ k : Nat, k < 4 * s.limbs → u.readByte k = s.readByte k) →
        ∃ v : State, exec (.frombytes rd) u = .next v ∧ v.reg rd = t.reg rd

/-- TOBYTES then FROMBYTES gives the value back (46_serdes.md R182), as two CMD writes. -/
def Obligations.BinaryFormRoundTrips : Prop :=
  ∀ (ra rd : Reg) (s : State), s.LimbsExact →
    ∃ t : State, runAccesses [commandWrite (encode (.tobytes ra)), commandWrite (encode (.frombytes rd))] s = .next t ∧
      t.reg rd = s.reg ra

/-- TOHEX: BUF[j] becomes the digit of x[4(H−1−j)+3 : 4(H−1−j)], BLEN becomes H, the rest of BUF is unchanged
(46_serdes.md R185; the character codes are R184's). -/
def Obligations.TohexWritesTheHexForm : Prop :=
  encode (.tohex .v1) = 0x88100000#32 ∧
  ∀ (ra : Reg) (s : State), HasWord (.tohex ra) (wordOf 0x22 .v0 ra .v0 0) ∧
    (s.LimbsExact → ∃ t : State, exec (.tohex ra) s = .next t ∧ OnlyBufBelow s.params.width.chars s t ∧
      t.blen.toNat = 8 * s.limbs ∧
      ∀ j : Nat, j < 8 * s.limbs →
        t.readByte j = hexAlphabet.getD (valueNat (s.reg ra) / 16 ^ (8 * s.limbs - 1 - j) % 16) 0#8)

/-- FROMHEX parses BUF[0..L−1], L = min(BLEN, 256), in the instance's mode (46_serdes.md R186). -/
def Obligations.FromhexParsesTheBuffer : Prop :=
  encode (.fromhex .v2) = 0x8D000000#32 ∧
  ∀ (rd : Reg) (s : State), HasWord (.fromhex rd) (wordOf 0x23 rd .v0 .v0 0) ∧
    ∃ (t : State) (text : List Byte), exec (.fromhex rd) s = .next t ∧ OnlyRegs [rd] s t ∧
      text.length = min s.blen.toNat 256 ∧ (∀ j : Nat, j < text.length → text.getD j 0#8 = s.readByte j) ∧
      t.reg rd = parseHex s.params.hexMode s.limbs text ∧ (t.reg rd).length = s.limbs

/-- Clean text (whitespace, at most one prefix, hex digits) parses to its number modulo 2^N, in both modes
(46_serdes.md R187, R188: any digit count, the excess high digits dropped). Which bytes are whitespace, marks and digits is
R184's list, the spec's own choice from general knowledge (92_eei_decisions.md D21). -/
def Obligations.CleanHexTextParsesToItsNumber : Prop :=
  ∀ (rd : Reg) (s : State) (ws mark ds : List Byte), HoldsText s (ws ++ mark ++ ds) →
    (∀ c ∈ ws, isSpace c = true) → mark ∈ hexMarks → (∀ d ∈ ds, isHexDigit d = true) →
    ∃ t : State, exec (.fromhex rd) s = .next t ∧ valueNat (t.reg rd) = hexNumber ds % 2 ^ s.params.width.bits

/-- A stray byte after the digits: STOP ends the run there (46_serdes.md R187), ZERO takes every byte to the end as a digit,
an unrecognized one as 0 (R188). The stray byte is no hex digit, and with no prefix before it, it neither completes one nor
continues the whitespace. The classes of bytes are R184's, the spec's own choice (92_eei_decisions.md D21). -/
def Obligations.StrayByteEndsTheRunOrCountsAsZero : Prop :=
  ∀ (rd : Reg) (s : State) (ws mark ds tail : List Byte) (c : Byte), HoldsText s (ws ++ mark ++ ds ++ c :: tail) →
    (∀ x ∈ ws, isSpace x = true) → mark ∈ hexMarks → (∀ d ∈ ds, isHexDigit d = true) → isHexDigit c = false →
    (mark = [] → ds = [] → isSpace c = false) → (mark = [] → ds = [0x30#8] → c ≠ 0x78#8 ∧ c ≠ 0x58#8) →
    ∃ t : State, exec (.fromhex rd) s = .next t ∧
      valueNat (t.reg rd) =
        (match s.params.hexMode with
          | .stop => hexNumber ds
          | .zero => hexNumber (ds ++ c :: tail)) % 2 ^ s.params.width.bits

/-- TOHEX then FROMHEX gives the value back, in both modes (46_serdes.md R189), as two CMD writes. -/
def Obligations.HexFormRoundTrips : Prop :=
  ∀ (ra rd : Reg) (s : State), s.LimbsExact →
    ∃ t : State, runAccesses [commandWrite (encode (.tohex ra)), commandWrite (encode (.fromhex rd))] s = .next t ∧
      t.reg rd = s.reg ra

/-- GET64: limbs 2n and 2n+1 into RES, 0 past the top limb (46_serdes.md R190). -/
def Obligations.Get64ReadsOneWordOfAValue : Prop :=
  encode (.get64 .v1 1#16) = 0x90100001#32 ∧
  ∀ (ra : Reg) (imm : BitVec 16) (s : State), HasWord (.get64 ra imm) (wordOf 0x24 .v0 ra .v0 imm.toNat) ∧
    ∃ t : State, exec (.get64 ra imm) s = .next t ∧
      SameRegsBut [] s t ∧ t.arg = s.arg ∧ t.blen = s.blen ∧ SameFlags s t ∧ SameRecord s t ∧ SameBytes s t ∧
      SameOutside s t ∧
      t.res.extractLsb' 0 32 = (if 2 * imm.toNat < s.limbs then limb (s.reg ra) (2 * imm.toNat) else 0#32) ∧
      t.res.extractLsb' 32 32 = (if 2 * imm.toNat + 1 < s.limbs then limb (s.reg ra) (2 * imm.toNat + 1) else 0#32)

/-! ## Narrowing -/

/-- TRIM (47_narrowing.md R200): on W = 16 the low 8 limbs are kept and the high 8 become 0; on another part its word is
illegal with cause UNSUPPORTED_WIDTH and V[RD] is unchanged. -/
def Obligations.TrimKeepsTheLow256Bits : Prop :=
  encode (.trim .v1 .v2) = 0xA0A00000#32 ∧
  ∀ (rd ra : Reg) (s : State), HasWord (.trim rd ra) (wordOf 0x28 rd ra .v0 0) ∧
    (s.params.width = .w16 → ∃ t : State, exec (.trim rd ra) s = .next t ∧ OnlyRegs [rd] s t ∧
      (t.reg rd).length = 16 ∧ (∀ i : Nat, i < 8 → limb (t.reg rd) i = limb (s.reg ra) i) ∧
      ∀ i : Nat, 8 ≤ i → limb (t.reg rd) i = 0#32) ∧
    (s.params.width ≠ .w16 → ∃ t : State,
      runAccesses [commandWrite (wordOf 0x28 rd ra .v0 0)] s = .next t ∧ SameRegsBut [] s t ∧ t.ill = true ∧
        (s.ill = false → t.cause = 2#4 ∧ t.errcmd = wordOf 0x28 rd ra .v0 0))

/-- A 256-bit value goes from a W = 16 part to a W = 8 part through the host (47_narrowing.md R201): TRIM and TOBYTES there,
the copy of BUF[0..31], BLEN = 32 and FROMBYTES here; the value is the low 256 bits. -/
def Obligations.TrimmedValueReachesAW8Part : Prop :=
  ∀ (s u : State) (rd ra re : Reg), s.params.width = .w16 → u.params.width = .w8 → s.LimbsExact →
    ∃ t v : State,
      runAccesses [commandWrite (encode (.trim rd ra)), commandWrite (encode (.tobytes rd))] s = .next t ∧
      runAccesses (copyToW8 t re) u = .next v ∧ valueNat (v.reg re) = valueNat (s.reg ra) % 2 ^ 256

/-! ## The host window -/

/-- What a host read returns at every offset, with no side effect (10_state.md R31 to R37, 20_memory.md R51, R52, R56). -/
def Obligations.HostReadReturnsTheRegister : Prop :=
  ∀ (s : State) (off : BitVec 9) (rest : List Access), s.pending = .read off :: rest →
    ∃ (w : Word) (a : Nat), a = (off &&& 0x1FC#9).toNat ∧
      step s = .next { s with pending := rest, response := .data w } ∧
      (a = 0x000 → (s.params.width = .w5 → w = 0xBF0C0105#32) ∧ (s.params.width = .w8 → w = 0xBF0C0108#32) ∧
        (s.params.width = .w16 → w = 0xBF0C0110#32)) ∧
      (a = 0x004 → w = 0#32) ∧
      (a = 0x008 → w.getLsbD 0 = s.lt ∧ w.getLsbD 1 = s.eq ∧ w.getLsbD 2 = s.gt ∧ w.getLsbD 3 = s.ill ∧
        w.extractLsb' 4 4 = s.cause ∧ w.extractLsb' 8 24 = 0#24) ∧
      (a = 0x00C → w = s.errcmd) ∧
      (a = 0x010 → w.toNat = s.arg.toNat % 2 ^ 32) ∧ (a = 0x014 → w.toNat = s.arg.toNat / 2 ^ 32) ∧
      (a = 0x018 → w.toNat = s.res.toNat % 2 ^ 32) ∧ (a = 0x01C → w.toNat = s.res.toNat / 2 ^ 32) ∧
      (a = 0x020 → w = s.blen) ∧
      (0x024 ≤ a → a ≤ 0x0FC → w = 0#32) ∧
      (0x100 ≤ a → ∀ b : Nat, b < 4 → w.extractLsb' (8 * b) 8 = s.readByte (a - 0x100 + b))

/-- A host write of STATUS: bit 3 clears ILL and CAUSE, every other bit is ignored (10_state.md R34); the host gets nothing
back (20_memory.md R64, log 6). -/
def Obligations.StatusWriteClearsOnlyIllAndCause : Prop :=
  ∀ (s : State) (off : BitVec 9) (w : Word) (rest : List Access), s.pending = .write off 0xF#4 w :: rest →
    off &&& 0x1FC#9 = 0x008#9 →
    (w.getLsbD 3 = true →
      step s = .next { s with pending := rest, response := .none, ill := false, cause := 0#4 }) ∧
    (w.getLsbD 3 = false → step s = .next { s with pending := rest, response := .none })

/-- BUF words pack four bytes little-endian, both ways, and a write touches no other byte (20_memory.md R52), at every offset
that addresses word j, its low two bits ignored (R51); the host gets nothing back from the write (R64, log 6). -/
def Obligations.BufWordsArePackedLittleEndian : Prop :=
  ∀ (s : State) (off : BitVec 9) (j : Nat) (w : Word) (rest : List Access), s.pending = .write off 0xF#4 w :: rest →
    (off &&& 0x1FC#9).toNat = 0x100 + 4 * j →
    ∃ t : State, step s = .next t ∧
      (∀ b : Nat, b < 4 → t.readByte (4 * j + b) = w.extractLsb' (8 * b) 8) ∧
      (∀ a : Nat, a < 4 * j ∨ 4 * j + 4 ≤ a → t.readByte a = s.readByte a) ∧
      readWindow t off = w ∧
      (∀ b : Nat, b < 4 → (readWindow s off).extractLsb' (8 * b) 8 = s.readByte (4 * j + b)) ∧
      SameRegsBut [] s t ∧ SameScalars s t ∧ SameFlags s t ∧ SameRecord s t ∧ t.params = s.params ∧
      t.pending = rest ∧ t.response = .none

/-- ARG_LO, ARG_HI and BLEN store the word written; a write to a read-only or reserved offset is ignored
(10_state.md R24, R26, R31, R37). The host gets nothing back from a write that stores (20_memory.md R64), nor from an ignored
one, which is the model's choice (log 6). -/
def Obligations.HostWritesStoreOrAreIgnored : Prop :=
  ∀ (s : State) (off : BitVec 9) (w : Word) (rest : List Access) (a : Nat), s.pending = .write off 0xF#4 w :: rest →
    a = (off &&& 0x1FC#9).toNat →
    (a = 0x010 → step s = .next { s with pending := rest, response := .none, arg := s.arg.extractLsb' 32 32 ++ w }) ∧
    (a = 0x014 → step s = .next { s with pending := rest, response := .none, arg := w ++ s.arg.extractLsb' 0 32 }) ∧
    (a = 0x020 → step s = .next { s with pending := rest, response := .none, blen := w }) ∧
    ((a = 0x000 ∨ a = 0x00C ∨ a = 0x018 ∨ a = 0x01C ∨ (0x024 ≤ a ∧ a ≤ 0x0FC)) →
      step s = .next { s with pending := rest, response := .none })

/-- A narrow write does what the write of some whole word does that agrees with the host's data on the lanes the host drives
(20_memory.md R51: "the bytes of the bus data outside the host's own lanes are whatever the platform's bus carries there"). -/
def Obligations.NarrowWriteStoresAWholeBusWord : Prop :=
  ∀ (s : State) (off : BitVec 9) (lanes : BitVec 4) (data : Word) (rest : List Access),
    s.pending = .write off lanes data :: rest →
    ∃ (w : Word) (n : Nat), (∀ k : Nat, k < 4 → lanes.getLsbD k = true → w.extractLsb' (8 * k) 8 = data.extractLsb' (8 * k) 8) ∧
      s.draws ≤ n ∧ step s = step { s with pending := .write off 0xF#4 w :: rest, draws := n }

/-- The software reset sequence brings every piece of state except ERRCMD to its reset value, from any state
(70_reset_and_hazards.md R242). -/
def Obligations.SoftwareResetClearsAllButErrcmd : Prop :=
  ∀ s : State, ∃ t : State, runAccesses softwareReset s = .next t ∧
    (∀ r : Reg, t.reg r = zeroValue s.params.width) ∧ t.arg = 0#64 ∧ t.res = 0#64 ∧ t.blen = 0#32 ∧
    (∀ a : Nat, a < 256 → t.readByte a = 0#8) ∧ t.lt = false ∧ t.eq = false ∧ t.gt = false ∧
    t.ill = false ∧ t.cause = 0#4 ∧ t.errcmd = s.errcmd

/-! ## The host's notation -/

/-- The pseudo-instructions: their expansions (30_encoding.md R83) and what those writes then do. The immediate goes to ARG
(10_state.md R24; SHLX and SHRX leave ARG_HI as it was), then the command runs (R32); SETLEN stores in BLEN (R26), CLRILL
clears ILL and CAUSE (R34). The host's list and the response are the model's own fields (logs 4, 6; 20_memory.md R64). -/
def Obligations.PseudoInstructionsDoWhatTheyStandFor : Prop :=
  ∀ (s : State) (rd ra : Reg) (x : DWord) (m : Word),
    expandPseudo (.li rd x) = [writeWord 0x010#9 (x.extractLsb' 0 32), writeWord 0x014#9 (x.extractLsb' 32 32),
      commandWrite (encode (.ldi64 rd))] ∧
    expandPseudo (.addi rd ra x) = [writeWord 0x010#9 (x.extractLsb' 0 32), writeWord 0x014#9 (x.extractLsb' 32 32),
      commandWrite (encode (.add64 rd ra))] ∧
    expandPseudo (.subi rd ra x) = [writeWord 0x010#9 (x.extractLsb' 0 32), writeWord 0x014#9 (x.extractLsb' 32 32),
      commandWrite (encode (.sub64 rd ra))] ∧
    expandPseudo (.cmpeqi ra x) = [writeWord 0x010#9 (x.extractLsb' 0 32), writeWord 0x014#9 (x.extractLsb' 32 32),
      commandWrite (encode (.cmpeq64 ra))] ∧
    expandPseudo (.shlx rd ra m) = [writeWord 0x010#9 m, commandWrite (encode (.shl rd ra))] ∧
    expandPseudo (.shrx rd ra m) = [writeWord 0x010#9 m, commandWrite (encode (.shr rd ra))] ∧
    expandPseudo (.setlen m) = [writeWord 0x020#9 m] ∧ expandPseudo .clrill = [writeWord 0x008#9 0x00000008#32] ∧
    runAccesses (expandPseudo (.li rd x)) s =
      exec (.ldi64 rd) { s with arg := x, pending := [], response := .written } ∧
    runAccesses (expandPseudo (.addi rd ra x)) s =
      exec (.add64 rd ra) { s with arg := x, pending := [], response := .written } ∧
    runAccesses (expandPseudo (.subi rd ra x)) s =
      exec (.sub64 rd ra) { s with arg := x, pending := [], response := .written } ∧
    runAccesses (expandPseudo (.cmpeqi ra x)) s =
      exec (.cmpeq64 ra) { s with arg := x, pending := [], response := .written } ∧
    runAccesses (expandPseudo (.shlx rd ra m)) s =
      exec (.shl rd ra) { s with arg := s.arg.extractLsb' 32 32 ++ m, pending := [], response := .written } ∧
    runAccesses (expandPseudo (.shrx rd ra m)) s =
      exec (.shr rd ra) { s with arg := s.arg.extractLsb' 32 32 ++ m, pending := [], response := .written } ∧
    runAccesses (expandPseudo (.setlen m)) s = .next { s with blen := m, pending := [], response := .none } ∧
    runAccesses (expandPseudo .clrill) s =
      .next { s with ill := false, cause := 0#4, pending := [], response := .none }

/-- The assembler "never emits an illegal command" (30_encoding.md R82), on any part, for any line. -/
def Obligations.AssemblerEmitsOnlyLegalWords : Prop :=
  ∀ (w : Width) (line : List Char) (c : Word), assembleLine w line = some c →
    ∃ i : Instr, decode w c = .legal i ∧ encode i = c
end

