-- ==== Sys2Proof/Laws/State.lean ====
section
/-! SUPPORT. One lemma per field per update of State, and what the shared operations leave alone: no later proof unfolds a
record update. -/

namespace Sys2Proof.Machine

/-! ## The register file -/

@[simp] theorem RegFile.get_set_same (rf : RegFile) (r : Reg) (v : Value) : (rf.set r v).get r = v := by
  cases r <;> rfl

theorem RegFile.get_set_ne (rf : RegFile) (r q : Reg) (v : Value) (h : q ≠ r) : (rf.set r v).get q = rf.get q := by
  cases r <;> cases q <;> first | rfl | exact absurd rfl h

theorem RegFile.get_set (rf : RegFile) (r q : Reg) (v : Value) :
    (rf.set r v).get q = if q = r then v else rf.get q := by
  cases r <;> cases q <;> rfl

@[simp] theorem RegFile.get_ofFn (f : Reg → Value) (r : Reg) : (RegFile.ofFn f).get r = f r := by
  cases r <;> rfl

@[simp] theorem RegFile.get_zero (w : Width) (r : Reg) : (RegFile.zero w).get r = zeroValue w := by
  cases r <;> rfl

theorem RegFile.set_get_self (rf : RegFile) (r : Reg) : rf.set r (rf.get r) = rf := by
  cases r <;> rfl

/-! ## Fields after updates -/

@[simp] theorem State.setReg_params (s : State) (r : Reg) (v : Value) : (s.setReg r v).params = s.params := rfl
@[simp] theorem State.setReg_regs (s : State) (r : Reg) (v : Value) : (s.setReg r v).regs = s.regs.set r v := rfl
@[simp] theorem State.setReg_arg (s : State) (r : Reg) (v : Value) : (s.setReg r v).arg = s.arg := rfl
@[simp] theorem State.setReg_res (s : State) (r : Reg) (v : Value) : (s.setReg r v).res = s.res := rfl
@[simp] theorem State.setReg_blen (s : State) (r : Reg) (v : Value) : (s.setReg r v).blen = s.blen := rfl
@[simp] theorem State.setReg_buf (s : State) (r : Reg) (v : Value) : (s.setReg r v).buf = s.buf := rfl
@[simp] theorem State.setReg_lt (s : State) (r : Reg) (v : Value) : (s.setReg r v).lt = s.lt := rfl
@[simp] theorem State.setReg_eq (s : State) (r : Reg) (v : Value) : (s.setReg r v).eq = s.eq := rfl
@[simp] theorem State.setReg_gt (s : State) (r : Reg) (v : Value) : (s.setReg r v).gt = s.gt := rfl
@[simp] theorem State.setReg_ill (s : State) (r : Reg) (v : Value) : (s.setReg r v).ill = s.ill := rfl
@[simp] theorem State.setReg_cause (s : State) (r : Reg) (v : Value) : (s.setReg r v).cause = s.cause := rfl
@[simp] theorem State.setReg_errcmd (s : State) (r : Reg) (v : Value) : (s.setReg r v).errcmd = s.errcmd := rfl
@[simp] theorem State.setReg_pending (s : State) (r : Reg) (v : Value) : (s.setReg r v).pending = s.pending := rfl
@[simp] theorem State.setReg_response (s : State) (r : Reg) (v : Value) : (s.setReg r v).response = s.response := rfl
@[simp] theorem State.setReg_draws (s : State) (r : Reg) (v : Value) : (s.setReg r v).draws = s.draws := rfl
@[simp] theorem State.setReg_illegalLog (s : State) (r : Reg) (v : Value) : (s.setReg r v).illegalLog = s.illegalLog := rfl
@[simp] theorem State.setReg_known (s : State) (r : Reg) (v : Value) : (s.setReg r v).known = s.known := rfl

@[simp] theorem State.setArg_params (s : State) (v : DWord) : (s.setArg v).params = s.params := rfl
@[simp] theorem State.setArg_regs (s : State) (v : DWord) : (s.setArg v).regs = s.regs := rfl
@[simp] theorem State.setArg_arg (s : State) (v : DWord) : (s.setArg v).arg = v := rfl
@[simp] theorem State.setArg_res (s : State) (v : DWord) : (s.setArg v).res = s.res := rfl
@[simp] theorem State.setArg_blen (s : State) (v : DWord) : (s.setArg v).blen = s.blen := rfl
@[simp] theorem State.setArg_buf (s : State) (v : DWord) : (s.setArg v).buf = s.buf := rfl
@[simp] theorem State.setArg_lt (s : State) (v : DWord) : (s.setArg v).lt = s.lt := rfl
@[simp] theorem State.setArg_eq (s : State) (v : DWord) : (s.setArg v).eq = s.eq := rfl
@[simp] theorem State.setArg_gt (s : State) (v : DWord) : (s.setArg v).gt = s.gt := rfl
@[simp] theorem State.setArg_ill (s : State) (v : DWord) : (s.setArg v).ill = s.ill := rfl
@[simp] theorem State.setArg_cause (s : State) (v : DWord) : (s.setArg v).cause = s.cause := rfl
@[simp] theorem State.setArg_errcmd (s : State) (v : DWord) : (s.setArg v).errcmd = s.errcmd := rfl
@[simp] theorem State.setArg_pending (s : State) (v : DWord) : (s.setArg v).pending = s.pending := rfl
@[simp] theorem State.setArg_response (s : State) (v : DWord) : (s.setArg v).response = s.response := rfl
@[simp] theorem State.setArg_draws (s : State) (v : DWord) : (s.setArg v).draws = s.draws := rfl
@[simp] theorem State.setArg_illegalLog (s : State) (v : DWord) : (s.setArg v).illegalLog = s.illegalLog := rfl
@[simp] theorem State.setArg_known (s : State) (v : DWord) : (s.setArg v).known = s.known := rfl

@[simp] theorem State.setRes_params (s : State) (v : DWord) : (s.setRes v).params = s.params := rfl
@[simp] theorem State.setRes_regs (s : State) (v : DWord) : (s.setRes v).regs = s.regs := rfl
@[simp] theorem State.setRes_arg (s : State) (v : DWord) : (s.setRes v).arg = s.arg := rfl
@[simp] theorem State.setRes_res (s : State) (v : DWord) : (s.setRes v).res = v := rfl
@[simp] theorem State.setRes_blen (s : State) (v : DWord) : (s.setRes v).blen = s.blen := rfl
@[simp] theorem State.setRes_buf (s : State) (v : DWord) : (s.setRes v).buf = s.buf := rfl
@[simp] theorem State.setRes_lt (s : State) (v : DWord) : (s.setRes v).lt = s.lt := rfl
@[simp] theorem State.setRes_eq (s : State) (v : DWord) : (s.setRes v).eq = s.eq := rfl
@[simp] theorem State.setRes_gt (s : State) (v : DWord) : (s.setRes v).gt = s.gt := rfl
@[simp] theorem State.setRes_ill (s : State) (v : DWord) : (s.setRes v).ill = s.ill := rfl
@[simp] theorem State.setRes_cause (s : State) (v : DWord) : (s.setRes v).cause = s.cause := rfl
@[simp] theorem State.setRes_errcmd (s : State) (v : DWord) : (s.setRes v).errcmd = s.errcmd := rfl
@[simp] theorem State.setRes_pending (s : State) (v : DWord) : (s.setRes v).pending = s.pending := rfl
@[simp] theorem State.setRes_response (s : State) (v : DWord) : (s.setRes v).response = s.response := rfl
@[simp] theorem State.setRes_draws (s : State) (v : DWord) : (s.setRes v).draws = s.draws := rfl
@[simp] theorem State.setRes_illegalLog (s : State) (v : DWord) : (s.setRes v).illegalLog = s.illegalLog := rfl
@[simp] theorem State.setRes_known (s : State) (v : DWord) : (s.setRes v).known = s.known := rfl

@[simp] theorem State.setBlen_params (s : State) (v : Word) : (s.setBlen v).params = s.params := rfl
@[simp] theorem State.setBlen_regs (s : State) (v : Word) : (s.setBlen v).regs = s.regs := rfl
@[simp] theorem State.setBlen_arg (s : State) (v : Word) : (s.setBlen v).arg = s.arg := rfl
@[simp] theorem State.setBlen_res (s : State) (v : Word) : (s.setBlen v).res = s.res := rfl
@[simp] theorem State.setBlen_blen (s : State) (v : Word) : (s.setBlen v).blen = v := rfl
@[simp] theorem State.setBlen_buf (s : State) (v : Word) : (s.setBlen v).buf = s.buf := rfl
@[simp] theorem State.setBlen_lt (s : State) (v : Word) : (s.setBlen v).lt = s.lt := rfl
@[simp] theorem State.setBlen_eq (s : State) (v : Word) : (s.setBlen v).eq = s.eq := rfl
@[simp] theorem State.setBlen_gt (s : State) (v : Word) : (s.setBlen v).gt = s.gt := rfl
@[simp] theorem State.setBlen_ill (s : State) (v : Word) : (s.setBlen v).ill = s.ill := rfl
@[simp] theorem State.setBlen_cause (s : State) (v : Word) : (s.setBlen v).cause = s.cause := rfl
@[simp] theorem State.setBlen_errcmd (s : State) (v : Word) : (s.setBlen v).errcmd = s.errcmd := rfl
@[simp] theorem State.setBlen_pending (s : State) (v : Word) : (s.setBlen v).pending = s.pending := rfl
@[simp] theorem State.setBlen_response (s : State) (v : Word) : (s.setBlen v).response = s.response := rfl
@[simp] theorem State.setBlen_draws (s : State) (v : Word) : (s.setBlen v).draws = s.draws := rfl
@[simp] theorem State.setBlen_illegalLog (s : State) (v : Word) : (s.setBlen v).illegalLog = s.illegalLog := rfl
@[simp] theorem State.setBlen_known (s : State) (v : Word) : (s.setBlen v).known = s.known := rfl

@[simp] theorem State.setBuf_params (s : State) (m : Memory) : (s.setBuf m).params = s.params := rfl
@[simp] theorem State.setBuf_regs (s : State) (m : Memory) : (s.setBuf m).regs = s.regs := rfl
@[simp] theorem State.setBuf_arg (s : State) (m : Memory) : (s.setBuf m).arg = s.arg := rfl
@[simp] theorem State.setBuf_res (s : State) (m : Memory) : (s.setBuf m).res = s.res := rfl
@[simp] theorem State.setBuf_blen (s : State) (m : Memory) : (s.setBuf m).blen = s.blen := rfl
@[simp] theorem State.setBuf_buf (s : State) (m : Memory) : (s.setBuf m).buf = m := rfl
@[simp] theorem State.setBuf_lt (s : State) (m : Memory) : (s.setBuf m).lt = s.lt := rfl
@[simp] theorem State.setBuf_eq (s : State) (m : Memory) : (s.setBuf m).eq = s.eq := rfl
@[simp] theorem State.setBuf_gt (s : State) (m : Memory) : (s.setBuf m).gt = s.gt := rfl
@[simp] theorem State.setBuf_ill (s : State) (m : Memory) : (s.setBuf m).ill = s.ill := rfl
@[simp] theorem State.setBuf_cause (s : State) (m : Memory) : (s.setBuf m).cause = s.cause := rfl
@[simp] theorem State.setBuf_errcmd (s : State) (m : Memory) : (s.setBuf m).errcmd = s.errcmd := rfl
@[simp] theorem State.setBuf_pending (s : State) (m : Memory) : (s.setBuf m).pending = s.pending := rfl
@[simp] theorem State.setBuf_response (s : State) (m : Memory) : (s.setBuf m).response = s.response := rfl
@[simp] theorem State.setBuf_draws (s : State) (m : Memory) : (s.setBuf m).draws = s.draws := rfl
@[simp] theorem State.setBuf_illegalLog (s : State) (m : Memory) : (s.setBuf m).illegalLog = s.illegalLog := rfl
@[simp] theorem State.setBuf_known (s : State) (m : Memory) : (s.setBuf m).known = s.known := rfl

@[simp] theorem State.setOrder_params (s : State) (l e g : Bool) : (s.setOrder l e g).params = s.params := rfl
@[simp] theorem State.setOrder_regs (s : State) (l e g : Bool) : (s.setOrder l e g).regs = s.regs := rfl
@[simp] theorem State.setOrder_arg (s : State) (l e g : Bool) : (s.setOrder l e g).arg = s.arg := rfl
@[simp] theorem State.setOrder_res (s : State) (l e g : Bool) : (s.setOrder l e g).res = s.res := rfl
@[simp] theorem State.setOrder_blen (s : State) (l e g : Bool) : (s.setOrder l e g).blen = s.blen := rfl
@[simp] theorem State.setOrder_buf (s : State) (l e g : Bool) : (s.setOrder l e g).buf = s.buf := rfl
@[simp] theorem State.setOrder_lt (s : State) (l e g : Bool) : (s.setOrder l e g).lt = l := rfl
@[simp] theorem State.setOrder_eq (s : State) (l e g : Bool) : (s.setOrder l e g).eq = e := rfl
@[simp] theorem State.setOrder_gt (s : State) (l e g : Bool) : (s.setOrder l e g).gt = g := rfl
@[simp] theorem State.setOrder_ill (s : State) (l e g : Bool) : (s.setOrder l e g).ill = s.ill := rfl
@[simp] theorem State.setOrder_cause (s : State) (l e g : Bool) : (s.setOrder l e g).cause = s.cause := rfl
@[simp] theorem State.setOrder_errcmd (s : State) (l e g : Bool) : (s.setOrder l e g).errcmd = s.errcmd := rfl
@[simp] theorem State.setOrder_pending (s : State) (l e g : Bool) : (s.setOrder l e g).pending = s.pending := rfl
@[simp] theorem State.setOrder_response (s : State) (l e g : Bool) : (s.setOrder l e g).response = s.response := rfl
@[simp] theorem State.setOrder_draws (s : State) (l e g : Bool) : (s.setOrder l e g).draws = s.draws := rfl
@[simp] theorem State.setOrder_illegalLog (s : State) (l e g : Bool) : (s.setOrder l e g).illegalLog = s.illegalLog := rfl
@[simp] theorem State.setOrder_known (s : State) (l e g : Bool) : (s.setOrder l e g).known = s.known := rfl

@[simp] theorem State.setRecord_params (s : State) (i : Bool) (c : BitVec 4) (w : Word) : (s.setRecord i c w).params = s.params := rfl
@[simp] theorem State.setRecord_regs (s : State) (i : Bool) (c : BitVec 4) (w : Word) : (s.setRecord i c w).regs = s.regs := rfl
@[simp] theorem State.setRecord_arg (s : State) (i : Bool) (c : BitVec 4) (w : Word) : (s.setRecord i c w).arg = s.arg := rfl
@[simp] theorem State.setRecord_res (s : State) (i : Bool) (c : BitVec 4) (w : Word) : (s.setRecord i c w).res = s.res := rfl
@[simp] theorem State.setRecord_blen (s : State) (i : Bool) (c : BitVec 4) (w : Word) : (s.setRecord i c w).blen = s.blen := rfl
@[simp] theorem State.setRecord_buf (s : State) (i : Bool) (c : BitVec 4) (w : Word) : (s.setRecord i c w).buf = s.buf := rfl
@[simp] theorem State.setRecord_lt (s : State) (i : Bool) (c : BitVec 4) (w : Word) : (s.setRecord i c w).lt = s.lt := rfl
@[simp] theorem State.setRecord_eq (s : State) (i : Bool) (c : BitVec 4) (w : Word) : (s.setRecord i c w).eq = s.eq := rfl
@[simp] theorem State.setRecord_gt (s : State) (i : Bool) (c : BitVec 4) (w : Word) : (s.setRecord i c w).gt = s.gt := rfl
@[simp] theorem State.setRecord_ill (s : State) (i : Bool) (c : BitVec 4) (w : Word) : (s.setRecord i c w).ill = i := rfl
@[simp] theorem State.setRecord_cause (s : State) (i : Bool) (c : BitVec 4) (w : Word) : (s.setRecord i c w).cause = c := rfl
@[simp] theorem State.setRecord_errcmd (s : State) (i : Bool) (c : BitVec 4) (w : Word) : (s.setRecord i c w).errcmd = w := rfl
@[simp] theorem State.setRecord_pending (s : State) (i : Bool) (c : BitVec 4) (w : Word) : (s.setRecord i c w).pending = s.pending := rfl
@[simp] theorem State.setRecord_response (s : State) (i : Bool) (c : BitVec 4) (w : Word) : (s.setRecord i c w).response = s.response := rfl
@[simp] theorem State.setRecord_draws (s : State) (i : Bool) (c : BitVec 4) (w : Word) : (s.setRecord i c w).draws = s.draws := rfl
@[simp] theorem State.setRecord_illegalLog (s : State) (i : Bool) (c : BitVec 4) (w : Word) : (s.setRecord i c w).illegalLog = s.illegalLog := rfl
@[simp] theorem State.setRecord_known (s : State) (i : Bool) (c : BitVec 4) (w : Word) : (s.setRecord i c w).known = s.known := rfl

@[simp] theorem State.addIllegal_params (s : State) (x : IllegalRecord) : (s.addIllegal x).params = s.params := rfl
@[simp] theorem State.addIllegal_regs (s : State) (x : IllegalRecord) : (s.addIllegal x).regs = s.regs := rfl
@[simp] theorem State.addIllegal_arg (s : State) (x : IllegalRecord) : (s.addIllegal x).arg = s.arg := rfl
@[simp] theorem State.addIllegal_res (s : State) (x : IllegalRecord) : (s.addIllegal x).res = s.res := rfl
@[simp] theorem State.addIllegal_blen (s : State) (x : IllegalRecord) : (s.addIllegal x).blen = s.blen := rfl
@[simp] theorem State.addIllegal_buf (s : State) (x : IllegalRecord) : (s.addIllegal x).buf = s.buf := rfl
@[simp] theorem State.addIllegal_lt (s : State) (x : IllegalRecord) : (s.addIllegal x).lt = s.lt := rfl
@[simp] theorem State.addIllegal_eq (s : State) (x : IllegalRecord) : (s.addIllegal x).eq = s.eq := rfl
@[simp] theorem State.addIllegal_gt (s : State) (x : IllegalRecord) : (s.addIllegal x).gt = s.gt := rfl
@[simp] theorem State.addIllegal_ill (s : State) (x : IllegalRecord) : (s.addIllegal x).ill = s.ill := rfl
@[simp] theorem State.addIllegal_cause (s : State) (x : IllegalRecord) : (s.addIllegal x).cause = s.cause := rfl
@[simp] theorem State.addIllegal_errcmd (s : State) (x : IllegalRecord) : (s.addIllegal x).errcmd = s.errcmd := rfl
@[simp] theorem State.addIllegal_pending (s : State) (x : IllegalRecord) : (s.addIllegal x).pending = s.pending := rfl
@[simp] theorem State.addIllegal_response (s : State) (x : IllegalRecord) : (s.addIllegal x).response = s.response := rfl
@[simp] theorem State.addIllegal_draws (s : State) (x : IllegalRecord) : (s.addIllegal x).draws = s.draws := rfl
@[simp] theorem State.addIllegal_illegalLog (s : State) (x : IllegalRecord) : (s.addIllegal x).illegalLog = x :: s.illegalLog := rfl
@[simp] theorem State.addIllegal_known (s : State) (x : IllegalRecord) : (s.addIllegal x).known = s.known := rfl

@[simp] theorem State.setPending_params (s : State) (l : List Access) : (s.setPending l).params = s.params := rfl
@[simp] theorem State.setPending_regs (s : State) (l : List Access) : (s.setPending l).regs = s.regs := rfl
@[simp] theorem State.setPending_arg (s : State) (l : List Access) : (s.setPending l).arg = s.arg := rfl
@[simp] theorem State.setPending_res (s : State) (l : List Access) : (s.setPending l).res = s.res := rfl
@[simp] theorem State.setPending_blen (s : State) (l : List Access) : (s.setPending l).blen = s.blen := rfl
@[simp] theorem State.setPending_buf (s : State) (l : List Access) : (s.setPending l).buf = s.buf := rfl
@[simp] theorem State.setPending_lt (s : State) (l : List Access) : (s.setPending l).lt = s.lt := rfl
@[simp] theorem State.setPending_eq (s : State) (l : List Access) : (s.setPending l).eq = s.eq := rfl
@[simp] theorem State.setPending_gt (s : State) (l : List Access) : (s.setPending l).gt = s.gt := rfl
@[simp] theorem State.setPending_ill (s : State) (l : List Access) : (s.setPending l).ill = s.ill := rfl
@[simp] theorem State.setPending_cause (s : State) (l : List Access) : (s.setPending l).cause = s.cause := rfl
@[simp] theorem State.setPending_errcmd (s : State) (l : List Access) : (s.setPending l).errcmd = s.errcmd := rfl
@[simp] theorem State.setPending_pending (s : State) (l : List Access) : (s.setPending l).pending = l := rfl
@[simp] theorem State.setPending_response (s : State) (l : List Access) : (s.setPending l).response = s.response := rfl
@[simp] theorem State.setPending_draws (s : State) (l : List Access) : (s.setPending l).draws = s.draws := rfl
@[simp] theorem State.setPending_illegalLog (s : State) (l : List Access) : (s.setPending l).illegalLog = s.illegalLog := rfl
@[simp] theorem State.setPending_known (s : State) (l : List Access) : (s.setPending l).known = s.known := rfl

@[simp] theorem State.setResponse_params (s : State) (x : Response) : (s.setResponse x).params = s.params := rfl
@[simp] theorem State.setResponse_regs (s : State) (x : Response) : (s.setResponse x).regs = s.regs := rfl
@[simp] theorem State.setResponse_arg (s : State) (x : Response) : (s.setResponse x).arg = s.arg := rfl
@[simp] theorem State.setResponse_res (s : State) (x : Response) : (s.setResponse x).res = s.res := rfl
@[simp] theorem State.setResponse_blen (s : State) (x : Response) : (s.setResponse x).blen = s.blen := rfl
@[simp] theorem State.setResponse_buf (s : State) (x : Response) : (s.setResponse x).buf = s.buf := rfl
@[simp] theorem State.setResponse_lt (s : State) (x : Response) : (s.setResponse x).lt = s.lt := rfl
@[simp] theorem State.setResponse_eq (s : State) (x : Response) : (s.setResponse x).eq = s.eq := rfl
@[simp] theorem State.setResponse_gt (s : State) (x : Response) : (s.setResponse x).gt = s.gt := rfl
@[simp] theorem State.setResponse_ill (s : State) (x : Response) : (s.setResponse x).ill = s.ill := rfl
@[simp] theorem State.setResponse_cause (s : State) (x : Response) : (s.setResponse x).cause = s.cause := rfl
@[simp] theorem State.setResponse_errcmd (s : State) (x : Response) : (s.setResponse x).errcmd = s.errcmd := rfl
@[simp] theorem State.setResponse_pending (s : State) (x : Response) : (s.setResponse x).pending = s.pending := rfl
@[simp] theorem State.setResponse_response (s : State) (x : Response) : (s.setResponse x).response = x := rfl
@[simp] theorem State.setResponse_draws (s : State) (x : Response) : (s.setResponse x).draws = s.draws := rfl
@[simp] theorem State.setResponse_illegalLog (s : State) (x : Response) : (s.setResponse x).illegalLog = s.illegalLog := rfl
@[simp] theorem State.setResponse_known (s : State) (x : Response) : (s.setResponse x).known = s.known := rfl

@[simp] theorem State.setDraws_params (s : State) (n : Nat) : (s.setDraws n).params = s.params := rfl
@[simp] theorem State.setDraws_regs (s : State) (n : Nat) : (s.setDraws n).regs = s.regs := rfl
@[simp] theorem State.setDraws_arg (s : State) (n : Nat) : (s.setDraws n).arg = s.arg := rfl
@[simp] theorem State.setDraws_res (s : State) (n : Nat) : (s.setDraws n).res = s.res := rfl
@[simp] theorem State.setDraws_blen (s : State) (n : Nat) : (s.setDraws n).blen = s.blen := rfl
@[simp] theorem State.setDraws_buf (s : State) (n : Nat) : (s.setDraws n).buf = s.buf := rfl
@[simp] theorem State.setDraws_lt (s : State) (n : Nat) : (s.setDraws n).lt = s.lt := rfl
@[simp] theorem State.setDraws_eq (s : State) (n : Nat) : (s.setDraws n).eq = s.eq := rfl
@[simp] theorem State.setDraws_gt (s : State) (n : Nat) : (s.setDraws n).gt = s.gt := rfl
@[simp] theorem State.setDraws_ill (s : State) (n : Nat) : (s.setDraws n).ill = s.ill := rfl
@[simp] theorem State.setDraws_cause (s : State) (n : Nat) : (s.setDraws n).cause = s.cause := rfl
@[simp] theorem State.setDraws_errcmd (s : State) (n : Nat) : (s.setDraws n).errcmd = s.errcmd := rfl
@[simp] theorem State.setDraws_pending (s : State) (n : Nat) : (s.setDraws n).pending = s.pending := rfl
@[simp] theorem State.setDraws_response (s : State) (n : Nat) : (s.setDraws n).response = s.response := rfl
@[simp] theorem State.setDraws_draws (s : State) (n : Nat) : (s.setDraws n).draws = n := rfl
@[simp] theorem State.setDraws_illegalLog (s : State) (n : Nat) : (s.setDraws n).illegalLog = s.illegalLog := rfl
@[simp] theorem State.setDraws_known (s : State) (n : Nat) : (s.setDraws n).known = s.known := rfl

/-! ## Registers, limb count and BUF bytes after updates -/

@[simp] theorem State.setReg_limbs (s : State) (r : Reg) (v : Value) : (s.setReg r v).limbs = s.limbs := rfl
@[simp] theorem State.setReg_readByte (s : State) (r : Reg) (v : Value) (k : Nat) : (s.setReg r v).readByte k = s.readByte k := rfl
@[simp] theorem State.setArg_limbs (s : State) (v : DWord) : (s.setArg v).limbs = s.limbs := rfl
@[simp] theorem State.setArg_reg (s : State) (v : DWord) (q : Reg) : (s.setArg v).reg q = s.reg q := rfl
@[simp] theorem State.setArg_readByte (s : State) (v : DWord) (k : Nat) : (s.setArg v).readByte k = s.readByte k := rfl
@[simp] theorem State.setRes_limbs (s : State) (v : DWord) : (s.setRes v).limbs = s.limbs := rfl
@[simp] theorem State.setRes_reg (s : State) (v : DWord) (q : Reg) : (s.setRes v).reg q = s.reg q := rfl
@[simp] theorem State.setRes_readByte (s : State) (v : DWord) (k : Nat) : (s.setRes v).readByte k = s.readByte k := rfl
@[simp] theorem State.setBlen_limbs (s : State) (v : Word) : (s.setBlen v).limbs = s.limbs := rfl
@[simp] theorem State.setBlen_reg (s : State) (v : Word) (q : Reg) : (s.setBlen v).reg q = s.reg q := rfl
@[simp] theorem State.setBlen_readByte (s : State) (v : Word) (k : Nat) : (s.setBlen v).readByte k = s.readByte k := rfl
@[simp] theorem State.setBuf_limbs (s : State) (m : Memory) : (s.setBuf m).limbs = s.limbs := rfl
@[simp] theorem State.setBuf_reg (s : State) (m : Memory) (q : Reg) : (s.setBuf m).reg q = s.reg q := rfl
@[simp] theorem State.setOrder_limbs (s : State) (l e g : Bool) : (s.setOrder l e g).limbs = s.limbs := rfl
@[simp] theorem State.setOrder_reg (s : State) (l e g : Bool) (q : Reg) : (s.setOrder l e g).reg q = s.reg q := rfl
@[simp] theorem State.setOrder_readByte (s : State) (l e g : Bool) (k : Nat) : (s.setOrder l e g).readByte k = s.readByte k := rfl
@[simp] theorem State.setRecord_limbs (s : State) (i : Bool) (c : BitVec 4) (w : Word) : (s.setRecord i c w).limbs = s.limbs := rfl
@[simp] theorem State.setRecord_reg (s : State) (i : Bool) (c : BitVec 4) (w : Word) (q : Reg) : (s.setRecord i c w).reg q = s.reg q := rfl
@[simp] theorem State.setRecord_readByte (s : State) (i : Bool) (c : BitVec 4) (w : Word) (k : Nat) : (s.setRecord i c w).readByte k = s.readByte k := rfl
@[simp] theorem State.addIllegal_limbs (s : State) (x : IllegalRecord) : (s.addIllegal x).limbs = s.limbs := rfl
@[simp] theorem State.addIllegal_reg (s : State) (x : IllegalRecord) (q : Reg) : (s.addIllegal x).reg q = s.reg q := rfl
@[simp] theorem State.addIllegal_readByte (s : State) (x : IllegalRecord) (k : Nat) : (s.addIllegal x).readByte k = s.readByte k := rfl
@[simp] theorem State.setPending_limbs (s : State) (l : List Access) : (s.setPending l).limbs = s.limbs := rfl
@[simp] theorem State.setPending_reg (s : State) (l : List Access) (q : Reg) : (s.setPending l).reg q = s.reg q := rfl
@[simp] theorem State.setPending_readByte (s : State) (l : List Access) (k : Nat) : (s.setPending l).readByte k = s.readByte k := rfl
@[simp] theorem State.setResponse_limbs (s : State) (x : Response) : (s.setResponse x).limbs = s.limbs := rfl
@[simp] theorem State.setResponse_reg (s : State) (x : Response) (q : Reg) : (s.setResponse x).reg q = s.reg q := rfl
@[simp] theorem State.setResponse_readByte (s : State) (x : Response) (k : Nat) : (s.setResponse x).readByte k = s.readByte k := rfl
@[simp] theorem State.setDraws_limbs (s : State) (n : Nat) : (s.setDraws n).limbs = s.limbs := rfl
@[simp] theorem State.setDraws_reg (s : State) (n : Nat) (q : Reg) : (s.setDraws n).reg q = s.reg q := rfl
@[simp] theorem State.setDraws_readByte (s : State) (n : Nat) (k : Nat) : (s.setDraws n).readByte k = s.readByte k := rfl

@[simp] theorem State.setReg_reg_same (s : State) (r : Reg) (v : Value) : (s.setReg r v).reg r = v :=
  RegFile.get_set_same s.regs r v

theorem State.setReg_reg_ne (s : State) (r q : Reg) (v : Value) (h : q ≠ r) : (s.setReg r v).reg q = s.reg q :=
  RegFile.get_set_ne s.regs r q v h

theorem State.setReg_reg (s : State) (r q : Reg) (v : Value) :
    (s.setReg r v).reg q = if q = r then v else s.reg q :=
  RegFile.get_set s.regs r q v

@[simp] theorem State.setBuf_readByte (s : State) (m : Memory) (k : Nat) : (s.setBuf m).readByte k = m.read k := rfl

@[simp] theorem State.resetOf_reg (p : Params) (r : Reg) : (State.resetOf p).reg r = zeroValue p.width :=
  RegFile.get_zero p.width r

/-! ## What the shared operations leave alone -/

@[simp] theorem State.writeBytes_params (s : State) (a : Nat) (bs : List Byte) : (s.writeBytes a bs).params = s.params := rfl
@[simp] theorem State.writeBytes_regs (s : State) (a : Nat) (bs : List Byte) : (s.writeBytes a bs).regs = s.regs := rfl
@[simp] theorem State.writeBytes_arg (s : State) (a : Nat) (bs : List Byte) : (s.writeBytes a bs).arg = s.arg := rfl
@[simp] theorem State.writeBytes_res (s : State) (a : Nat) (bs : List Byte) : (s.writeBytes a bs).res = s.res := rfl
@[simp] theorem State.writeBytes_blen (s : State) (a : Nat) (bs : List Byte) : (s.writeBytes a bs).blen = s.blen := rfl
@[simp] theorem State.writeBytes_buf (s : State) (a : Nat) (bs : List Byte) : (s.writeBytes a bs).buf = s.buf.writeBytes a bs := rfl
@[simp] theorem State.writeBytes_lt (s : State) (a : Nat) (bs : List Byte) : (s.writeBytes a bs).lt = s.lt := rfl
@[simp] theorem State.writeBytes_eq (s : State) (a : Nat) (bs : List Byte) : (s.writeBytes a bs).eq = s.eq := rfl
@[simp] theorem State.writeBytes_gt (s : State) (a : Nat) (bs : List Byte) : (s.writeBytes a bs).gt = s.gt := rfl
@[simp] theorem State.writeBytes_ill (s : State) (a : Nat) (bs : List Byte) : (s.writeBytes a bs).ill = s.ill := rfl
@[simp] theorem State.writeBytes_cause (s : State) (a : Nat) (bs : List Byte) : (s.writeBytes a bs).cause = s.cause := rfl
@[simp] theorem State.writeBytes_errcmd (s : State) (a : Nat) (bs : List Byte) : (s.writeBytes a bs).errcmd = s.errcmd := rfl
@[simp] theorem State.writeBytes_pending (s : State) (a : Nat) (bs : List Byte) : (s.writeBytes a bs).pending = s.pending := rfl
@[simp] theorem State.writeBytes_response (s : State) (a : Nat) (bs : List Byte) : (s.writeBytes a bs).response = s.response := rfl
@[simp] theorem State.writeBytes_draws (s : State) (a : Nat) (bs : List Byte) : (s.writeBytes a bs).draws = s.draws := rfl
@[simp] theorem State.writeBytes_illegalLog (s : State) (a : Nat) (bs : List Byte) : (s.writeBytes a bs).illegalLog = s.illegalLog := rfl
@[simp] theorem State.writeBytes_known (s : State) (a : Nat) (bs : List Byte) : (s.writeBytes a bs).known = s.known := rfl
@[simp] theorem State.writeBytes_reg (s : State) (a : Nat) (bs : List Byte) (q : Reg) : (s.writeBytes a bs).reg q = s.reg q := rfl
@[simp] theorem State.writeBytes_limbs (s : State) (a : Nat) (bs : List Byte) : (s.writeBytes a bs).limbs = s.limbs := rfl
@[simp] theorem State.writeBytes_readByte (s : State) (a k : Nat) (bs : List Byte) :
    (s.writeBytes a bs).readByte k = (s.buf.writeBytes a bs).read k := rfl

@[simp] theorem setOrdering_params (o : Ordering) (s : State) : (setOrdering o s).params = s.params := by cases o <;> rfl
@[simp] theorem setOrdering_regs (o : Ordering) (s : State) : (setOrdering o s).regs = s.regs := by cases o <;> rfl
@[simp] theorem setOrdering_arg (o : Ordering) (s : State) : (setOrdering o s).arg = s.arg := by cases o <;> rfl
@[simp] theorem setOrdering_res (o : Ordering) (s : State) : (setOrdering o s).res = s.res := by cases o <;> rfl
@[simp] theorem setOrdering_blen (o : Ordering) (s : State) : (setOrdering o s).blen = s.blen := by cases o <;> rfl
@[simp] theorem setOrdering_buf (o : Ordering) (s : State) : (setOrdering o s).buf = s.buf := by cases o <;> rfl
@[simp] theorem setOrdering_ill (o : Ordering) (s : State) : (setOrdering o s).ill = s.ill := by cases o <;> rfl
@[simp] theorem setOrdering_cause (o : Ordering) (s : State) : (setOrdering o s).cause = s.cause := by cases o <;> rfl
@[simp] theorem setOrdering_errcmd (o : Ordering) (s : State) : (setOrdering o s).errcmd = s.errcmd := by cases o <;> rfl
@[simp] theorem setOrdering_pending (o : Ordering) (s : State) : (setOrdering o s).pending = s.pending := by cases o <;> rfl
@[simp] theorem setOrdering_response (o : Ordering) (s : State) : (setOrdering o s).response = s.response := by cases o <;> rfl
@[simp] theorem setOrdering_draws (o : Ordering) (s : State) : (setOrdering o s).draws = s.draws := by cases o <;> rfl
@[simp] theorem setOrdering_illegalLog (o : Ordering) (s : State) : (setOrdering o s).illegalLog = s.illegalLog := by cases o <;> rfl
@[simp] theorem setOrdering_known (o : Ordering) (s : State) : (setOrdering o s).known = s.known := by cases o <;> rfl
@[simp] theorem setOrdering_reg (o : Ordering) (s : State) (q : Reg) : (setOrdering o s).reg q = s.reg q := by cases o <;> rfl
@[simp] theorem setOrdering_readByte (o : Ordering) (s : State) (k : Nat) : (setOrdering o s).readByte k = s.readByte k := by cases o <;> rfl
@[simp] theorem setOrdering_lt (o : Ordering) (s : State) : (setOrdering o s).lt = (o == .lt) := by cases o <;> rfl
@[simp] theorem setOrdering_eq (o : Ordering) (s : State) : (setOrdering o s).eq = (o == .eq) := by cases o <;> rfl
@[simp] theorem setOrdering_gt (o : Ordering) (s : State) : (setOrdering o s).gt = (o == .gt) := by cases o <;> rfl

@[simp] theorem raiseIllegal_params (k : Cause) (c : Word) (s : State) : (raiseIllegal k c s).params = s.params := by unfold raiseIllegal; split <;> rfl
@[simp] theorem raiseIllegal_regs (k : Cause) (c : Word) (s : State) : (raiseIllegal k c s).regs = s.regs := by unfold raiseIllegal; split <;> rfl
@[simp] theorem raiseIllegal_arg (k : Cause) (c : Word) (s : State) : (raiseIllegal k c s).arg = s.arg := by unfold raiseIllegal; split <;> rfl
@[simp] theorem raiseIllegal_res (k : Cause) (c : Word) (s : State) : (raiseIllegal k c s).res = s.res := by unfold raiseIllegal; split <;> rfl
@[simp] theorem raiseIllegal_blen (k : Cause) (c : Word) (s : State) : (raiseIllegal k c s).blen = s.blen := by unfold raiseIllegal; split <;> rfl
@[simp] theorem raiseIllegal_buf (k : Cause) (c : Word) (s : State) : (raiseIllegal k c s).buf = s.buf := by unfold raiseIllegal; split <;> rfl
@[simp] theorem raiseIllegal_lt (k : Cause) (c : Word) (s : State) : (raiseIllegal k c s).lt = s.lt := by unfold raiseIllegal; split <;> rfl
@[simp] theorem raiseIllegal_eq (k : Cause) (c : Word) (s : State) : (raiseIllegal k c s).eq = s.eq := by unfold raiseIllegal; split <;> rfl
@[simp] theorem raiseIllegal_gt (k : Cause) (c : Word) (s : State) : (raiseIllegal k c s).gt = s.gt := by unfold raiseIllegal; split <;> rfl
@[simp] theorem raiseIllegal_pending (k : Cause) (c : Word) (s : State) : (raiseIllegal k c s).pending = s.pending := by unfold raiseIllegal; split <;> rfl
@[simp] theorem raiseIllegal_response (k : Cause) (c : Word) (s : State) : (raiseIllegal k c s).response = s.response := by unfold raiseIllegal; split <;> rfl
@[simp] theorem raiseIllegal_draws (k : Cause) (c : Word) (s : State) : (raiseIllegal k c s).draws = s.draws := by unfold raiseIllegal; split <;> rfl
@[simp] theorem raiseIllegal_known (k : Cause) (c : Word) (s : State) : (raiseIllegal k c s).known = s.known := by unfold raiseIllegal; split <;> rfl
@[simp] theorem raiseIllegal_reg (k : Cause) (c : Word) (s : State) (q : Reg) : (raiseIllegal k c s).reg q = s.reg q := by
  unfold raiseIllegal; split <;> rfl
@[simp] theorem raiseIllegal_readByte (k : Cause) (c : Word) (s : State) (a : Nat) : (raiseIllegal k c s).readByte a = s.readByte a := by
  unfold raiseIllegal; split <;> rfl
@[simp] theorem raiseIllegal_limbs (k : Cause) (c : Word) (s : State) : (raiseIllegal k c s).limbs = s.limbs := by
  unfold raiseIllegal; split <;> rfl
@[simp] theorem raiseIllegal_illegalLog (k : Cause) (c : Word) (s : State) : (raiseIllegal k c s).illegalLog = ⟨k, c⟩ :: s.illegalLog := by
  unfold raiseIllegal; split <;> rfl
@[simp] theorem raiseIllegal_ill (k : Cause) (c : Word) (s : State) : (raiseIllegal k c s).ill = true := by
  unfold raiseIllegal; split
  · assumption
  · rfl

/-- The record of an illegal command: written if ILL was 0 (60_exceptions.md R213). -/
theorem raiseIllegal_first (k : Cause) (c : Word) (s : State) (h : s.ill = false) :
    (raiseIllegal k c s).cause = causeCode k ∧ (raiseIllegal k c s).errcmd = c := by
  simp [raiseIllegal, h]

/-- The first record is kept (60_exceptions.md R213). -/
theorem raiseIllegal_kept (k : Cause) (c : Word) (s : State) (h : s.ill = true) :
    (raiseIllegal k c s).cause = s.cause ∧ (raiseIllegal k c s).errcmd = s.errcmd := by
  simp [raiseIllegal, h]

end Sys2Proof.Machine
end

