-- ==== Sys2Proof/Laws/Limbs.lean ====
section
/-! SUPPORT. Values as limbs, as numbers and as bits: what `fromLimbs`, `limb`, `byteOf`, `fromBytes` and `zext64` give. -/

namespace Sys2Proof.Machine

/-! ## Limbs -/

@[simp] theorem length_fromLimbs (n : Nat) (f : Nat → Limb) : (fromLimbs n f).length = n := by
  simp [fromLimbs]

theorem limb_fromLimbs (n i : Nat) (f : Nat → Limb) : limb (fromLimbs n f) i = if i < n then f i else 0#32 := by
  by_cases h : i < n <;> simp [limb, fromLimbs, List.getD_eq_getElem?_getD, h]

theorem limb_past (x : Value) (i : Nat) (h : x.length ≤ i) : limb x i = 0#32 := by
  simp [limb, List.getD_eq_getElem?_getD, List.getElem?_eq_none h]

@[simp] theorem limb_nil (i : Nat) : limb [] i = 0#32 := by simp [limb]

@[simp] theorem limb_cons_zero (l : Limb) (x : Value) : limb (l :: x) 0 = l := rfl

@[simp] theorem limb_cons_succ (l : Limb) (x : Value) (i : Nat) : limb (l :: x) (i + 1) = limb x i := rfl

/-- Values of one length with the same limbs are the same value. -/
theorem eq_of_limbs {x y : Value} (hl : x.length = y.length) (h : ∀ i, i < x.length → limb x i = limb y i) : x = y := by
  apply List.ext_getElem hl
  intro i h1 h2
  have := h i h1
  simpa [limb, List.getD_eq_getElem?_getD, h1, h2] using this

/-- A value of `n` limbs is made of its limbs. -/
theorem fromLimbs_limb (x : Value) (n : Nat) (h : x.length = n) : fromLimbs n (limb x) = x := by
  apply eq_of_limbs (by simp [h])
  intro i hi
  rw [length_fromLimbs] at hi
  rw [limb_fromLimbs, if_pos hi]

theorem fromLimbs_congr {n : Nat} {f g : Nat → Limb} (h : ∀ i, i < n → f i = g i) : fromLimbs n f = fromLimbs n g := by
  simp only [fromLimbs]
  apply List.map_congr_left
  intro i hi
  exact h i (List.mem_range.1 hi)

theorem length_setLimb (x : Value) (i : Nat) (v : Limb) : (setLimb x i v).length = x.length := by simp [setLimb]

theorem limb_setLimb (x : Value) (i j : Nat) (v : Limb) :
    limb (setLimb x i v) j = if i = j ∧ i < x.length then v else limb x j := by
  simp only [limb, setLimb, List.getD_eq_getElem?_getD, List.getElem?_set]
  by_cases h : i = j
  · subst h
    by_cases hi : i < x.length
    · simp [hi]
    · simp [hi]
  · simp [h]

@[simp] theorem length_zeroValue (w : Width) : (zeroValue w).length = w.limbs := by simp [zeroValue]

@[simp] theorem limb_zeroValue (w : Width) (i : Nat) : limb (zeroValue w) i = 0#32 := by
  by_cases h : i < w.limbs <;> simp [limb, zeroValue, List.getD_eq_getElem?_getD, h]

/-! ## Numbers -/

theorem fromLimbs_succ (n : Nat) (f : Nat → Limb) : fromLimbs (n + 1) f = f 0 :: fromLimbs n (fun i => f (i + 1)) := by
  simp only [fromLimbs, List.range_succ_eq_map, List.map_cons, List.map_map]
  rfl

theorem valueNat_cons (l : Limb) (x : Value) : valueNat (l :: x) = l.toNat + 2 ^ 32 * valueNat x := rfl

theorem valueNat_append (x y : Value) : valueNat (x ++ y) = valueNat x + 2 ^ (32 * x.length) * valueNat y := by
  induction x with
  | nil => simp [valueNat]
  | cons l rest ih =>
    rw [List.cons_append, valueNat_cons, ih, valueNat_cons, List.length_cons, Nat.mul_add 32, pow_add]
    ring

/-- The top limb apart. -/
theorem valueNat_fromLimbs_succ (n : Nat) (f : Nat → Limb) :
    valueNat (fromLimbs (n + 1) f) = valueNat (fromLimbs n f) + 2 ^ (32 * n) * (f n).toNat := by
  have h : fromLimbs (n + 1) f = fromLimbs n f ++ [f n] := by simp [fromLimbs, List.range_succ]
  rw [h, valueNat_append, length_fromLimbs]
  simp [valueNat]

/-- A value of n limbs is below 2^(32 n) (00_scope.md R9). -/
theorem valueNat_lt (x : Value) : valueNat x < 2 ^ (32 * x.length) := by
  induction x with
  | nil => simp [valueNat]
  | cons l rest ih =>
    have hl := l.isLt
    rw [valueNat_cons, List.length_cons, Nat.mul_add, pow_add]
    have : 2 ^ 32 * (valueNat rest + 1) ≤ 2 ^ 32 * 2 ^ (32 * rest.length) := Nat.mul_le_mul_left _ ih
    rw [mul_comm (2 ^ (32 * rest.length))]
    omega

/-- `limb(x, i) = floor(x / 2^(32·i)) mod 2^32` (00_scope.md R9). -/
theorem limb_toNat (x : Value) (i : Nat) : (limb x i).toNat = valueNat x / 2 ^ (32 * i) % 2 ^ 32 := by
  induction x generalizing i with
  | nil => simp [valueNat]
  | cons l rest ih =>
    have hl := l.isLt
    cases i with
    | zero => rw [limb_cons_zero, valueNat_cons]; simp; omega
    | succ i =>
      rw [limb_cons_succ, ih, valueNat_cons, Nat.mul_add, pow_add, mul_comm (2 ^ (32 * i)), ← Nat.div_div_eq_div_mul]
      congr 2
      omega

/-- Values of one length with the same number are the same value. -/
theorem eq_of_valueNat {x y : Value} (hl : x.length = y.length) (h : valueNat x = valueNat y) : x = y := by
  apply eq_of_limbs hl
  intro i _
  apply BitVec.eq_of_toNat_eq
  rw [limb_toNat, limb_toNat, h]

@[simp] theorem valueNat_zeroValue (w : Width) : valueNat (zeroValue w) = 0 := by
  have : ∀ n, valueNat (List.replicate n 0#32) = 0 := by
    intro n
    induction n with
    | zero => rfl
    | succ n ih => rw [List.replicate_succ, valueNat_cons, ih]; rfl
  exact this _

theorem eq_zeroValue {x : Value} {w : Width} (hl : x.length = w.limbs) (h : valueNat x = 0) : x = zeroValue w :=
  eq_of_valueNat (by simp [hl]) (by simp [h])

/-! ## Bits -/

/-- Bit p of a value is bit p mod 32 of limb p / 32. -/
theorem valueNat_testBit (x : Value) (p : Nat) : (valueNat x).testBit p = (limb x (p / 32)).getLsbD (p % 32) := by
  rw [← BitVec.testBit_toNat, limb_toNat, Nat.testBit_mod_two_pow, Nat.testBit_div_two_pow]
  have h1 : p % 32 < 32 := Nat.mod_lt _ (by norm_num)
  have h2 : 32 * (p / 32) + p % 32 = p := Nat.div_add_mod p 32
  simp [h1, h2, Nat.add_comm (p % 32)]

theorem limb_getLsbD (x : Value) (i q : Nat) (h : q < 32) : (limb x i).getLsbD q = (valueNat x).testBit (32 * i + q) := by
  rw [valueNat_testBit]
  congr 1
  · congr 1; omega
  · omega

/-! ## Bytes -/

/-- `byte(x, k) = floor(x / 2^(8·k)) mod 256` (00_scope.md R9). -/
theorem byteOf_toNat (x : Value) (k : Nat) : (byteOf x k).toNat = valueNat x / 2 ^ (8 * k) % 256 := by
  have h4 : k % 4 < 4 := Nat.mod_lt _ (by norm_num)
  have hk : 32 * (k / 4) + 8 * (k % 4) = 8 * k := by omega
  rw [byteOf, BitVec.extractLsb'_toNat, limb_toNat, Nat.shiftRight_eq_div_pow]
  have : valueNat x / 2 ^ (32 * (k / 4)) % 2 ^ 32 / 2 ^ (8 * (k % 4)) % 2 ^ 8 =
      valueNat x / 2 ^ (32 * (k / 4)) / 2 ^ (8 * (k % 4)) % 2 ^ 8 := by
    apply Nat.eq_of_testBit_eq
    intro i
    simp only [Nat.testBit_mod_two_pow, Nat.testBit_div_two_pow]
    by_cases hi : i < 8
    · have h32 : i + 8 * (k % 4) < 32 := by omega
      simp [h32]
    · simp [hi]
  rw [this, Nat.div_div_eq_div_mul, ← pow_add, hk]
  norm_num

theorem packWordLE_toNat (b0 b1 b2 b3 : Byte) :
    (packWordLE b0 b1 b2 b3).toNat = b0.toNat + 256 * b1.toNat + 65536 * b2.toNat + 16777216 * b3.toNat := by
  have h0 := b0.isLt
  have h1 := b1.isLt
  have h2 := b2.isLt
  have h3 := b3.isLt
  unfold packWordLE
  simp only [BitVec.toNat_append, Nat.shiftLeft_eq]
  have e : ∀ a b : Nat, b < 2 ^ 8 → a * 2 ^ 8 ||| b = a * 2 ^ 8 + b := fun a b h => by
    rw [mul_comm, ← Nat.two_pow_add_eq_or_of_lt h]
  rw [e _ _ h2, e _ _ h1, e _ _ h0]
  ring

/-- Byte `b` of the word of four bytes. -/
theorem extract_packWordLE (b0 b1 b2 b3 : Byte) (b : Nat) :
    (packWordLE b0 b1 b2 b3).extractLsb' (8 * b) 8 =
      if b = 0 then b0 else if b = 1 then b1 else if b = 2 then b2 else if b = 3 then b3 else 0#8 := by
  have h0 := b0.isLt
  have h1 := b1.isLt
  have h2 := b2.isLt
  have h3 := b3.isLt
  apply BitVec.eq_of_toNat_eq
  rw [BitVec.extractLsb'_toNat, packWordLE_toNat, Nat.shiftRight_eq_div_pow]
  rcases b with _ | _ | _ | _ | b
  · simp; omega
  · simp; omega
  · simp; omega
  · simp; omega
  · have hp : 2 ^ 32 ≤ 2 ^ (8 * (b + 1 + 1 + 1 + 1)) := Nat.pow_le_pow_right (by norm_num) (by omega)
    rw [Nat.div_eq_of_lt (by omega)]
    simp

/-- A word is the word of its own four bytes. -/
theorem packWordLE_extract (w : Word) :
    packWordLE (w.extractLsb' 0 8) (w.extractLsb' 8 8) (w.extractLsb' 16 8) (w.extractLsb' 24 8) = w := by
  apply BitVec.eq_of_toNat_eq
  have := w.isLt
  simp only [packWordLE_toNat, BitVec.extractLsb'_toNat, Nat.shiftRight_eq_div_pow]
  omega

@[simp] theorem length_fromBytes (n : Nat) (f : Nat → Byte) : (fromBytes n f).length = n := by simp [fromBytes]

/-- Byte k of the value made of bytes is byte k (20_memory.md R53). -/
theorem byteOf_fromBytes (n k : Nat) (f : Nat → Byte) (h : k < 4 * n) : byteOf (fromBytes n f) k = f k := by
  have hk : k / 4 < n := by omega
  rw [byteOf, fromBytes, limb_fromLimbs, if_pos hk, extract_packWordLE]
  have : k = 4 * (k / 4) + k % 4 := by omega
  have hm : k % 4 < 4 := Nat.mod_lt _ (by norm_num)
  split
  · congr 1; omega
  · split
    · congr 1; omega
    · split
      · congr 1; omega
      · split
        · congr 1; omega
        · omega

theorem fromBytes_congr {n : Nat} {f g : Nat → Byte} (h : ∀ k, k < 4 * n → f k = g k) : fromBytes n f = fromBytes n g := by
  apply fromLimbs_congr
  intro i hi
  rw [h _ (by omega), h _ (by omega), h _ (by omega), h _ (by omega)]

/-- A value of n limbs is made of its 4 n bytes. -/
theorem fromBytes_byteOf (x : Value) (n : Nat) (h : x.length = n) : fromBytes n (byteOf x) = x := by
  rw [← fromLimbs_limb x n h]
  apply fromLimbs_congr
  intro i hi
  rw [fromLimbs_limb x n h]
  have e0 : byteOf x (4 * i) = (limb x i).extractLsb' 0 8 := by simp [byteOf]
  have e1 : byteOf x (4 * i + 1) = (limb x i).extractLsb' 8 8 := by
    have h1 : (4 * i + 1) / 4 = i := by omega
    have h2 : (4 * i + 1) % 4 = 1 := by omega
    simp [byteOf, h1, h2]
  have e2 : byteOf x (4 * i + 2) = (limb x i).extractLsb' 16 8 := by
    have h1 : (4 * i + 2) / 4 = i := by omega
    have h2 : (4 * i + 2) % 4 = 2 := by omega
    simp [byteOf, h1, h2]
  have e3 : byteOf x (4 * i + 3) = (limb x i).extractLsb' 24 8 := by
    have h1 : (4 * i + 3) / 4 = i := by omega
    have h2 : (4 * i + 3) % 4 = 3 := by omega
    simp [byteOf, h1, h2]
  rw [e0, e1, e2, e3, packWordLE_extract]

/-- `MemRead(0, 4 n)`: "the sum of BUF[k] · 2^(8 k)" (00_scope.md R10). -/
theorem valueNat_fromBytes (n : Nat) (f : Nat → Byte) :
    valueNat (fromBytes n f) = ∑ k ∈ Finset.range (4 * n), (f k).toNat * 2 ^ (8 * k) := by
  induction n with
  | zero => simp [fromBytes, fromLimbs, valueNat]
  | succ n ih =>
    rw [fromBytes] at ih ⊢
    rw [valueNat_fromLimbs_succ, ih, packWordLE_toNat, show 4 * (n + 1) = 4 * n + 1 + 1 + 1 + 1 from by ring,
      Finset.sum_range_succ, Finset.sum_range_succ, Finset.sum_range_succ, Finset.sum_range_succ]
    have e : 32 * n = 8 * (4 * n) := by ring
    rw [e, show 8 * (4 * n + 1) = 8 * (4 * n) + 8 from by ring, show 8 * (4 * n + 1 + 1) = 8 * (4 * n) + 16 from by ring,
      show 8 * (4 * n + 1 + 1 + 1) = 8 * (4 * n) + 24 from by ring, pow_add, pow_add, pow_add]
    ring

/-! ## The 64-bit operand -/

@[simp] theorem length_zext64 (n : Nat) (a : DWord) : (zext64 n a).length = n := by simp [zext64]

theorem limb_zext64 (n i : Nat) (a : DWord) (h : 2 ≤ n) :
    limb (zext64 n a) i =
      if i = 0 then a.extractLsb' 0 32 else if i = 1 then a.extractLsb' 32 32 else 0#32 := by
  rw [zext64, limb_fromLimbs]
  by_cases hi : i < n
  · rw [if_pos hi]
  · have h0 : ¬i = 0 := by omega
    have h1 : ¬i = 1 := by omega
    simp [hi, h0, h1]

/-- "equals zext_N(ARG)" (40_construction.md R103). -/
theorem valueNat_zext64 (n : Nat) (a : DWord) (h : 2 ≤ n) : valueNat (zext64 n a) = a.toNat := by
  obtain ⟨m, rfl⟩ := Nat.exists_eq_add_of_le h
  have hz : ∀ k, valueNat (fromLimbs k fun _ => 0#32) = 0 := by
    intro k
    induction k with
    | zero => rfl
    | succ k ih => rw [valueNat_fromLimbs_succ, ih]; simp
  have ha := a.isLt
  rw [zext64, show 2 + m = m + 1 + 1 from by ring, fromLimbs_succ, fromLimbs_succ, valueNat_cons, valueNat_cons]
  simp [hz, BitVec.extractLsb'_toNat, Nat.shiftRight_eq_div_pow]
  omega

theorem two_le_limbs (w : Width) : 2 ≤ w.limbs := by cases w <;> decide

end Sys2Proof.Machine
end

