-- ==== Sys2Proof/Laws/Arith.lean ====
section
/-! SUPPORT. What the carry chain, the complement, the negation, the increment and decrement chains and the comparison scan
compute, as numbers: one lemma each. -/

namespace Sys2Proof.Machine

/-- The limbs i, i + 1, … (n of them) of a value. -/
def slice (x : Value) (i n : Nat) : Value := fromLimbs n fun j => limb x (i + j)

theorem slice_succ (x : Value) (i n : Nat) : slice x i (n + 1) = limb x i :: slice x (i + 1) n := by
  rw [slice, fromLimbs_succ]
  simp only [slice, Nat.add_zero]
  congr 1
  apply fromLimbs_congr
  intro j _
  congr 1
  omega

theorem slice_all (x : Value) (n : Nat) (h : x.length = n) : slice x 0 n = x := by
  rw [slice]
  simpa using fromLimbs_limb x n h

/-! ## The carry chain (41_negate_addsub.md R112) -/

@[simp] theorem length_addFrom (a b : Value) (c : BitVec 64) (i n : Nat) : (addFrom a b c i n).length = n := by
  induction n generalizing c i with
  | zero => rfl
  | succ n ih => simp [addFrom, ih]

@[simp] theorem length_addChain (n : Nat) (a b : Value) : (addChain n a b).length = n := length_addFrom a b _ _ n

/-- One accumulation is exact in 64 bits: "< 2^33, fits in 64 bits" (41_negate_addsub.md R112). -/
theorem acc_toNat (c : BitVec 64) (l m : Limb) (hc : c.toNat ≤ 1) :
    (c + l.setWidth 64 + m.setWidth 64).toNat = c.toNat + l.toNat + m.toNat := by
  have hl := l.isLt
  have hm := m.isLt
  simp only [BitVec.toNat_add, BitVec.toNat_setWidth]
  omega

/-- From a carry of at most 1 the chain adds the carry and the two slices modulo 2^(32 n). -/
theorem valueNat_addFrom (a b : Value) (c : BitVec 64) (i n : Nat) (hc : c.toNat ≤ 1) :
    valueNat (addFrom a b c i n) = (c.toNat + valueNat (slice a i n) + valueNat (slice b i n)) % 2 ^ (32 * n) := by
  induction n generalizing c i with
  | zero => simp [addFrom, valueNat, Nat.mod_one]
  | succ n ih =>
    have hl := (limb a i).isLt
    have hm := (limb b i).isLt
    have hacc := acc_toNat c (limb a i) (limb b i) hc
    generalize hA : c + (limb a i).setWidth 64 + (limb b i).setWidth 64 = acc at hacc
    have hcarry : ((acc.extractLsb' 32 32).setWidth 64).toNat = acc.toNat / 2 ^ 32 := by
      simp only [BitVec.toNat_setWidth, BitVec.extractLsb'_toNat, Nat.shiftRight_eq_div_pow]
      omega
    have hlow : (acc.extractLsb' 0 32).toNat = acc.toNat % 2 ^ 32 := by
      simp [BitVec.extractLsb'_toNat]
    have h1 : ((acc.extractLsb' 32 32).setWidth 64).toNat ≤ 1 := by rw [hcarry]; omega
    rw [addFrom]
    simp only [hA]
    rw [valueNat_cons, ih _ _ h1, hcarry, hlow, slice_succ, slice_succ, valueNat_cons, valueNat_cons,
      show 32 * (n + 1) = 32 + 32 * n from by ring, pow_add, Nat.mod_mul]
    have e : c.toNat + ((limb a i).toNat + 2 ^ 32 * valueNat (slice a (i + 1) n)) +
        ((limb b i).toNat + 2 ^ 32 * valueNat (slice b (i + 1) n)) =
        acc.toNat + 2 ^ 32 * (valueNat (slice a (i + 1) n) + valueNat (slice b (i + 1) n)) := by
      rw [hacc]; ring
    rw [e, Nat.add_mul_mod_self_left, Nat.add_mul_div_left _ _ (by norm_num : 0 < 2 ^ 32), Nat.add_assoc]

/-- `addChain(a, b) = (a + b) mod 2^N` (41_negate_addsub.md R112). -/
theorem valueNat_addChain (n : Nat) (a b : Value) (ha : a.length = n) (hb : b.length = n) :
    valueNat (addChain n a b) = (valueNat a + valueNat b) % 2 ^ (32 * n) := by
  rw [addChain, valueNat_addFrom a b 0#64 0 n (by simp), slice_all a n ha, slice_all b n hb]
  simp

/-! ## Complement and negation (41_negate_addsub.md R110, R111) -/

@[simp] theorem length_notValue (n : Nat) (a : Value) : (notValue n a).length = n := by simp [notValue]

@[simp] theorem length_oneValue (n : Nat) : (oneValue n).length = n := by simp [oneValue]

@[simp] theorem length_negValue (n : Nat) (a : Value) : (negValue n a).length = n := by simp [negValue]

/-- The complement and its value add up to all ones. -/
theorem valueNat_notValue (n : Nat) (a : Value) (h : a.length = n) :
    valueNat (notValue n a) + valueNat a = 2 ^ (32 * n) - 1 := by
  have key : ∀ m, valueNat (fromLimbs m fun i => limb a i ^^^ 0xFFFFFFFF#32) + valueNat (fromLimbs m (limb a)) =
      2 ^ (32 * m) - 1 := by
    intro m
    induction m with
    | zero => simp [fromLimbs, valueNat]
    | succ m ih =>
      have hx : (limb a m ^^^ 0xFFFFFFFF#32).toNat + (limb a m).toNat = 2 ^ 32 - 1 := by
        have e : limb a m ^^^ 0xFFFFFFFF#32 = ~~~(limb a m) := by
          rw [show (0xFFFFFFFF#32 : BitVec 32) = BitVec.allOnes 32 from by decide, BitVec.xor_allOnes]
        have hl := (limb a m).isLt
        rw [e, BitVec.toNat_not]
        omega
      rw [valueNat_fromLimbs_succ, valueNat_fromLimbs_succ]
      have hp : 0 < 2 ^ (32 * m) := by positivity
      have e : 2 ^ (32 * (m + 1)) = 2 ^ (32 * m) * 2 ^ 32 := by rw [Nat.mul_add, pow_add]
      have e2 : 2 ^ (32 * m) * (limb a m ^^^ 0xFFFFFFFF#32).toNat + 2 ^ (32 * m) * (limb a m).toNat =
          2 ^ (32 * m) * (2 ^ 32 - 1) := by rw [← Nat.mul_add, hx]
      rw [e]
      omega
  have := key n
  rwa [fromLimbs_limb a n h] at this

theorem valueNat_oneValue (n : Nat) (h : 1 ≤ n) : valueNat (oneValue n) = 1 := by
  obtain ⟨m, rfl⟩ := Nat.exists_eq_add_of_le h
  have hz : ∀ k, valueNat (fromLimbs k fun _ => 0#32) = 0 := by
    intro k
    induction k with
    | zero => rfl
    | succ k ih => rw [valueNat_fromLimbs_succ, ih]; simp
  rw [oneValue, Nat.add_comm, fromLimbs_succ, valueNat_cons]
  simp [hz]

/-- `NEG gives (2^N − a) mod 2^N` (41_negate_addsub.md R117). -/
theorem valueNat_negValue (n : Nat) (a : Value) (hn : 1 ≤ n) (h : a.length = n) :
    valueNat (negValue n a) = (2 ^ (32 * n) - valueNat a) % 2 ^ (32 * n) := by
  have h1 := valueNat_notValue n a h
  have h2 := valueNat_lt a
  rw [h] at h2
  rw [negValue, valueNat_addChain n _ _ (by simp) (by simp), valueNat_oneValue n hn]
  congr 1
  omega

/-! ## Increment and decrement (42_incdec.md R130) -/

@[simp] theorem length_incChain (a : Value) : (incChain a).length = a.length := by
  induction a with
  | nil => rfl
  | cons l rest ih => simp only [incChain]; split <;> simp [ih]

@[simp] theorem length_decChain (a : Value) : (decChain a).length = a.length := by
  induction a with
  | nil => rfl
  | cons l rest ih => simp only [decChain]; split <;> simp [ih]

/-- `incChain(a) = (a + 1) mod 2^N` (42_incdec.md R130). -/
theorem valueNat_incChain (a : Value) : valueNat (incChain a) = (valueNat a + 1) % 2 ^ (32 * a.length) := by
  induction a with
  | nil => simp [incChain, valueNat]
  | cons l rest ih =>
    have hl := l.isLt
    have hr := valueNat_lt rest
    have hw : (l + 1#32).toNat = (l.toNat + 1) % 2 ^ 32 := by simp [BitVec.toNat_add]
    have e : 2 ^ (32 * (l :: rest).length) = 2 ^ 32 * 2 ^ (32 * rest.length) := by
      rw [List.length_cons, Nat.mul_add, pow_add, mul_comm]
    simp only [incChain]
    split
    · next h =>
      have hne : (l + 1#32).toNat ≠ 0 := fun h0 => h (BitVec.eq_of_toNat_eq h0)
      rw [valueNat_cons, valueNat_cons, hw, e, Nat.mod_eq_of_lt (a := _ + _ + 1)]
      · omega
      · have : 2 ^ 32 * (valueNat rest + 1) ≤ 2 ^ 32 * 2 ^ (32 * rest.length) := Nat.mul_le_mul_left _ hr
        omega
    · next h =>
      have h0 : l + 1#32 = 0#32 := not_not.1 h
      have hn : l.toNat + 1 = 2 ^ 32 := by
        have := congrArg BitVec.toNat h0
        rw [hw] at this
        simp at this
        omega
      rw [valueNat_cons, valueNat_cons, ih, h0, e]
      have : l.toNat + 2 ^ 32 * valueNat rest + 1 = 2 ^ 32 * (valueNat rest + 1) := by omega
      rw [this, Nat.mul_mod_mul_left]
      simp

/-- `decChain(a) = (a − 1) mod 2^N` (42_incdec.md R130). -/
theorem valueNat_decChain (a : Value) :
    valueNat (decChain a) = (valueNat a + (2 ^ (32 * a.length) - 1)) % 2 ^ (32 * a.length) := by
  induction a with
  | nil => simp [decChain, valueNat]
  | cons l rest ih =>
    have hl := l.isLt
    have hr := valueNat_lt rest
    have hp : 0 < 2 ^ (32 * rest.length) := by positivity
    have e : 2 ^ (32 * (l :: rest).length) = 2 ^ 32 * 2 ^ (32 * rest.length) := by
      rw [List.length_cons, Nat.mul_add, pow_add, mul_comm]
    have hle : 2 ^ 32 * (valueNat rest + 1) ≤ 2 ^ 32 * 2 ^ (32 * rest.length) := Nat.mul_le_mul_left _ hr
    simp only [decChain]
    by_cases h0 : l = 0#32
    · subst h0
      rw [if_neg (by decide), valueNat_cons, valueNat_cons, ih, e]
      generalize 2 ^ (32 * rest.length) = M at *
      have hd : (0#32 - 1#32 : BitVec 32).toNat = 2 ^ 32 - 1 := by decide
      rw [hd]
      simp only [BitVec.toNat_ofNat, Nat.zero_mod, Nat.zero_add]
      have e2 : 2 ^ 32 * valueNat rest + (2 ^ 32 * M - 1) = (2 ^ 32 - 1) + 2 ^ 32 * (valueNat rest + (M - 1)) := by omega
      rw [e2, Nat.mod_mul, Nat.add_mul_mod_self_left, Nat.add_mul_div_left _ _ (by norm_num : 0 < 2 ^ 32)]
      norm_num
    · have hpos : 0 < l.toNat := by
        rcases Nat.eq_zero_or_pos l.toNat with h | h
        · exact absurd (BitVec.eq_of_toNat_eq (by simpa using h)) h0
        · exact h
      have hw : (l - 1#32).toNat = l.toNat - 1 := by
        rw [BitVec.toNat_sub]
        simp
        omega
      have hne : l - 1#32 ≠ 0xFFFFFFFF#32 := by
        intro h
        have := congrArg BitVec.toNat h
        rw [hw] at this
        simp at this
        omega
      rw [if_pos hne, valueNat_cons, valueNat_cons, hw, e]
      generalize 2 ^ (32 * rest.length) = M at *
      have e2 : l.toNat + 2 ^ 32 * valueNat rest + (2 ^ 32 * M - 1) =
          (l.toNat - 1 + 2 ^ 32 * valueNat rest) + 2 ^ 32 * M := by omega
      rw [e2, Nat.add_mod_right, Nat.mod_eq_of_lt (by omega)]

/-! ## Comparison (44_compare.md R160, R161) -/

/-- CMP's scan of the low n limbs is the order of the numbers they make. -/
theorem compareLimbs_eq (a b : Value) (n : Nat) :
    compareLimbs a b n = compare (valueNat (fromLimbs n (limb a))) (valueNat (fromLimbs n (limb b))) := by
  induction n with
  | zero => simp [compareLimbs, fromLimbs, valueNat]
  | succ n ih =>
    have ha := valueNat_lt (fromLimbs n (limb a))
    have hb := valueNat_lt (fromLimbs n (limb b))
    rw [length_fromLimbs] at ha hb
    rw [compareLimbs, ih, valueNat_fromLimbs_succ, valueNat_fromLimbs_succ]
    generalize valueNat (fromLimbs n (limb a)) = x at *
    generalize valueNat (fromLimbs n (limb b)) = y at *
    generalize 2 ^ (32 * n) = M at *
    split
    · next h =>
      have : M * ((limb a n).toNat + 1) ≤ M * (limb b n).toNat := Nat.mul_le_mul_left _ h
      rw [Nat.mul_add, Nat.mul_one] at this
      exact (Nat.compare_eq_lt.2 (by omega)).symm
    · split
      · next h =>
        have : M * ((limb b n).toNat + 1) ≤ M * (limb a n).toNat := Nat.mul_le_mul_left _ h
        rw [Nat.mul_add, Nat.mul_one] at this
        exact (Nat.compare_eq_gt.2 (by omega)).symm
      · have e : (limb a n).toNat = (limb b n).toNat := by omega
        rw [e]
        rcases Nat.lt_trichotomy x y with h | h | h
        · rw [Nat.compare_eq_lt.2 h, Nat.compare_eq_lt.2 (by omega)]
        · rw [Nat.compare_eq_eq.2 h, Nat.compare_eq_eq.2 (by omega)]
        · rw [Nat.compare_eq_gt.2 h, Nat.compare_eq_gt.2 (by omega)]

end Sys2Proof.Machine
end

