-- ==== Sys2Proof/Laws/Compare.lean ====
section
/-! SUPPORT. What the comparison scan and the STATUS word compute (44_compare.md R160, R161; 10_state.md R33). -/

namespace Sys2Proof.Machine

/-- The scan of the n low limbs is the order of the numbers they make (44_compare.md R161). -/
theorem compareLimbs_eq_compare (a b : Value) (n : Nat) :
    compareLimbs a b n = compare (valueNat a % 2 ^ (32 * n)) (valueNat b % 2 ^ (32 * n)) := by
  induction n with
  | zero => simp [compareLimbs, Nat.mod_one]
  | succ n ih =>
    have top : ∀ x : Value,
        valueNat x % 2 ^ (32 * (n + 1)) = valueNat x % 2 ^ (32 * n) + 2 ^ (32 * n) * (limb x n).toNat := by
      intro x
      rw [limb_toNat, Nat.mul_add, pow_add, Nat.mod_mul]
    rw [top, top, compareLimbs, ih]
    have p := Nat.mod_lt (valueNat a) (show 0 < 2 ^ (32 * n) by positivity)
    have q := Nat.mod_lt (valueNat b) (show 0 < 2 ^ (32 * n) by positivity)
    generalize valueNat a % 2 ^ (32 * n) = x at *
    generalize valueNat b % 2 ^ (32 * n) = y at *
    generalize 2 ^ (32 * n) = m at *
    generalize (limb a n).toNat = u at *
    generalize (limb b n).toNat = v at *
    have above : ∀ c d : Nat, c < d → m * c + m ≤ m * d := by
      intro c d h
      rw [← Nat.mul_succ]
      exact Nat.mul_le_mul_left m h
    split
    · next h =>
      have := above u v h
      exact (Nat.compare_eq_lt.2 (by omega)).symm
    · split
      · next h =>
        have := above v u h
        exact (Nat.compare_eq_gt.2 (by omega)).symm
      · obtain rfl : u = v := by omega
        rcases Nat.lt_trichotomy x y with h | h | h
        · rw [Nat.compare_eq_lt.2 h, Nat.compare_eq_lt.2 (by omega)]
        · rw [h, Nat.compare_eq_eq.2 rfl, Nat.compare_eq_eq.2 rfl]
        · rw [Nat.compare_eq_gt.2 h, Nat.compare_eq_gt.2 (by omega)]

/-- The STATUS word as a number: LT, EQ, GT, ILL, CAUSE from bit 0 up (10_state.md R33). -/
theorem statusWord_toNat (s : State) :
    (statusWord s).toNat = s.lt.toNat + 2 * s.eq.toNat + 4 * s.gt.toNat + 8 * s.ill.toNat + 16 * s.cause.toNat := by
  unfold statusWord
  generalize s.cause = c
  cases s.lt <;> cases s.eq <;> cases s.gt <;> cases s.ill <;> revert c <;> decide

end Sys2Proof.Machine
end

