-- ==== Sys2Proof/Laws/Decode.lean ====
section
/-! SUPPORT. The decoder's and encoder's tables and fields: round trips of the small parts, command words as numbers, and
must-be-zero masks as numbers. -/

namespace Sys2Proof

@[simp] theorem Reg.ofNum_num (r : Reg) : Reg.ofNum r.num = r := by cases r <;> rfl

@[simp] theorem Reg.num_ofNum (n : BitVec 3) : (Reg.ofNum n).num = n := by revert n; decide

@[simp] theorem Op.ofCode_code (o : Op) : Op.ofCode o.code = some o := by cases o <;> decide

/-- An opcode is found only under its own code. -/
theorem Op.code_of_ofCode {c : BitVec 6} {o : Op} (h : Op.ofCode c = some o) : o.code = c := by
  have := List.find?_some h
  simpa using this

@[simp] theorem Instr.build_op_fields (i : Instr) : i.op.build i.fields = i := by cases i <;> rfl

@[simp] theorem Op.op_build (o : Op) (f : Fields) : (o.build f).op = o := by cases o <;> rfl

/-! ## Command words as numbers -/

theorem or_shift_toNat {n : Nat} (a b : BitVec 32) (k : Nat) (x : BitVec n) (hk : n + k ≤ 32)
    (ha : 2 ^ (n + k) ∣ a.toNat) (hb : b.toNat < 2 ^ k) :
    (a ||| (x.setWidth 32 <<< k) ||| b).toNat = a.toNat + x.toNat * 2 ^ k + b.toNat := by
  have hx : (x.setWidth 32 <<< k).toNat = x.toNat * 2 ^ k := by
    have h1 : x.toNat < 2 ^ n := x.isLt
    have h2 : x.toNat * 2 ^ k < 2 ^ 32 :=
      calc x.toNat * 2 ^ k < 2 ^ n * 2 ^ k := Nat.mul_lt_mul_of_pos_right h1 (by positivity)
        _ = 2 ^ (n + k) := (pow_add 2 n k).symm
        _ ≤ 2 ^ 32 := Nat.pow_le_pow_right (by norm_num) hk
    have h3 : x.toNat < 2 ^ 32 := lt_of_lt_of_le h1 (Nat.pow_le_pow_right (by norm_num) (by omega))
    rw [BitVec.toNat_shiftLeft, BitVec.toNat_setWidth, Nat.mod_eq_of_lt h3, Nat.shiftLeft_eq, Nat.mod_eq_of_lt h2]
  have hxb : (x.setWidth 32 <<< k).toNat ||| b.toNat = x.toNat * 2 ^ k + b.toNat := by
    rw [hx, mul_comm, Nat.two_pow_add_eq_or_of_lt hb]
  have hlt : x.toNat * 2 ^ k + b.toNat < 2 ^ (n + k) := by
    have h1 : x.toNat + 1 ≤ 2 ^ n := x.isLt
    calc x.toNat * 2 ^ k + b.toNat < x.toNat * 2 ^ k + 2 ^ k := by omega
      _ = (x.toNat + 1) * 2 ^ k := by ring
      _ ≤ 2 ^ n * 2 ^ k := Nat.mul_le_mul_right _ h1
      _ = 2 ^ (n + k) := (pow_add 2 n k).symm
  obtain ⟨q, hq⟩ := ha
  rw [BitVec.toNat_or, BitVec.toNat_or, Nat.or_assoc, hxb, hq, ← Nat.two_pow_add_eq_or_of_lt hlt]
  ring

/-- The command word of 30_encoding.md R75 as a number: its fields do not overlap. -/
theorem packWord_toNat (o : Op) (f : Fields) :
    (packWord o f).toNat =
      o.code.toNat * 2 ^ 26 + f.rd.num.toNat * 2 ^ 23 + f.ra.num.toNat * 2 ^ 20 + f.rb.num.toNat * 2 ^ 17 +
        f.imm.toNat := by
  have hop := o.code.isLt
  have hrd := f.rd.num.isLt
  have hra := f.ra.num.isLt
  have hrb := f.rb.num.isLt
  have him := f.imm.isLt
  have himm : (f.imm.setWidth 32).toNat = f.imm.toNat := by
    rw [BitVec.toNat_setWidth]; exact Nat.mod_eq_of_lt (by omega)
  have h1 : (o.code.setWidth 32 <<< 26).toNat = o.code.toNat * 2 ^ 26 := by
    rw [BitVec.toNat_shiftLeft, BitVec.toNat_setWidth, Nat.shiftLeft_eq]; omega
  have h2 := or_shift_toNat (o.code.setWidth 32 <<< 26) 0#32 23 f.rd.num (by norm_num) (by rw [h1]; norm_num) (by simp)
  rw [BitVec.or_zero, h1] at h2
  have h3 := or_shift_toNat (o.code.setWidth 32 <<< 26 ||| f.rd.num.setWidth 32 <<< 23) 0#32 20 f.ra.num (by norm_num)
    (by rw [h2]; simp; omega) (by simp)
  rw [BitVec.or_zero, h2] at h3
  have h4 := or_shift_toNat
    (o.code.setWidth 32 <<< 26 ||| f.rd.num.setWidth 32 <<< 23 ||| f.ra.num.setWidth 32 <<< 20) (f.imm.setWidth 32) 17
    f.rb.num (by norm_num) (by rw [h3]; simp; omega) (by rw [himm]; omega)
  rw [h3, himm] at h4
  unfold packWord
  rw [h4]
  simp

@[simp] theorem opField_packWord (o : Op) (f : Fields) : opField (packWord o f) = o.code := by
  have h := packWord_toNat o f
  have hop := o.code.isLt
  have hrd := f.rd.num.isLt
  have hra := f.ra.num.isLt
  have hrb := f.rb.num.isLt
  have him := f.imm.isLt
  apply BitVec.eq_of_toNat_eq
  simp only [opField, BitVec.extractLsb'_toNat, Nat.shiftRight_eq_div_pow, h]
  omega

@[simp] theorem fieldsOf_packWord (o : Op) (f : Fields) : fieldsOf (packWord o f) = f := by
  have h := packWord_toNat o f
  have hop := o.code.isLt
  have hrd := f.rd.num.isLt
  have hra := f.ra.num.isLt
  have hrb := f.rb.num.isLt
  have him := f.imm.isLt
  have e1 : (packWord o f).extractLsb' 23 3 = f.rd.num := by
    apply BitVec.eq_of_toNat_eq
    simp only [BitVec.extractLsb'_toNat, Nat.shiftRight_eq_div_pow, h]
    omega
  have e2 : (packWord o f).extractLsb' 20 3 = f.ra.num := by
    apply BitVec.eq_of_toNat_eq
    simp only [BitVec.extractLsb'_toNat, Nat.shiftRight_eq_div_pow, h]
    omega
  have e3 : (packWord o f).extractLsb' 17 3 = f.rb.num := by
    apply BitVec.eq_of_toNat_eq
    simp only [BitVec.extractLsb'_toNat, Nat.shiftRight_eq_div_pow, h]
    omega
  have e4 : (packWord o f).extractLsb' 0 16 = f.imm := by
    apply BitVec.eq_of_toNat_eq
    simp only [BitVec.extractLsb'_toNat, Nat.shiftRight_eq_div_pow, h]
    omega
  simp [fieldsOf, e1, e2, e3, e4]

/-! ## Must-be-zero masks as numbers -/

/-- A mask of `n` ones from bit `k` up takes the bits `k` to `k + n - 1`. -/
theorem and_run_eq_zero_iff (c : Word) (k n : Nat) (m : Word) (hm : m.toNat = (2 ^ n - 1) * 2 ^ k) :
    c &&& m = 0#32 ↔ c.toNat / 2 ^ k % 2 ^ n = 0 := by
  have key : c.toNat &&& ((2 ^ n - 1) * 2 ^ k) = (c.toNat / 2 ^ k % 2 ^ n) * 2 ^ k := by
    apply Nat.eq_of_testBit_eq
    intro i
    by_cases hi : k ≤ i
    · by_cases hn : i - k < n
      · simp [Nat.testBit_and, Nat.testBit_mul_two_pow, Nat.testBit_two_pow_sub_one, hi, hn, Nat.testBit_div_two_pow]
      · simp [Nat.testBit_and, Nat.testBit_mul_two_pow, Nat.testBit_two_pow_sub_one, hi, hn]
    · simp [Nat.testBit_and, Nat.testBit_mul_two_pow, hi]
  constructor
  · intro h
    have h' := congrArg BitVec.toNat h
    rw [BitVec.toNat_and, hm, key] at h'
    simpa using h'
  · intro h
    apply BitVec.eq_of_toNat_eq
    rw [BitVec.toNat_and, hm, key, h]
    simp

theorem and_or_eq_zero_iff (c m1 m2 : Word) : c &&& (m1 ||| m2) = 0#32 ↔ c &&& m1 = 0#32 ∧ c &&& m2 = 0#32 := by
  rw [BitVec.and_or_distrib_left, BitVec.or_eq_zero_iff]

/-- The must-be-zero fields of each format, as parts of the word read as a number (30_encoding.md R72). -/
def Format.fieldsZero (fmt : Format) (x : Nat) : Prop :=
  match fmt with
  | .F0 => x % 2 ^ 26 = 0
  | .FD => x % 2 ^ 23 = 0
  | .FDA => x % 2 ^ 20 = 0
  | .FDAB => x % 2 ^ 17 = 0
  | .FDAI => x / 2 ^ 16 % 2 ^ 4 = 0
  | .FAB => x % 2 ^ 17 = 0 ∧ x / 2 ^ 23 % 2 ^ 3 = 0
  | .FA => x % 2 ^ 20 = 0 ∧ x / 2 ^ 23 % 2 ^ 3 = 0
  | .FAI => x / 2 ^ 16 % 2 ^ 4 = 0 ∧ x / 2 ^ 23 % 2 ^ 3 = 0

/-- The mask check of 30_encoding.md R80 is the check of the format's fields. -/
theorem zeroMask_check_iff (fmt : Format) (c : Word) : c &&& fmt.zeroMask = 0#32 ↔ fmt.fieldsZero c.toNat := by
  cases fmt
  · simpa [Format.zeroMask, Format.fieldsZero] using and_run_eq_zero_iff c 0 26 0x03FFFFFF#32 (by decide)
  · simpa [Format.zeroMask, Format.fieldsZero] using and_run_eq_zero_iff c 0 23 0x007FFFFF#32 (by decide)
  · simpa [Format.zeroMask, Format.fieldsZero] using and_run_eq_zero_iff c 0 20 0x000FFFFF#32 (by decide)
  · simpa [Format.zeroMask, Format.fieldsZero] using and_run_eq_zero_iff c 0 17 0x0001FFFF#32 (by decide)
  · simpa [Format.zeroMask, Format.fieldsZero] using and_run_eq_zero_iff c 16 4 0x000F0000#32 (by decide)
  · have h1 := and_run_eq_zero_iff c 0 17 0x0001FFFF#32 (by decide)
    have h2 := and_run_eq_zero_iff c 23 3 0x03800000#32 (by decide)
    rw [show Format.FAB.zeroMask = 0x0001FFFF#32 ||| 0x03800000#32 from by decide, and_or_eq_zero_iff, h1, h2]
    simp [Format.fieldsZero]
  · have h1 := and_run_eq_zero_iff c 0 20 0x000FFFFF#32 (by decide)
    have h2 := and_run_eq_zero_iff c 23 3 0x03800000#32 (by decide)
    rw [show Format.FA.zeroMask = 0x000FFFFF#32 ||| 0x03800000#32 from by decide, and_or_eq_zero_iff, h1, h2]
    simp [Format.fieldsZero]
  · have h1 := and_run_eq_zero_iff c 16 4 0x000F0000#32 (by decide)
    have h2 := and_run_eq_zero_iff c 23 3 0x03800000#32 (by decide)
    rw [show Format.FAI.zeroMask = 0x000F0000#32 ||| 0x03800000#32 from by decide, and_or_eq_zero_iff, h1, h2]
    simp [Format.fieldsZero]

/-- Everything `decode` can answer, once: the three causes in the order of 30_encoding.md R80, or the command. -/
theorem decode_cases (w : Width) (c : Word) :
    (Op.ofCode (opField c) = none ∧ decode w c = .illegal .reservedOpcode) ∨
    ∃ o : Op, o.code = opField c ∧
      ((o = .trim ∧ w ≠ .w16 ∧ decode w c = .illegal .unsupportedWidth) ∨
       (¬(o = .trim ∧ w ≠ .w16) ∧ ¬o.format.fieldsZero c.toNat ∧ decode w c = .illegal .reservedField) ∨
       (¬(o = .trim ∧ w ≠ .w16) ∧ o.format.fieldsZero c.toNat ∧ decode w c = .legal (o.build (fieldsOf c)))) := by
  cases h : Op.ofCode (opField c) with
  | none => exact .inl ⟨rfl, by simp [decode, h]⟩
  | some o =>
    refine .inr ⟨o, Op.code_of_ofCode h, ?_⟩
    by_cases ht : o = .trim ∧ w ≠ .w16
    · exact .inl ⟨ht.1, ht.2, by simp [decode, h, ht]⟩
    · by_cases hz : c &&& o.format.zeroMask = 0#32
      · exact .inr (.inr ⟨ht, (zeroMask_check_iff _ c).1 hz, by simp only [decode, h, if_neg ht, hz]; simp⟩)
      · exact .inr (.inl ⟨ht, fun hf => hz ((zeroMask_check_iff _ c).2 hf), by
          simp only [decode, h, if_neg ht]; simp [hz]⟩)

end Sys2Proof
end

