-- ==== Sys2Proof/Laws/Memory.lean ====
section
/-! SUPPORT. BUF: a byte read after a write, and the canonical form, which every memory operation keeps. -/

namespace Sys2Proof.Machine

/-! ## Reading after writing: true of every memory, canonical or not -/

@[simp] theorem Memory.read_nil (a : Nat) : Memory.read [] a = 0#8 := rfl

theorem Memory.read_erase (m : Memory) (a k : Nat) :
    (Memory.erase m a).read k = if k = a then 0#8 else Memory.read m k := by
  induction m with
  | nil => simp [Memory.erase]
  | cons c rest ih =>
    by_cases hc : c.1 = a
    · have he : Memory.erase (c :: rest) a = Memory.erase rest a := by simp [Memory.erase, hc]
      rw [he, ih]
      by_cases hk : k = a
      · rw [if_pos hk, if_pos hk]
      · have hck : ¬c.1 = k := fun h => hk (h.symm.trans hc)
        rw [if_neg hk, if_neg hk, Memory.read, if_neg hck]
    · have he : Memory.erase (c :: rest) a = c :: Memory.erase rest a := by simp [Memory.erase, hc]
      rw [he, Memory.read, ih, Memory.read]
      by_cases hk : c.1 = k
      · have hka : ¬k = a := fun h => hc (hk.trans h)
        rw [if_pos hk, if_neg hka, if_pos hk]
      · rw [if_neg hk, if_neg hk]

theorem Memory.read_insert_new (m : Memory) (c : Host.Cell) (k : Nat) (h : ∀ d ∈ m, d.1 ≠ c.1) :
    (Memory.insert m c).read k = if k = c.1 then c.2 else Memory.read m k := by
  induction m with
  | nil => simp [Memory.insert, Memory.read, eq_comm]
  | cons d rest ih =>
    have hd : d.1 ≠ c.1 := h d (by simp)
    have hr : ∀ e ∈ rest, e.1 ≠ c.1 := fun e he => h e (by simp [he])
    simp only [Memory.insert]
    split
    · simp only [Memory.read, eq_comm (a := c.1)]
    · simp only [Memory.read, ih hr]
      by_cases hk : d.1 = k
      · have : ¬ k = c.1 := fun e => hd (hk.trans e)
        simp [hk, this]
      · simp [hk]

theorem Memory.erase_no_entry (m : Memory) (a : Nat) : ∀ d ∈ Memory.erase m a, d.1 ≠ a := by
  intro d hd
  have := (List.mem_filter.1 hd).2
  simpa using this

/-- A byte read after a write: the byte written at its offset, every other byte as before. -/
theorem Memory.read_write (m : Memory) (a k : Nat) (b : Byte) :
    (Memory.write m a b).read k = if k = a then b else Memory.read m k := by
  unfold Memory.write
  by_cases hb : b = 0#8
  · rw [if_pos hb, Memory.read_erase, hb]
  · rw [if_neg hb, Memory.read_insert_new _ _ _ (Memory.erase_no_entry m a), Memory.read_erase]
    split <;> simp_all

/-- A byte read after a block write: inside the block the block's byte, outside it as before. -/
theorem Memory.read_writeBytes (bs : List Byte) (m : Memory) (a k : Nat) :
    (Memory.writeBytes m a bs).read k =
      if a ≤ k ∧ k < a + bs.length then bs.getD (k - a) 0#8 else Memory.read m k := by
  induction bs generalizing m a with
  | nil =>
    have : ¬(a ≤ k ∧ k < a) := by omega
    simp [Memory.writeBytes, this]
  | cons b rest ih =>
    rw [Memory.writeBytes, ih, Memory.read_write]
    by_cases h1 : k = a
    · subst h1
      simp
    · by_cases h2 : a + 1 ≤ k ∧ k < a + 1 + rest.length
      · have h3 : a ≤ k ∧ k < a + (b :: rest).length := by simp; omega
        have h4 : k - a = (k - (a + 1)) + 1 := by omega
        rw [if_pos h2, if_pos h3, h4, List.getD_cons_succ]
      · have h3 : ¬(a ≤ k ∧ k < a + (b :: rest).length) := by simp; omega
        rw [if_neg h2, if_neg h3, if_neg h1]

/-- The byte at offset `j` after the `n` bytes `f 0`, `f 1`, … were written from offset 0. -/
theorem Memory.read_writeRange (m : Memory) (n k : Nat) (f : Nat → Byte) :
    (Memory.writeBytes m 0 ((List.range n).map f)).read k = if k < n then f k else Memory.read m k := by
  rw [Memory.read_writeBytes]
  by_cases hk : k < n
  · simp [hk, List.getD_eq_getElem?_getD]
  · simp [hk]

/-! ## The canonical form -/

/-- The canonical form, as a proposition: offsets strictly rising, each below 256, no byte 0x00. -/
theorem Memory.wf_iff (m : Memory) :
    Memory.wf m = true ↔ List.Pairwise (fun c d => c.1 < d.1) m ∧ ∀ c ∈ m, c.1 < 256 ∧ c.2 ≠ 0#8 := by
  have rising : ∀ m : Memory, Memory.rising m = true ↔ List.Pairwise (fun c d : Host.Cell => c.1 < d.1) m := by
    intro m
    induction m with
    | nil => simp [Memory.rising]
    | cons c rest ih =>
      cases rest with
      | nil => simp [Memory.rising]
      | cons d rest' =>
        rw [Memory.rising, Bool.and_eq_true, ih, decide_eq_true_iff, List.pairwise_cons (a := c)]
        constructor
        · rintro ⟨h1, h2⟩
          refine ⟨?_, h2⟩
          intro e he
          rcases List.mem_cons.1 he with rfl | he
          · exact h1
          · exact lt_trans h1 ((List.pairwise_cons.1 h2).1 e he)
        · rintro ⟨h1, h2⟩
          exact ⟨h1 d (by simp), h2⟩
  simp [Memory.wf, rising]

@[simp] theorem Memory.wf_nil : Memory.wf [] = true := rfl

theorem Memory.wf_erase (m : Memory) (a : Nat) (h : Memory.wf m = true) : Memory.wf (Memory.erase m a) = true := by
  rw [Memory.wf_iff] at *
  exact ⟨h.1.filter _, fun c hc => h.2 c (List.mem_filter.1 hc).1⟩

theorem Memory.mem_insert (m : Memory) (c d : Host.Cell) : d ∈ Memory.insert m c ↔ d = c ∨ d ∈ m := by
  induction m with
  | nil => simp [Memory.insert]
  | cons e rest ih =>
    simp only [Memory.insert]
    split
    · simp
    · simp [ih]; tauto

theorem Memory.wf_insert (m : Memory) (c : Host.Cell) (h : Memory.wf m = true) (hc : c.1 < 256 ∧ c.2 ≠ 0#8)
    (hn : ∀ d ∈ m, d.1 ≠ c.1) : Memory.wf (Memory.insert m c) = true := by
  rw [Memory.wf_iff] at *
  constructor
  · induction m with
    | nil => simp [Memory.insert]
    | cons e rest ih =>
      have hp := List.pairwise_cons.1 h.1
      have hne := hn e (by simp)
      simp only [Memory.insert]
      split
      · next hlt =>
        refine List.pairwise_cons.2 ⟨?_, h.1⟩
        intro d hd
        rcases List.mem_cons.1 hd with rfl | hd
        · exact hlt
        · exact lt_trans hlt (hp.1 d hd)
      · next hge =>
        refine List.pairwise_cons.2 ⟨?_, ih ⟨hp.2, fun d hd => h.2 d (by simp [hd])⟩ (fun d hd => hn d (by simp [hd]))⟩
        intro d hd
        rcases (Memory.mem_insert rest c d).1 hd with rfl | hd
        · omega
        · exact hp.1 d hd
  · intro d hd
    rcases (Memory.mem_insert m c d).1 hd with rfl | hd
    · exact hc
    · exact h.2 d hd

/-- A write below 256 keeps the canonical form. -/
theorem Memory.wf_write (m : Memory) (a : Nat) (b : Byte) (h : Memory.wf m = true) (ha : a < 256) :
    Memory.wf (Memory.write m a b) = true := by
  unfold Memory.write
  split
  · exact Memory.wf_erase m a h
  · next hb => exact Memory.wf_insert _ _ (Memory.wf_erase m a h) ⟨ha, hb⟩ (Memory.erase_no_entry m a)

/-- A block write inside BUF keeps the canonical form. -/
theorem Memory.wf_writeBytes (bs : List Byte) (m : Memory) (a : Nat) (h : Memory.wf m = true) (ha : a + bs.length ≤ 256) :
    Memory.wf (Memory.writeBytes m a bs) = true := by
  induction bs generalizing m a with
  | nil => exact h
  | cons b rest ih =>
    simp only [List.length_cons] at ha
    exact ih (m.write a b) (a + 1) (Memory.wf_write m a b h (by omega)) (by omega)

/-- Canonical memories that read the same everywhere are equal. -/
theorem Memory.ext_of_wf (m1 m2 : Memory) (h1 : Memory.wf m1 = true) (h2 : Memory.wf m2 = true)
    (h : ∀ a, Memory.read m1 a = Memory.read m2 a) : m1 = m2 := by
  have mem_of_read : ∀ (m : Memory) (a : Nat), Memory.read m a ≠ 0#8 → (a, Memory.read m a) ∈ m := by
    intro m
    induction m with
    | nil => intro a ha; exact absurd rfl ha
    | cons c rest ih =>
      intro a ha
      simp only [Memory.read] at ha ⊢
      split at ha
      · next hc => subst hc; simp
      · next hc => simp [hc, ih a ha]
  have read_of_mem : ∀ (m : Memory) (c : Host.Cell), List.Pairwise (fun c d : Host.Cell => c.1 < d.1) m → c ∈ m →
      Memory.read m c.1 = c.2 := by
    intro m c hp hc
    induction m with
    | nil => cases hc
    | cons d rest ih =>
      have hp' := List.pairwise_cons.1 hp
      rcases List.mem_cons.1 hc with rfl | hc'
      · simp [Memory.read]
      · have := hp'.1 c hc'
        have hne : ¬ d.1 = c.1 := by omega
        simp [Memory.read, hne, ih hp'.2 hc']
  have hsub : ∀ n1 n2 : Memory, Memory.wf n1 = true → Memory.wf n2 = true →
      (∀ a, Memory.read n1 a = Memory.read n2 a) → ∀ c ∈ n1, c ∈ n2 := by
    intro n1 n2 k1 k2 k c hc
    rw [Memory.wf_iff] at k1 k2
    have hr := read_of_mem n1 c k1.1 hc
    have hz := (k1.2 c hc).2
    have := mem_of_read n2 c.1 (by rw [← k, hr]; exact hz)
    rwa [← k, hr] at this
  have e : ∀ c, c ∈ m1 ↔ c ∈ m2 := fun c => ⟨hsub m1 m2 h1 h2 h c, hsub m2 m1 h2 h1 (fun a => (h a).symm) c⟩
  rw [Memory.wf_iff] at h1 h2
  have nodup : ∀ m : Memory, List.Pairwise (fun c d : Host.Cell => c.1 < d.1) m → m.Nodup := by
    intro m hm
    exact hm.imp (fun {a b} hab heq => by subst heq; exact lt_irrefl _ hab)
  have hperm : m1.Perm m2 := (List.perm_ext_iff_of_nodup (nodup m1 h1.1) (nodup m2 h2.1)).2 e
  exact hperm.eq_of_pairwise (fun a b _ _ hab hba => absurd (lt_trans hab hba) (lt_irrefl _)) h1.1 h2.1

end Sys2Proof.Machine
end

