-- ==== Sys2Proof/Laws/Serdes.lean ====
section
/-! SUPPORT. The numbers behind the binary form, the hex form and the parser (46_serdes.md R180 to R190). -/

namespace Sys2Proof.Machine

/-! ## Bytes, least significant first -/

/-- The number a list of bytes stands for, byte 0 the least significant. -/
def bytesNat : List Byte → Nat
  | [] => 0
  | b :: rest => b.toNat + 256 * bytesNat rest

theorem sum_bytes (bs : List Byte) (n : Nat) (h : bs.length ≤ n) :
    ∑ k ∈ Finset.range n, (bs.getD k 0#8).toNat * 2 ^ (8 * k) = bytesNat bs := by
  induction bs generalizing n with
  | nil => simp [bytesNat]
  | cons b rest ih =>
    obtain ⟨m, rfl⟩ : ∃ m, n = m + 1 := ⟨n - 1, by simp at h; omega⟩
    rw [Finset.sum_range_succ', bytesNat, ← ih m (by simpa using h), Finset.mul_sum]
    simp only [List.getD_cons_succ, List.getD_cons_zero, Nat.mul_zero, pow_zero, Nat.mul_one]
    rw [Nat.add_comm]
    congr 1
    apply Finset.sum_congr rfl
    intro k _
    rw [Nat.mul_add, pow_add]
    ring

/-- The value made of a list of at most 4·n bytes is the number the list stands for. -/
theorem valueNat_fromBytes_list (n : Nat) (bs : List Byte) (h : bs.length ≤ 4 * n) :
    valueNat (fromBytes n fun k => bs.getD k 0#8) = bytesNat bs := by
  rw [valueNat_fromBytes, sum_bytes bs (4 * n) h]

/-! ## Digits -/

theorem hexVal_lt (c : Byte) : hexVal c < 16 := by revert c; decide +kernel

theorem hexVal_of_not_digit (c : Byte) (h : isHexDigit c = false) : hexVal c = 0 := by
  revert c; decide +kernel

theorem isHexDigit_hexChar (x : BitVec 4) : isHexDigit (hexChar x) = true := by revert x; decide

theorem hexVal_hexChar (x : BitVec 4) : hexVal (hexChar x) = x.toNat := by revert x; decide

theorem isSpace_of_isHexDigit (c : Byte) (h : isHexDigit c = true) : isSpace c = false := by
  revert c; decide +kernel

/-- The number a list of digits stands for, digit 0 the least significant. -/
def digitsNat : List Byte → Nat
  | [] => 0
  | d :: rest => hexVal d + 16 * digitsNat rest

theorem digitsNat_append (a b : List Byte) : digitsNat (a ++ b) = digitsNat a + 16 ^ a.length * digitsNat b := by
  induction a with
  | nil => simp [digitsNat]
  | cons d rest ih => simp only [List.cons_append, digitsNat, ih, List.length_cons, pow_succ]; ring

/-- Most significant digit first, as a fold (`hexNumber` of the statements is this fold). -/
theorem foldl_hexVal (ds : List Byte) :
    ds.foldl (fun acc d => 16 * acc + hexVal d) 0 = digitsNat ds.reverse := by
  induction ds using List.reverseRecOn with
  | nil => rfl
  | append_singleton ds d ih => simp [List.foldl_append, ih, digitsNat, Nat.add_comm]

theorem pairByte_toNat (d e : Byte) :
    (BitVec.ofNat 8 (hexVal d) ||| (BitVec.ofNat 8 (hexVal e) <<< 4)).toNat = hexVal d + 16 * hexVal e := by
  have hd := hexVal_lt d
  have he := hexVal_lt e
  generalize hexVal d = x at *
  generalize hexVal e = y at *
  interval_cases x <;> interval_cases y <;> decide

theorem length_pairDigits (n : Nat) (ds : List Byte) : (pairDigits n ds).length ≤ n := by
  induction n generalizing ds with
  | zero => simp [pairDigits]
  | succ m ih =>
    match ds with
    | [] => simp [pairDigits]
    | [d] => simp [pairDigits]
    | d :: e :: rest => simpa [pairDigits] using ih rest

/-- Pairing keeps the number, modulo the width (46_serdes.md R187: "each register has a fixed width"). -/
theorem bytesNat_pairDigits (n : Nat) (ds : List Byte) : bytesNat (pairDigits n ds) = digitsNat ds % 256 ^ n := by
  induction n generalizing ds with
  | zero => simp [pairDigits, bytesNat, Nat.mod_one]
  | succ m ih =>
    match ds with
    | [] => simp [pairDigits, bytesNat, digitsNat]
    | [d] =>
      have hd := hexVal_lt d
      have hp : 256 ≤ 256 ^ (m + 1) := by
        rw [pow_succ]; exact Nat.le_mul_of_pos_left _ (by positivity)
      simp only [pairDigits, bytesNat, digitsNat, BitVec.toNat_ofNat]
      rw [Nat.mod_eq_of_lt (show hexVal d < 2 ^ 8 by omega), Nat.mod_eq_of_lt (by omega)]
    | d :: e :: rest =>
      have hd := hexVal_lt d
      have he := hexVal_lt e
      simp only [pairDigits, bytesNat, digitsNat, ih rest, pairByte_toNat]
      rw [pow_succ, Nat.mul_comm (256 ^ m) 256, Nat.mod_mul]
      have h1 : (hexVal d + 16 * (hexVal e + 16 * digitsNat rest)) % 256 = hexVal d + 16 * hexVal e := by omega
      have h2 : (hexVal d + 16 * (hexVal e + 16 * digitsNat rest)) / 256 = digitsNat rest := by omega
      rw [h1, h2]

/-- What the parser computes: the number of its digits, modulo 2^N. -/
theorem valueNat_parseHex (mode : HexMode) (n : Nat) (text : List Byte) :
    valueNat (parseHex mode n text) = digitsNat (hexDigits mode text).reverse % 2 ^ (32 * n) := by
  rw [parseHex, valueNat_fromBytes_list n _ (length_pairDigits _ _), bytesNat_pairDigits]
  congr 1
  rw [show (256 : Nat) = 2 ^ 8 from rfl, ← pow_mul]
  congr 1
  ring

@[simp] theorem length_parseHex (mode : HexMode) (n : Nat) (text : List Byte) : (parseHex mode n text).length = n := by
  simp [parseHex]

/-! ## Whitespace, the 0x mark, the run -/

/-- Whitespace before text that does not begin with whitespace is skipped. -/
theorem dropWhile_space (ws text : List Byte) (hw : ∀ c ∈ ws, isSpace c = true) (ht : ∀ c ∈ text.head?, isSpace c = false) :
    (ws ++ text).dropWhile isSpace = text := by
  rw [List.dropWhile_append_of_pos hw]
  cases text with
  | nil => rfl
  | cons c rest => simp [ht c (by simp)]

/-- Text without the mark keeps its bytes. -/
theorem skipHexMark_none (text : List Byte)
    (h : ¬∃ c rest, text = 0x30#8 :: c :: rest ∧ (c = 0x78#8 ∨ c = 0x58#8)) : skipHexMark text = text := by
  match text with
  | [] => rfl
  | [c] => rfl
  | c0 :: c1 :: rest =>
    simp only [skipHexMark]
    rw [if_neg]
    rintro ⟨rfl, h1⟩
    exact h ⟨c1, rest, rfl, h1⟩

/-- A run of digits ends where a byte is not one. -/
theorem takeWhile_digits (ds tail : List Byte) (hd : ∀ d ∈ ds, isHexDigit d = true)
    (ht : ∀ c ∈ tail.head?, isHexDigit c = false) : (ds ++ tail).takeWhile isHexDigit = ds := by
  rw [List.takeWhile_append_of_pos hd]
  cases tail with
  | nil => simp
  | cons c rest => simp [ht c (by simp)]

/-! ## The hex form -/

/-- Character j of the hex form is the digit of the nibble 4(H−1−j) up (46_serdes.md R185). -/
theorem hexCharAt_eq (n : Nat) (x : Value) (j : Nat) (hj : j < 8 * n) :
    ∃ y : BitVec 4, hexCharAt n x j = hexChar y ∧ y.toNat = valueNat x / 16 ^ (8 * n - 1 - j) % 16 := by
  have hb := byteOf_toNat x (4 * n - 1 - j / 2)
  have e8 : (2 : Nat) ^ (8 * (4 * n - 1 - j / 2)) = 16 ^ (2 * (4 * n - 1 - j / 2)) := by
    rw [show (16 : Nat) = 2 ^ 4 from rfl, ← pow_mul]; congr 1; omega
  rw [e8] at hb
  by_cases h : j % 2 = 0
  · refine ⟨(byteOf x (4 * n - 1 - j / 2)).extractLsb' 4 4, by simp [hexCharAt, h], ?_⟩
    rw [BitVec.extractLsb'_toNat, hb, Nat.shiftRight_eq_div_pow,
      show 8 * n - 1 - j = 2 * (4 * n - 1 - j / 2) + 1 from by omega, pow_succ 16, ← Nat.div_div_eq_div_mul]
    generalize valueNat x / 16 ^ (2 * (4 * n - 1 - j / 2)) = q
    omega
  · refine ⟨(byteOf x (4 * n - 1 - j / 2)).extractLsb' 0 4, by simp [hexCharAt, h], ?_⟩
    rw [BitVec.extractLsb'_toNat, hb, Nat.shiftRight_eq_div_pow,
      show 8 * n - 1 - j = 2 * (4 * n - 1 - j / 2) from by omega]
    omega

/-- The hex form of x read back, the first m characters from the most significant end. -/
theorem digitsNat_hexForm (n : Nat) (x : Value) (m : Nat) (hm : m ≤ 8 * n) (hl : x.length = n) :
    digitsNat ((List.range m).map (hexCharAt n x)).reverse = valueNat x / 16 ^ (8 * n - m) := by
  induction m with
  | zero =>
    have h := valueNat_lt x
    rw [hl] at h
    have e : (16 : Nat) ^ (8 * n) = 2 ^ (32 * n) := by
      rw [show (16 : Nat) = 2 ^ 4 from rfl, ← pow_mul]; congr 1; omega
    simp only [List.range_zero, List.map_nil, List.reverse_nil, digitsNat, Nat.sub_zero]
    rw [e, Nat.div_eq_of_lt h]
  | succ m ih =>
    obtain ⟨y, hy, hv⟩ := hexCharAt_eq n x m (by omega)
    rw [List.range_succ, List.map_append, List.reverse_append]
    simp only [List.map_cons, List.map_nil, List.reverse_cons, List.reverse_nil, List.nil_append, List.cons_append,
      digitsNat]
    rw [ih (by omega), hy, hexVal_hexChar, hv, show 8 * n - 1 - m = 8 * n - (m + 1) from by omega,
      show 8 * n - m = (8 * n - (m + 1)) + 1 from by omega, pow_succ, ← Nat.div_div_eq_div_mul]
    omega

end Sys2Proof.Machine
end

