-- ==== Sys2Proof/Laws/Shift.lean ====
section
/-! SUPPORT. What the two barrel shifters compute, bit by bit (43_shift.md R140, R141): each source limb's contributions are
gathered by destination limb, and the guard r ≠ 0 keeps the complementary part from a shift by 32. -/

namespace Sys2Proof.Machine

theorem length_orLimb (res : Value) (j : Nat) (v : Limb) : (orLimb res j v).length = res.length := length_setLimb res j _

theorem limb_orLimb (res : Value) (i j : Nat) (v : Limb) (hi : i < res.length) :
    limb (orLimb res i v) j = if i = j then limb res j ||| v else limb res j := by
  rw [orLimb, limb_setLimb]
  by_cases h : i = j
  · subst h; simp [hi]
  · simp [h]

/-! ## Left -/

/-- What the source limbs below `m` have put into destination limb `j` of a left shift by 32 k + r. -/
def shlPart (k r : Nat) (a : Value) (m j : Nat) : Limb :=
  (if k ≤ j ∧ j - k < m then limb a (j - k) <<< r else 0#32) |||
    (if r ≠ 0 ∧ k + 1 ≤ j ∧ j - k - 1 < m then limb a (j - k - 1) >>> (32 - r) else 0#32)

/-- After the source limbs below `m` of a left shift: W limbs, each with its part. -/
theorem shl_gathers (n k r : Nat) (a : Value) (m : Nat) (hm : m ≤ n) :
    let res := (List.range m).foldl (shlLimb n k r a) (fromLimbs n fun _ => 0#32)
    res.length = n ∧ ∀ j, j < n → limb res j = shlPart k r a m j := by
  induction m with
  | zero =>
    refine ⟨by simp, fun j hj => ?_⟩
    simp [limb_fromLimbs, shlPart]
  | succ m ih =>
    obtain ⟨hl, hv⟩ := ih (by omega)
    rw [List.range_succ, List.foldl_append]
    generalize (List.range m).foldl (shlLimb n k r a) (fromLimbs n fun _ => 0#32) = res at *
    simp only [List.foldl_cons, List.foldl_nil, shlLimb]
    by_cases h1 : m + k < n
    · have hl1 : (orLimb res (m + k) (limb a m <<< r)).length = n := by rw [length_orLimb, hl]
      rw [if_pos h1]
      by_cases h2 : r ≠ 0 ∧ m + k + 1 < n
      · rw [if_pos h2]
        refine ⟨by rw [length_orLimb, hl1], fun j hj => ?_⟩
        rw [limb_orLimb _ _ _ _ (by rw [hl1]; omega), limb_orLimb _ _ _ _ (by rw [hl]; omega), hv j hj]
        unfold shlPart
        by_cases e1 : m + k = j
        · subst e1
          have c1 : ¬(m + k + 1 = m + k) := by omega
          have c3 : k ≤ m + k := by omega
          have c4 : m + k - k = m := by omega
          simp only [c1, if_false, if_true, c3, c4, lt_irrefl, and_false, true_and, Nat.lt_succ_self]
          have c5 : (r ≠ 0 ∧ k + 1 ≤ m + k ∧ m - 1 < m) ↔ (r ≠ 0 ∧ k + 1 ≤ m + k ∧ m - 1 < m + 1) := by
            constructor <;> rintro ⟨x, y, z⟩ <;> exact ⟨x, y, by omega⟩
          simp only [c5]
          rw [BitVec.zero_or, BitVec.or_comm]
        · by_cases e2 : m + k + 1 = j
          · subst e2
            have c1 : ¬(m + k = m + k + 1) := by omega
            have c2 : k ≤ m + k + 1 := by omega
            have c3 : m + k + 1 - k = m + 1 := by omega
            have c4 : m + k + 1 - k - 1 = m := by omega
            have c5 : k + 1 ≤ m + k + 1 := by omega
            simp only [c1, c2, c3, c5, h2.1, if_false, if_true, true_and, lt_irrefl, ne_eq, not_false_eq_true,
              Nat.lt_succ_self, Nat.add_sub_cancel]
            have c6 : ¬(m + 1 < m) := by omega
            simp [c6]
          · have d1 : (k ≤ j ∧ j - k < m) ↔ (k ≤ j ∧ j - k < m + 1) := by omega
            have d2 : (k + 1 ≤ j ∧ j - k - 1 < m) ↔ (k + 1 ≤ j ∧ j - k - 1 < m + 1) := by omega
            simp only [e1, e2, if_false, d1, d2]
      · rw [if_neg h2]
        refine ⟨hl1, fun j hj => ?_⟩
        rw [limb_orLimb _ _ _ _ (by omega), hv j hj]
        unfold shlPart
        by_cases e1 : m + k = j
        · subst e1
          have c3 : k ≤ m + k := by omega
          have c4 : m + k - k = m := by omega
          have c5 : (r ≠ 0 ∧ k + 1 ≤ m + k ∧ m - 1 < m) ↔ (r ≠ 0 ∧ k + 1 ≤ m + k ∧ m - 1 < m + 1) := by
            constructor <;> rintro ⟨x, y, z⟩ <;> exact ⟨x, y, by omega⟩
          simp only [if_true, c3, c4, lt_irrefl, and_false, if_false, true_and, Nat.lt_succ_self, c5]
          rw [BitVec.zero_or, BitVec.or_comm]
        · have d1 : (k ≤ j ∧ j - k < m) ↔ (k ≤ j ∧ j - k < m + 1) := by omega
          have d2 : (r ≠ 0 ∧ k + 1 ≤ j ∧ j - k - 1 < m) ↔ (r ≠ 0 ∧ k + 1 ≤ j ∧ j - k - 1 < m + 1) := by
            by_cases hr : r ≠ 0
            · have : ¬(m + k + 1 < n) := fun h => h2 ⟨hr, h⟩
              simp only [hr, ne_eq, not_false_eq_true, true_and]
              omega
            · simp [hr]
          simp only [e1, if_false, d1, d2]
    · have h2 : ¬(r ≠ 0 ∧ m + k + 1 < n) := by omega
      rw [if_neg h1, if_neg h2]
      refine ⟨hl, fun j hj => ?_⟩
      rw [hv j hj]
      unfold shlPart
      have d1 : (k ≤ j ∧ j - k < m) ↔ (k ≤ j ∧ j - k < m + 1) := by omega
      have d2 : (k + 1 ≤ j ∧ j - k - 1 < m) ↔ (k + 1 ≤ j ∧ j - k - 1 < m + 1) := by omega
      simp only [d1, d2]

@[simp] theorem length_shl (n : Nat) (a : Value) (s : Nat) : (shl n a s).length = n :=
  (shl_gathers n (s / 32) (s % 32) a n le_rfl).1

/-- Bit p of a left shift: bit p − s of the operand, nothing below s and nothing above the top limb. -/
theorem testBit_shl (n : Nat) (a : Value) (s p : Nat) :
    (valueNat (shl n a s)).testBit p = (decide (p < 32 * n) && decide (s ≤ p) && (valueNat a).testBit (p - s)) := by
  rw [valueNat_testBit]
  by_cases hp : p < 32 * n
  · have hj : p / 32 < n := by omega
    have h := (shl_gathers n (s / 32) (s % 32) a n le_rfl).2 (p / 32) hj
    have hq : p % 32 < 32 := Nat.mod_lt _ (by norm_num)
    have hr : s % 32 < 32 := Nat.mod_lt _ (by norm_num)
    have hs : limb (shl n a s) (p / 32) = shlPart (s / 32) (s % 32) a n (p / 32) := h
    rw [hs, shlPart, BitVec.getLsbD_or]
    simp only [hp, decide_true, Bool.true_and]
    have f1 : (if s / 32 ≤ p / 32 ∧ p / 32 - s / 32 < n then limb a (p / 32 - s / 32) <<< (s % 32) else 0#32).getLsbD (p % 32) =
        (decide (s / 32 ≤ p / 32 ∧ s % 32 ≤ p % 32) && (valueNat a).testBit (p - s)) := by
      by_cases c : s / 32 ≤ p / 32
      · have c' : s / 32 ≤ p / 32 ∧ p / 32 - s / 32 < n := ⟨c, by omega⟩
        rw [if_pos c', BitVec.getLsbD_shiftLeft]
        by_cases d : s % 32 ≤ p % 32
        · rw [limb_getLsbD _ _ _ (by omega), show 32 * (p / 32 - s / 32) + (p % 32 - s % 32) = p - s from by omega]
          simp [hq, c, d]
        · simp [hq, c, d]
      · have c' : ¬(s / 32 ≤ p / 32 ∧ p / 32 - s / 32 < n) := fun h => c h.1
        rw [if_neg c']
        simp [c]
    have f2 : (if s % 32 ≠ 0 ∧ s / 32 + 1 ≤ p / 32 ∧ p / 32 - s / 32 - 1 < n then
        limb a (p / 32 - s / 32 - 1) >>> (32 - s % 32) else 0#32).getLsbD (p % 32) =
        (decide (s / 32 + 1 ≤ p / 32 ∧ p % 32 < s % 32) && (valueNat a).testBit (p - s)) := by
      by_cases c : s % 32 ≠ 0 ∧ s / 32 + 1 ≤ p / 32
      · have c' : s % 32 ≠ 0 ∧ s / 32 + 1 ≤ p / 32 ∧ p / 32 - s / 32 - 1 < n := ⟨c.1, c.2, by omega⟩
        rw [if_pos c', BitVec.getLsbD_ushiftRight]
        by_cases d : p % 32 < s % 32
        · rw [limb_getLsbD _ _ _ (by omega),
            show 32 * (p / 32 - s / 32 - 1) + (32 - s % 32 + p % 32) = p - s from by omega]
          simp [c.2, d]
        · rw [BitVec.getLsbD_of_ge _ _ (by omega)]
          simp [d]
      · have c' : ¬(s % 32 ≠ 0 ∧ s / 32 + 1 ≤ p / 32 ∧ p / 32 - s / 32 - 1 < n) := fun h => c ⟨h.1, h.2.1⟩
        rw [if_neg c']
        have : ¬(s / 32 + 1 ≤ p / 32 ∧ p % 32 < s % 32) := fun h => c ⟨by omega, h.1⟩
        rw [decide_eq_false this]
        simp
    rw [f1, f2]
    have e : (s / 32 ≤ p / 32 ∧ s % 32 ≤ p % 32 ∨ s / 32 + 1 ≤ p / 32 ∧ p % 32 < s % 32) ↔ s ≤ p := by omega
    rw [← Bool.and_or_distrib_right, ← Bool.decide_or]
    simp only [e]
  · have hj : (shl n a s).length ≤ p / 32 := by rw [length_shl]; omega
    rw [limb_past _ _ hj]
    simp [hp]

/-! ## Right -/

/-- What the source limbs below `m` have put into destination limb `j` of a right shift by 32 k + r. -/
def shrPart (k r : Nat) (a : Value) (m j : Nat) : Limb :=
  (if j + k < m then limb a (j + k) >>> r else 0#32) |||
    (if r ≠ 0 ∧ j + k + 1 < m then limb a (j + k + 1) <<< (32 - r) else 0#32)

/-- After the source limbs below `m` of a right shift: W limbs, each with its part. -/
theorem shr_gathers (n k r : Nat) (a : Value) (m : Nat) (hm : m ≤ n) :
    let res := (List.range m).foldl (shrLimb k r a) (fromLimbs n fun _ => 0#32)
    res.length = n ∧ ∀ j, j < n → limb res j = shrPart k r a m j := by
  induction m with
  | zero =>
    refine ⟨by simp, fun j hj => ?_⟩
    simp [limb_fromLimbs, shrPart]
  | succ m ih =>
    obtain ⟨hl, hv⟩ := ih (by omega)
    rw [List.range_succ, List.foldl_append]
    generalize (List.range m).foldl (shrLimb k r a) (fromLimbs n fun _ => 0#32) = res at *
    simp only [List.foldl_cons, List.foldl_nil, shrLimb]
    by_cases h1 : k ≤ m
    · have hl1 : (orLimb res (m - k) (limb a m >>> r)).length = n := by rw [length_orLimb, hl]
      rw [if_pos h1]
      by_cases h2 : r ≠ 0 ∧ k + 1 ≤ m
      · rw [if_pos h2]
        refine ⟨by rw [length_orLimb, hl1], fun j hj => ?_⟩
        rw [limb_orLimb _ _ _ _ (by rw [hl1]; omega), limb_orLimb _ _ _ _ (by rw [hl]; omega), hv j hj]
        unfold shrPart
        by_cases e1 : m - k = j
        · have c1 : ¬(m - k - 1 = j) := by omega
          have c2 : j + k = m := by omega
          rw [if_neg c1, if_pos e1]
          simp [c2]
        · by_cases e2 : m - k - 1 = j
          · have c2 : j + k + 1 = m := by omega
            have c3 : j + k < m := by omega
            have c4 : j + k < m + 1 := by omega
            simp [e1, e2, c2, c3, c4, h2.1]
          · have d1 : j + k < m ↔ j + k < m + 1 := by omega
            have d2 : j + k + 1 < m ↔ j + k + 1 < m + 1 := by omega
            simp only [e1, e2, if_false, d1, d2]
      · rw [if_neg h2]
        refine ⟨hl1, fun j hj => ?_⟩
        rw [limb_orLimb _ _ _ _ (by omega), hv j hj]
        unfold shrPart
        by_cases e1 : m - k = j
        · have c2 : j + k = m := by omega
          simp [e1, c2]
        · have d1 : j + k < m ↔ j + k < m + 1 := by omega
          have d2 : (r ≠ 0 ∧ j + k + 1 < m) ↔ (r ≠ 0 ∧ j + k + 1 < m + 1) := by
            by_cases hr : r ≠ 0
            · have : ¬(k + 1 ≤ m) := fun h => h2 ⟨hr, h⟩
              simp only [hr, ne_eq, not_false_eq_true, true_and]
              omega
            · simp [hr]
          simp only [e1, if_false, d1, d2]
    · have h2 : ¬(r ≠ 0 ∧ k + 1 ≤ m) := by omega
      rw [if_neg h1, if_neg h2]
      refine ⟨hl, fun j hj => ?_⟩
      rw [hv j hj]
      unfold shrPart
      have d1 : j + k < m ↔ j + k < m + 1 := by omega
      have d2 : j + k + 1 < m ↔ j + k + 1 < m + 1 := by omega
      simp only [d1, d2]

@[simp] theorem length_shr (n : Nat) (a : Value) (s : Nat) : (shr n a s).length = n :=
  (shr_gathers n (s / 32) (s % 32) a n le_rfl).1

/-- Bit p of a right shift: bit p + s of the operand. -/
theorem testBit_shr (n : Nat) (a : Value) (s p : Nat) (h : a.length = n) :
    (valueNat (shr n a s)).testBit p = (valueNat a).testBit (p + s) := by
  have hlt := valueNat_lt a
  rw [h] at hlt
  rw [valueNat_testBit (shr n a s)]
  by_cases hp : p / 32 < n
  · have hv : limb (shr n a s) (p / 32) = shrPart (s / 32) (s % 32) a n (p / 32) :=
      (shr_gathers n (s / 32) (s % 32) a n le_rfl).2 (p / 32) hp
    have hq : p % 32 < 32 := Nat.mod_lt _ (by norm_num)
    have hr : s % 32 < 32 := Nat.mod_lt _ (by norm_num)
    have z1 : ∀ i, n ≤ i → limb a i = 0#32 := fun i hi => limb_past a i (by omega)
    rw [hv, shrPart, BitVec.getLsbD_or]
    have f1 : (if p / 32 + s / 32 < n then limb a (p / 32 + s / 32) >>> (s % 32) else 0#32).getLsbD (p % 32) =
        (decide (s % 32 + p % 32 < 32) && (valueNat a).testBit (p + s)) := by
      have g : (if p / 32 + s / 32 < n then limb a (p / 32 + s / 32) >>> (s % 32) else 0#32) =
          limb a (p / 32 + s / 32) >>> (s % 32) := by
        split
        · rfl
        · next c => rw [z1 _ (by omega)]; simp
      rw [g, BitVec.getLsbD_ushiftRight]
      by_cases d : s % 32 + p % 32 < 32
      · rw [limb_getLsbD _ _ _ d, show 32 * (p / 32 + s / 32) + (s % 32 + p % 32) = p + s from by omega]
        simp [d]
      · rw [BitVec.getLsbD_of_ge _ _ (by omega)]
        simp [d]
    have f2 : (if s % 32 ≠ 0 ∧ p / 32 + s / 32 + 1 < n then limb a (p / 32 + s / 32 + 1) <<< (32 - s % 32) else 0#32).getLsbD
        (p % 32) = (decide (32 ≤ s % 32 + p % 32) && (valueNat a).testBit (p + s)) := by
      by_cases hr0 : s % 32 ≠ 0
      · have g : (if s % 32 ≠ 0 ∧ p / 32 + s / 32 + 1 < n then limb a (p / 32 + s / 32 + 1) <<< (32 - s % 32) else 0#32) =
            limb a (p / 32 + s / 32 + 1) <<< (32 - s % 32) := by
          split
          · rfl
          · next c => rw [z1 _ (by have : ¬(p / 32 + s / 32 + 1 < n) := fun h => c ⟨hr0, h⟩; omega)]; simp
        rw [g, BitVec.getLsbD_shiftLeft]
        by_cases d : 32 ≤ s % 32 + p % 32
        · have d' : ¬(p % 32 < 32 - s % 32) := by omega
          rw [limb_getLsbD _ _ _ (by omega),
            show 32 * (p / 32 + s / 32 + 1) + (p % 32 - (32 - s % 32)) = p + s from by omega]
          simp [hq, d, d']
        · have d' : p % 32 < 32 - s % 32 := by omega
          simp [d, d']
      · have d : ¬(32 ≤ s % 32 + p % 32) := by omega
        simp [hr0, d]
    rw [f1, f2, ← Bool.and_or_distrib_right]
    have e : (decide (s % 32 + p % 32 < 32) || decide (32 ≤ s % 32 + p % 32)) = true := by
      by_cases d : s % 32 + p % 32 < 32
      · simp [d]
      · simp [d]; omega
    rw [e, Bool.true_and]
  · rw [limb_past _ _ (by rw [length_shr]; omega)]
    have : valueNat a < 2 ^ (p + s) := lt_of_lt_of_le hlt (Nat.pow_le_pow_right (by norm_num) (by omega))
    simp [Nat.testBit_lt_two_pow this]

end Sys2Proof.Machine
end

