-- ==== Sys2Proof/Laws/Exec.lean ====
section
/-! SUPPORT. What each command can do, said once: the one inversion of `exec` the other proofs cite. -/

namespace Sys2Proof.Machine

/-- The value registers a command writes: RD, and RA too for INC, DEC, PINC and PDEC (42_incdec.md). -/
def destRegs (i : Instr) : List Reg :=
  match i with
  | .clr rd | .ldi64 rd | .frombytes rd | .fromhex rd => [rd]
  | .mov rd _ | .not rd _ | .neg rd _ | .add64 rd _ | .sub64 rd _ => [rd]
  | .add rd _ _ | .sub rd _ _ | .and rd _ _ | .or rd _ _ | .xor rd _ _ => [rd]
  | .shl rd _ | .shr rd _ | .shli rd _ _ | .shri rd _ _ | .trim rd _ => [rd]
  | .inc rd ra | .dec rd ra | .pinc rd ra | .pdec rd ra => [rd, ra]
  | .nop | .cmp _ _ | .cmpeq64 _ | .tobytes _ | .tohex _ | .get64 _ _ => []

/-- One register written: `q` reads the value if it is that register, else as before. -/
theorem State.reg_setReg (s : State) (r q : Reg) (v : Value) : (s.setReg r v).reg q = if q = r then v else s.reg q := by
  by_cases h : q = r
  · subst h; simp
  · rw [State.setReg_reg_ne _ _ _ _ h, if_neg h]

/-- A register update keeps exactly W limbs everywhere if the value written has them. -/
theorem State.LimbsExact.setReg {s : State} (h : s.LimbsExact) (r : Reg) {v : Value} (hv : v.length = s.limbs) :
    (s.setReg r v).LimbsExact := by
  intro q
  rw [State.reg_setReg]
  split
  · exact hv
  · exact h q

/-- What a command that writes value registers answers. -/
structure WritesRegs (i : Instr) (s t : State) : Prop where
  same : t = { s with regs := t.regs }
  frame : ∀ q : Reg, q ∉ destRegs i → t.reg q = s.reg q
  exact_ : s.LimbsExact → t.LimbsExact

theorem WritesRegs.one (i : Instr) (s : State) (rd : Reg) (v : Value) (hw : rd ∈ destRegs i)
    (hv : s.LimbsExact → v.length = s.limbs) : WritesRegs i s (s.setReg rd v) where
  same := rfl
  frame := fun _ hq => State.setReg_reg_ne _ _ _ _ fun e => hq (e ▸ hw)
  exact_ := fun h => h.setReg rd (hv h)

theorem WritesRegs.two (i : Instr) (s : State) (ra rd : Reg) (v u : Value) (hd : rd ∈ destRegs i)
    (ha : ra ∈ destRegs i) (hv : s.LimbsExact → v.length = s.limbs) (hu : s.LimbsExact → u.length = s.limbs) :
    WritesRegs i s ((s.setReg ra v).setReg rd u) where
  same := rfl
  frame := fun q hq => by
    have h1 : q ≠ rd := fun e => hq (e ▸ hd)
    have h2 : q ≠ ra := fun e => hq (e ▸ ha)
    rw [State.setReg_reg_ne _ _ _ _ h1, State.setReg_reg_ne _ _ _ _ h2]
  exact_ := fun h => (h.setReg ra (hv h)).setReg rd (hu h)

/-- Every command answers a next state: no fault, no refusal. -/
theorem exec_next (i : Instr) (s : State) : ∃ t : State, exec i s = .next t := by
  cases i
  case frombytes rd =>
    show ∃ t, execFrombytes rd s = .next t
    unfold execFrombytes
    split <;> exact ⟨_, rfl⟩
  case trim rd ra =>
    show ∃ t, execTrim rd ra s = .next t
    unfold execTrim
    split <;> exact ⟨_, rfl⟩
  all_goals exact ⟨_, rfl⟩

/-- Everything a command can do: write value registers, RES, the order flags, the low end of BUF with BLEN, or (TRIM run
on a part that has no TRIM) record itself as illegal. -/
theorem exec_cases {i : Instr} {s t : State} (h : exec i s = .next t) :
    (WritesRegs i s t ∧ i.op ∉ [Op.cmp, Op.cmpeq64, Op.tobytes, Op.tohex, Op.get64]) ∨
    (i.op = .get64 ∧ ∃ v : DWord, t = s.setRes v) ∨
    ((i.op = .cmp ∨ i.op = .cmpeq64) ∧ ∃ l e g : Bool, t = s.setOrder l e g ∧ t.OneOrderFlag) ∨
    ((i.op = .tobytes ∨ i.op = .tohex) ∧
      ∃ (bs : List Byte) (n : Word), t = (s.writeBytes 0 bs).setBlen n ∧ bs.length ≤ 256) ∨
    (i.op = .trim ∧ s.params.width ≠ .w16 ∧ t = raiseIllegal .unsupportedWidth (encode i) s) := by
  cases i
  case nop =>
    obtain rfl : s = t := by simpa [exec, execNop] using h
    exact .inl ⟨⟨rfl, fun _ _ => rfl, id⟩, by decide⟩
  case get64 ra imm =>
    obtain rfl := Host.Outcome.next.inj h
    exact .inr (.inl ⟨rfl, _, rfl⟩)
  case cmp ra rb =>
    obtain rfl := Host.Outcome.next.inj h
    refine .inr (.inr (.inl ⟨.inl rfl, ?_⟩))
    cases compareLimbs (s.reg ra) (s.reg rb) s.limbs
    · exact ⟨true, false, false, rfl, by simp [State.OneOrderFlag]⟩
    · exact ⟨false, true, false, rfl, by simp [State.OneOrderFlag]⟩
    · exact ⟨false, false, true, rfl, by simp [State.OneOrderFlag]⟩
  case cmpeq64 ra =>
    obtain rfl := Host.Outcome.next.inj h
    exact .inr (.inr (.inl ⟨.inr rfl, _, _, _, rfl, by simp [State.OneOrderFlag]⟩))
  case tobytes ra =>
    obtain rfl := Host.Outcome.next.inj h
    refine .inr (.inr (.inr (.inl ⟨.inl rfl, _, _, rfl, ?_⟩)))
    simp only [List.length_map, List.length_range]
    cases s.params.width <;> decide
  case tohex ra =>
    obtain rfl := Host.Outcome.next.inj h
    refine .inr (.inr (.inr (.inl ⟨.inr rfl, _, _, rfl, ?_⟩)))
    simp only [List.length_map, List.length_range]
    cases s.params.width <;> decide
  case trim rd ra =>
    have h' : execTrim rd ra s = .next t := h
    unfold execTrim at h'
    split at h'
    · next hw =>
      obtain rfl := Host.Outcome.next.inj h'
      exact .inl ⟨.one _ s rd _ (by simp [destRegs]) (fun _ => by simp [trimValue]), by simp [Instr.op]⟩
    · next hw =>
      obtain rfl := Host.Outcome.next.inj h'
      exact .inr (.inr (.inr (.inr ⟨rfl, hw, rfl⟩)))
  case frombytes rd =>
    have h' : execFrombytes rd s = .next t := h
    unfold execFrombytes at h'
    split at h' <;>
    · obtain rfl := Host.Outcome.next.inj h'
      exact .inl ⟨.one _ s rd _ (by simp [destRegs]) (fun _ => by simp [State.limbs]), by simp [Instr.op]⟩
  case inc rd ra | dec rd ra | pinc rd ra | pdec rd ra =>
    all_goals
      obtain rfl := Host.Outcome.next.inj h
      exact .inl ⟨.two _ s ra rd _ _ (by simp [destRegs]) (by simp [destRegs])
        (fun hl => by simp [hl ra]) (fun hl => by simp [hl ra]), by simp [Instr.op]⟩
  case clr rd | ldi64 rd | fromhex rd =>
    all_goals
      obtain rfl := Host.Outcome.next.inj h
      exact .inl ⟨.one _ s rd _ (by simp [destRegs]) (fun _ => by simp [State.limbs, argValue]), by simp [Instr.op]⟩
  case mov rd ra =>
    obtain rfl := Host.Outcome.next.inj h
    exact .inl ⟨.one _ s rd _ (by simp [destRegs]) (fun hl => hl ra), by simp [Instr.op]⟩
  case not rd ra | neg rd ra | add64 rd ra | sub64 rd ra | shl rd ra | shr rd ra =>
    all_goals
      obtain rfl := Host.Outcome.next.inj h
      exact .inl ⟨.one _ s rd _ (by simp [destRegs]) (fun _ => by simp), by simp [Instr.op]⟩
  case add rd ra rb | sub rd ra rb | and rd ra rb | or rd ra rb | xor rd ra rb =>
    all_goals
      obtain rfl := Host.Outcome.next.inj h
      exact .inl ⟨.one _ s rd _ (by simp [destRegs]) (fun _ => by simp [limbwise]), by simp [Instr.op]⟩
  case shli rd ra imm | shri rd ra imm =>
    all_goals
      obtain rfl := Host.Outcome.next.inj h
      exact .inl ⟨.one _ s rd _ (by simp [destRegs]) (fun _ => by simp), by simp [Instr.op]⟩

end Sys2Proof.Machine
end

