-- ==== Sys2Proof/Laws/PerInstr.lean ====
section
/-! SUPPORT. A law of every command, one lemma per constructor: its word carries its own opcode and no other. -/

namespace Sys2Proof.Laws

/-- The OP field of the word of `i` is the OP value of its opcode, and names that opcode (30_encoding.md R71, R75). -/
def OpcodeField.Statement (i : Instr) : Prop :=
  opField (encode i) = i.op.code ∧ Op.ofCode (opField (encode i)) = some i.op

/-- The proof every constructor uses. -/
theorem opcodeField_of_pack (i : Instr) : OpcodeField.Statement i := by
  unfold OpcodeField.Statement encode
  simp

theorem OpcodeField.nop : OpcodeField.Statement (.nop) := opcodeField_of_pack _
theorem OpcodeField.clr (rd : Reg) : OpcodeField.Statement (.clr rd) := opcodeField_of_pack _
theorem OpcodeField.mov (rd ra : Reg) : OpcodeField.Statement (.mov rd ra) := opcodeField_of_pack _
theorem OpcodeField.ldi64 (rd : Reg) : OpcodeField.Statement (.ldi64 rd) := opcodeField_of_pack _
theorem OpcodeField.not (rd ra : Reg) : OpcodeField.Statement (.not rd ra) := opcodeField_of_pack _
theorem OpcodeField.neg (rd ra : Reg) : OpcodeField.Statement (.neg rd ra) := opcodeField_of_pack _
theorem OpcodeField.add (rd ra rb : Reg) : OpcodeField.Statement (.add rd ra rb) := opcodeField_of_pack _
theorem OpcodeField.sub (rd ra rb : Reg) : OpcodeField.Statement (.sub rd ra rb) := opcodeField_of_pack _
theorem OpcodeField.add64 (rd ra : Reg) : OpcodeField.Statement (.add64 rd ra) := opcodeField_of_pack _
theorem OpcodeField.sub64 (rd ra : Reg) : OpcodeField.Statement (.sub64 rd ra) := opcodeField_of_pack _
theorem OpcodeField.inc (rd ra : Reg) : OpcodeField.Statement (.inc rd ra) := opcodeField_of_pack _
theorem OpcodeField.dec (rd ra : Reg) : OpcodeField.Statement (.dec rd ra) := opcodeField_of_pack _
theorem OpcodeField.pinc (rd ra : Reg) : OpcodeField.Statement (.pinc rd ra) := opcodeField_of_pack _
theorem OpcodeField.pdec (rd ra : Reg) : OpcodeField.Statement (.pdec rd ra) := opcodeField_of_pack _
theorem OpcodeField.shl (rd ra : Reg) : OpcodeField.Statement (.shl rd ra) := opcodeField_of_pack _
theorem OpcodeField.shr (rd ra : Reg) : OpcodeField.Statement (.shr rd ra) := opcodeField_of_pack _
theorem OpcodeField.shli (rd ra : Reg) (imm : BitVec 16) : OpcodeField.Statement (.shli rd ra imm) := opcodeField_of_pack _
theorem OpcodeField.shri (rd ra : Reg) (imm : BitVec 16) : OpcodeField.Statement (.shri rd ra imm) := opcodeField_of_pack _
theorem OpcodeField.cmp (ra rb : Reg) : OpcodeField.Statement (.cmp ra rb) := opcodeField_of_pack _
theorem OpcodeField.cmpeq64 (ra : Reg) : OpcodeField.Statement (.cmpeq64 ra) := opcodeField_of_pack _
theorem OpcodeField.and (rd ra rb : Reg) : OpcodeField.Statement (.and rd ra rb) := opcodeField_of_pack _
theorem OpcodeField.or (rd ra rb : Reg) : OpcodeField.Statement (.or rd ra rb) := opcodeField_of_pack _
theorem OpcodeField.xor (rd ra rb : Reg) : OpcodeField.Statement (.xor rd ra rb) := opcodeField_of_pack _
theorem OpcodeField.tobytes (ra : Reg) : OpcodeField.Statement (.tobytes ra) := opcodeField_of_pack _
theorem OpcodeField.frombytes (rd : Reg) : OpcodeField.Statement (.frombytes rd) := opcodeField_of_pack _
theorem OpcodeField.tohex (ra : Reg) : OpcodeField.Statement (.tohex ra) := opcodeField_of_pack _
theorem OpcodeField.fromhex (rd : Reg) : OpcodeField.Statement (.fromhex rd) := opcodeField_of_pack _
theorem OpcodeField.get64 (ra : Reg) (imm : BitVec 16) : OpcodeField.Statement (.get64 ra imm) := opcodeField_of_pack _
theorem OpcodeField.trim (rd ra : Reg) : OpcodeField.Statement (.trim rd ra) := opcodeField_of_pack _

end Sys2Proof.Laws
end

