-- ==== Sys2Proof/Laws/Step.lean ====
section
/-! SUPPORT. What a step can do, said once: the bus word, the window, an issued command, one access, one step, a run. -/

namespace Sys2Proof.Machine

/-! ## The bus -/

/-- A write that drives all four lanes stores the host's own word. -/
@[simp] theorem busWord_full (data : Word) (n : Nat) : busWord 0xF#4 data n = data := by
  have h : ∀ k, k < 4 → (0xF#4).getLsbD k = true := by decide
  simp only [busWord, h 0 (by omega), h 1 (by omega), h 2 (by omega), h 3 (by omega), if_true]
  exact packWordLE_extract data

@[simp] theorem drawsAfter_full (n : Nat) : drawsAfter 0xF#4 n = n := by simp [drawsAfter]

/-- The host's own lanes reach the block (20_memory.md R51). -/
theorem busWord_lane (lanes : BitVec 4) (data : Word) (n k : Nat) (hk : k < 4) (h : lanes.getLsbD k = true) :
    (busWord lanes data n).extractLsb' (8 * k) 8 = data.extractLsb' (8 * k) 8 := by
  rw [busWord, extract_packWordLE]
  have hc : k = 0 ∨ k = 1 ∨ k = 2 ∨ k = 3 := by omega
  rcases hc with rfl | rfl | rfl | rfl <;> simp [h]

/-! ## The window -/

/-- Which offsets are CMD (10_state.md R31, 20_memory.md R51). -/
theorem windowReg_cmd_iff (off : BitVec 9) : windowReg off = .cmd ↔ off &&& 0x1FC#9 = 0x004#9 := by
  have hne : ∀ j, WindowReg.buf j ≠ .cmd := fun j => by simp
  rw [← BitVec.toNat_inj]
  simp only [windowReg, BitVec.toNat_ofNat]
  generalize (off &&& 0x1FC#9).toNat = a
  constructor
  · intro h
    split_ifs at h
    simp_all
  · intro h
    simp at h
    simp [h]

/-- A write of CMD gets the write response (20_memory.md R64). -/
@[simp] theorem writeResponse_cmd {off : BitVec 9} (h : off &&& 0x1FC#9 = 0x004#9) : writeResponse off = .written :=
  if_pos ((windowReg_cmd_iff off).mpr h)

/-- A write of any other register gets nothing (20_memory.md R64, log 6). -/
@[simp] theorem writeResponse_of_ne_cmd {off : BitVec 9} (h : off &&& 0x1FC#9 ≠ 0x004#9) : writeResponse off = .none :=
  if_neg fun hc => h ((windowReg_cmd_iff off).mp hc)

/-- What a host write of anything but CMD can do: clear the record, store in ARG, BLEN or BUF, or nothing. -/
theorem writeWindow_cases {off : BitVec 9} {w : Word} {s t : State} (h : writeWindow off w s = .next t) :
    (windowReg off = .cmd ∧ issueCommand w s = .next t) ∨
    (windowReg off ≠ .cmd ∧
      (t = s ∨ t = clearIllegal s ∨ (∃ v : DWord, t = s.setArg v) ∨ (∃ v : Word, t = s.setBlen v) ∨
        ∃ j : Nat, windowReg off = .buf j ∧ t = writeBufWord s j w)) := by
  unfold writeWindow at h
  cases hr : windowReg off <;> rw [hr] at h <;> simp only [reduceCtorEq, false_and, ne_eq, not_false_eq_true, true_and,
    false_or, not_true_eq_false, or_false]
  case cmd => exact h
  case status =>
    obtain rfl := Host.Outcome.next.inj h
    unfold writeStatus
    split
    · exact .inr (.inl rfl)
    · exact .inl rfl
  case argLo | argHi =>
    all_goals
      obtain rfl := Host.Outcome.next.inj h
      exact .inr (.inr (.inl ⟨_, rfl⟩))
  case blen =>
    obtain rfl := Host.Outcome.next.inj h
    exact .inr (.inr (.inr (.inl ⟨_, rfl⟩)))
  case buf j =>
    obtain rfl := Host.Outcome.next.inj h
    exact .inr (.inr (.inr (.inr ⟨j, rfl, rfl⟩)))
  all_goals
    obtain rfl := Host.Outcome.next.inj h
    exact .inl rfl

/-- BUF words lie inside BUF (20_memory.md R50). -/
theorem windowReg_buf_lt {off : BitVec 9} {j : Nat} (h : windowReg off = .buf j) : j < 64 := by
  have hlt := (off &&& 0x1FC#9).isLt
  simp only [windowReg] at h
  split_ifs at h
  obtain rfl := WindowReg.buf.inj h
  omega

/-- An issued command word executes, or records itself (30_encoding.md R80). -/
theorem issueCommand_cases {c : Word} {s t : State} (h : issueCommand c s = .next t) :
    (∃ i : Instr, decode s.params.width c = .legal i ∧ exec i s = .next t) ∨
    ∃ cause : Cause, decode s.params.width c = .illegal cause ∧ t = raiseIllegal cause c s := by
  unfold issueCommand at h
  cases hd : decode s.params.width c with
  | legal i => rw [hd] at h; exact .inl ⟨i, rfl, h⟩
  | illegal cause => rw [hd] at h; exact .inr ⟨cause, rfl, (Host.Outcome.next.inj h).symm⟩

theorem issueCommand_next (c : Word) (s : State) : ∃ t : State, issueCommand c s = .next t := by
  unfold issueCommand
  cases decode s.params.width c with
  | legal i => exact exec_next i s
  | illegal cause => exact ⟨_, rfl⟩

theorem writeWindow_next (off : BitVec 9) (w : Word) (s : State) : ∃ t : State, writeWindow off w s = .next t := by
  unfold writeWindow
  cases windowReg off
  case cmd => exact issueCommand_next w s
  all_goals exact ⟨_, rfl⟩

theorem performAccess_next (a : Access) (s : State) : ∃ t : State, performAccess a s = .next t := by
  cases a
  case write off lanes data => exact writeWindow_next _ _ _
  all_goals exact ⟨_, rfl⟩

/-- A command leaves the host's side alone. -/
theorem exec_outside {i : Instr} {s t : State} (h : exec i s = .next t) :
    t.params = s.params ∧ t.pending = s.pending ∧ t.response = s.response ∧ t.draws = s.draws ∧ t.known = s.known := by
  rcases exec_cases h with ⟨⟨h1, _, _⟩, _⟩ | ⟨_, v, rfl⟩ | ⟨_, l, e, g, rfl, _⟩ | ⟨_, bs, n, rfl, _⟩ | ⟨_, _, rfl⟩
  · rw [h1]; exact ⟨rfl, rfl, rfl, rfl, rfl⟩
  all_goals simp

/-- A host write leaves the instance's parameters, the host's list and the draws alone. -/
theorem writeWindow_outside {off : BitVec 9} {w : Word} {s t : State} (h : writeWindow off w s = .next t) :
    t.params = s.params ∧ t.pending = s.pending ∧ t.response = s.response ∧ t.draws = s.draws ∧ t.known = s.known := by
  rcases writeWindow_cases h with ⟨_, hc⟩ | ⟨_, rfl | rfl | ⟨v, rfl⟩ | ⟨v, rfl⟩ | ⟨j, _, rfl⟩⟩
  · rcases issueCommand_cases hc with ⟨i, _, hi⟩ | ⟨cause, _, rfl⟩
    · exact exec_outside hi
    · simp
  all_goals exact ⟨rfl, rfl, rfl, rfl, rfl⟩

/-- A 32-bit write is the window's write of its own word, its response set. -/
theorem performAccess_write_full (off : BitVec 9) (w : Word) (s : State) :
    performAccess (.write off 0xF#4 w) s = writeWindow off w (s.setResponse (writeResponse off)) := by
  simp only [performAccess, busWord_full, drawsAfter_full]
  rfl

/-- The CMD write of a word issues it. -/
theorem performAccess_commandWrite (c : Word) (s : State) :
    performAccess (commandWrite c) s = issueCommand c (s.setResponse .written) :=
  performAccess_write_full 0x004#9 c s

/-- What the host gets back from a write, whatever it stores or executes (20_memory.md R64). -/
theorem performAccess_write_response {off : BitVec 9} {lanes : BitVec 4} {data : Word} {s t : State}
    (h : performAccess (.write off lanes data) s = .next t) : t.response = writeResponse off :=
  (writeWindow_outside h).2.2.1

/-- No access adds to or takes from the host's list. -/
theorem performAccess_pending {a : Access} {s t : State} (h : performAccess a s = .next t) : t.pending = s.pending := by
  cases a
  case write off lanes data => exact (writeWindow_outside h).2.1
  all_goals
    obtain rfl := Host.Outcome.next.inj h
    rfl

/-- Everything a step can do: nothing, or one access. -/
theorem step_cases {s t : State} (h : step s = .next t) :
    (s.pending = [] ∧ t = s) ∨
    ∃ (a : Access) (rest : List Access), s.pending = a :: rest ∧ performAccess a (s.setPending rest) = .next t := by
  unfold step at h
  cases hp : s.pending with
  | nil => rw [hp] at h; exact .inl ⟨rfl, (Host.Outcome.next.inj h).symm⟩
  | cons a rest => rw [hp] at h; exact .inr ⟨a, rest, rfl, h⟩

/-- A step with an access to perform performs it. -/
theorem step_cons {s : State} {a : Access} {rest : List Access} (h : s.pending = a :: rest) :
    step s = performAccess a (s.setPending rest) := by
  unfold step
  rw [h]

/-! ## Runs -/

theorem run_zero (s : State) : Host.Core.run Sys2Proof.core 0 s = .next s := rfl

/-- One step and the rest of the run. -/
theorem run_succ {k : Nat} {s t : State} (h : step s = .next t) :
    Host.Core.run Sys2Proof.core (k + 1) s = Host.Core.run Sys2Proof.core k t := by
  have h' : Sys2Proof.core.step s = .next t := h
  simp only [Host.Core.run]
  rw [h']

/-- A run's first step. -/
theorem run_succ_inv {k : Nat} {s t : State} (h : Host.Core.run Sys2Proof.core (k + 1) s = .next t) :
    ∃ u : State, step s = .next u ∧ Host.Core.run Sys2Proof.core k u = .next t := by
  have key : ∀ o : Result, step s = o → ∃ u : State, step s = .next u ∧ Host.Core.run Sys2Proof.core k u = .next t := by
    intro o ho
    have h' : Sys2Proof.core.step s = o := ho
    simp only [Host.Core.run] at h
    rw [h'] at h
    cases o with
    | next u => exact ⟨u, ho, h⟩
    | fault r => cases r
    | refused r => cases h
  exact key _ rfl

/-- No access: the block as it is, with nothing to come. -/
theorem runAccesses_nil (s : State) : runAccesses [] s = .next (s.setPending []) := rfl

/-- The first access, then the others: the host's list is the only thing the rest of the run takes from it. -/
theorem runAccesses_cons {a : Access} {as : List Access} {s t : State} (h : performAccess a (s.setPending as) = .next t) :
    runAccesses (a :: as) s = runAccesses as t := by
  have hp : t.pending = as := performAccess_pending h
  have hs : step (s.setPending (a :: as)) = .next t := by rw [step_cons rfl]; exact h
  have ht : t.setPending as = t := by rw [← hp]; rfl
  rw [runAccesses, List.length_cons, run_succ hs, runAccesses, ht]

end Sys2Proof.Machine
end

