-- ==== Sys2Proof/Tests/Slice0.lean ====
section
/-! SUPPORT. Tests: words and results from the spec's examples and vectors (40_construction.md to 47_narrowing.md,
95_test_vectors.md), and a witness for the hypotheses of every statement that has any. -/

namespace Sys2Proof.Tests

open Sys2Proof Sys2Proof.Machine Sys2Proof.Certificates

-- One theorem after another: the sandbox's memory limit counts a stack for each thread.
set_option Elab.async false

/-! ## Helpers -/

/-- The reset state of a part of width `w`, STOP mode. -/
def part (w : Width) : State := State.resetOf { width := w, hexMode := .stop, windowPage := 0 }

/-- The same in ZERO mode. -/
def partZero (w : Width) : State := State.resetOf { width := w, hexMode := .zero, windowPage := 0 }

/-- A register loaded from a limb list written most significant limb first, as the spec writes it. -/
def put (r : Reg) (v : List Limb) (s : State) : State := s.setReg r v.reverse

/-- BUF from byte 0, and BLEN its length. -/
def text (bs : List Byte) (s : State) : State := (s.writeBytes 0 bs).setBlen (BitVec.ofNat 32 bs.length)

/-- One step: the CMD write of `c`. -/
def after (c : Word) (s : State) : Option State :=
  match step (s.setPending [commandWrite c]) with
  | .next t => some t
  | .fault _ => none
  | .refused _ => none

/-- A register after the command, most significant limb first. -/
def regAfter (c : Word) (r : Reg) (s : State) : Option (List Limb) := (after c s).map fun t => (t.reg r).reverse

/-- STATUS after the command. -/
def statusAfter (c : Word) (s : State) : Option Word := (after c s).map statusWord

/-- RES after the command. -/
def resAfter (c : Word) (s : State) : Option DWord := (after c s).map State.res

/-- BLEN and the first `n` bytes of BUF after the command. -/
def bufAfter (c : Word) (n : Nat) (s : State) : Option (Word × List Byte) :=
  (after c s).map fun t => (t.blen, (List.range n).map t.readByte)

/-- Five limbs all ones. -/
def max5 : List Limb := List.replicate 5 0xFFFFFFFF#32

/-! ## WellFormed refuses TRIM on W = 5 and W = 8, and so does the decoder (30_encoding.md R78) -/

theorem test_wellFormed_trim_w5 : WellFormed .w5 (.trim .v1 .v2) = false := by decide
theorem test_wellFormed_trim_w8 : WellFormed .w8 (.trim .v1 .v2) = false := by decide
theorem test_wellFormed_trim_w16 : WellFormed .w16 (.trim .v1 .v2) = true := by decide
theorem test_decode_trim_w5 : decode .w5 0xA0A00000#32 = .illegal .unsupportedWidth := by decide

/-! ## Decoding: one word of the spec for every command, on W = 16 -/

theorem test_decode_nop : decode .w16 0x00000000#32 = .legal .nop := by decide
theorem test_decode_clr : decode .w16 0x05800000#32 = .legal (.clr .v3) := by decide
theorem test_decode_mov : decode .w16 0x09500000#32 = .legal (.mov .v2 .v5) := by decide
theorem test_decode_ldi64 : decode .w16 0x0C800000#32 = .legal (.ldi64 .v1) := by decide
theorem test_decode_not : decode .w16 0x11100000#32 = .legal (.not .v2 .v1) := by decide
theorem test_decode_neg : decode .w16 0x16900000#32 = .legal (.neg .v5 .v1) := by decide
theorem test_decode_add : decode .w16 0x231A0000#32 = .legal (.add .v6 .v1 .v5) := by decide
theorem test_decode_sub : decode .w16 0x26340000#32 = .legal (.sub .v4 .v3 .v2) := by decide
theorem test_decode_add64 : decode .w16 0x2A900000#32 = .legal (.add64 .v5 .v1) := by decide
theorem test_decode_sub64 : decode .w16 0x2F100000#32 = .legal (.sub64 .v6 .v1) := by decide
theorem test_decode_inc : decode .w16 0x31100000#32 = .legal (.inc .v2 .v1) := by decide
theorem test_decode_dec : decode .w16 0x35200000#32 = .legal (.dec .v2 .v2) := by decide
theorem test_decode_pinc : decode .w16 0x39900000#32 = .legal (.pinc .v3 .v1) := by decide
theorem test_decode_pdec : decode .w16 0x3E200000#32 = .legal (.pdec .v4 .v2) := by decide
theorem test_decode_shl : decode .w16 0x41100000#32 = .legal (.shl .v2 .v1) := by decide
theorem test_decode_shr : decode .w16 0x45900000#32 = .legal (.shr .v3 .v1) := by decide
theorem test_decode_shli : decode .w16 0x4A100082#32 = .legal (.shli .v4 .v1 130#16) := by decide
theorem test_decode_shri : decode .w16 0x4C90005F#32 = .legal (.shri .v1 .v1 95#16) := by decide
theorem test_decode_cmp : decode .w16 0x50260000#32 = .legal (.cmp .v2 .v3) := by decide
theorem test_decode_cmpeq64 : decode .w16 0x54100000#32 = .legal (.cmpeq64 .v1) := by decide
theorem test_decode_and : decode .w16 0x61940000#32 = .legal (.and .v3 .v1 .v2) := by decide
theorem test_decode_or : decode .w16 0x66140000#32 = .legal (.or .v4 .v1 .v2) := by decide
theorem test_decode_xor : decode .w16 0x6A940000#32 = .legal (.xor .v5 .v1 .v2) := by decide
theorem test_decode_tobytes : decode .w16 0x80100000#32 = .legal (.tobytes .v1) := by decide
theorem test_decode_frombytes : decode .w16 0x85000000#32 = .legal (.frombytes .v2) := by decide
theorem test_decode_tohex : decode .w16 0x88200000#32 = .legal (.tohex .v2) := by decide
theorem test_decode_fromhex : decode .w16 0x8C800000#32 = .legal (.fromhex .v1) := by decide
theorem test_decode_get64 : decode .w16 0x9010FFFF#32 = .legal (.get64 .v1 0xFFFF#16) := by decide
theorem test_decode_trim : decode .w16 0xA1A00000#32 = .legal (.trim .v3 .v2) := by decide

/-- 95_test_vectors.md section 2.1: the illegal words. -/
theorem test_decode_illegal :
    [0x00000001#32, 0x18000000#32, 0xFC000000#32, 0xA0A00000#32, 0xA0A00001#32, 0x05810000#32, 0x50940000#32,
      0x21948000#32].map (decode .w8) =
    [.illegal .reservedField, .illegal .reservedOpcode, .illegal .reservedOpcode, .illegal .unsupportedWidth,
      .illegal .unsupportedWidth, .illegal .reservedField, .illegal .reservedField, .illegal .reservedField] := by decide

/-- The host's way in: the table word of TRIM v1, v2, and the step that runs it first after reset. -/
theorem test_decodeTableWord : decodeTableWord 32 0xA0A00000 = some (.trim .v1 .v2) := by decide
theorem test_withFetchWord :
    ((match step (State.reset.withFetchWord 32 0x54000000) with
      | .next t => some t.eq
      | .fault _ => none
      | .refused _ => none) = some true) := by decide +kernel

/-! ## One step per command, from 95_test_vectors.md section 2 -/

theorem test_nop : statusAfter 0x00000000#32 (part .w8) = some 0#32 := by decide +kernel
theorem test_clr : regAfter 0x05800000#32 .v3 (put .v3 max5 (part .w5)) = some [0, 0, 0, 0, 0] := by decide +kernel
theorem test_mov : regAfter 0x09500000#32 .v2 (put .v5 [0, 0x0ABCDEF0, 0, 0, 0] (part .w5)) =
    some [0, 0x0ABCDEF0, 0, 0, 0] := by decide +kernel
theorem test_ldi64 : regAfter 0x0C800000#32 .v1 ((put .v1 max5 (part .w5)).setArg 0x0123456789ABCDEF#64) =
    some [0, 0, 0, 0x01234567, 0x89ABCDEF] := by decide +kernel
theorem test_not_in_place : regAfter 0x10900000#32 .v1 (put .v1 [0, 0, 0, 0, 0xF0F0F0F0] (part .w5)) =
    some [0xFFFFFFFF, 0xFFFFFFFF, 0xFFFFFFFF, 0xFFFFFFFF, 0x0F0F0F0F] := by decide +kernel
theorem test_neg : regAfter 0x15100000#32 .v2 (put .v1 [0, 0, 0, 1, 0] (part .w5)) =
    some [0xFFFFFFFF, 0xFFFFFFFF, 0xFFFFFFFF, 0xFFFFFFFF, 0] := by decide +kernel
theorem test_add_wraps : regAfter 0x21940000#32 .v3 (put .v1 max5 (put .v2 max5 (part .w5))) =
    some [0xFFFFFFFF, 0xFFFFFFFF, 0xFFFFFFFF, 0xFFFFFFFF, 0xFFFFFFFE] := by decide +kernel
theorem test_add_same_fields :
    regAfter 0x20920000#32 .v1 (put .v1 [0x80000000, 0, 0, 0x80000000, 0x80000000] (part .w5)) =
      some [0, 0, 1, 1, 0] := by decide +kernel
theorem test_sub_operand_order : regAfter 0x25940000#32 .v3 (put .v2 [0, 0, 0, 0, 1] (part .w5)) = some max5 := by
  decide +kernel
theorem test_sub_borrow : regAfter 0x24940000#32 .v1 (put .v1 [0, 1, 0, 0, 0] (put .v2 [0, 0, 0, 0, 1] (part .w5))) =
    some [0, 0, 0xFFFFFFFF, 0xFFFFFFFF, 0xFFFFFFFF] := by decide +kernel
theorem test_add64 : regAfter 0x29100000#32 .v2
    ((put .v1 [0, 0, 0, 0xFFFFFFFF, 0xFFFFFFFF] (part .w5)).setArg 0xFFFFFFFFFFFFFFFF#64) =
      some [0, 0, 1, 0xFFFFFFFF, 0xFFFFFFFE] := by decide +kernel
theorem test_sub64 : regAfter 0x2D100000#32 .v2 ((part .w5).setArg 0x100000000#64) =
    some [0xFFFFFFFF, 0xFFFFFFFF, 0xFFFFFFFF, 0xFFFFFFFF, 0] := by decide +kernel
theorem test_inc_wraps : (after 0x31100000#32 (put .v1 max5 (part .w5))).map (fun t => (t.reg .v1, t.reg .v2)) =
    some ([0, 0, 0, 0, 0], [0, 0, 0, 0, 0]) := by decide +kernel
theorem test_inc_no_carry : regAfter 0x30900000#32 .v1 (put .v1 [0, 0, 0, 0xFFFFFFFF, 5] (part .w5)) =
    some [0, 0, 0, 0xFFFFFFFF, 6] := by decide +kernel
theorem test_dec_borrows : (after 0x35100000#32 (put .v1 [0, 0, 1, 0, 0] (part .w5))).map
    (fun t => ((t.reg .v1).reverse, (t.reg .v2).reverse)) =
      some ([0, 0, 0, 0xFFFFFFFF, 0xFFFFFFFF], [0, 0, 0, 0xFFFFFFFF, 0xFFFFFFFF]) := by decide +kernel
theorem test_pinc : (after 0x39900000#32 (put .v1 [0, 0, 0, 0, 7] (part .w5))).map
    (fun t => ((t.reg .v1).reverse, (t.reg .v3).reverse)) = some ([0, 0, 0, 0, 8], [0, 0, 0, 0, 7]) := by decide +kernel
theorem test_pinc_same_register : regAfter 0x38900000#32 .v1 (put .v1 [0, 0, 0, 0, 41] (part .w5)) =
    some [0, 0, 0, 0, 41] := by decide +kernel
theorem test_pdec : (after 0x3D100000#32 (part .w5)).map (fun t => ((t.reg .v1).reverse, (t.reg .v2).reverse)) =
    some (max5, [0, 0, 0, 0, 0]) := by decide +kernel
theorem test_pdec_same_register : regAfter 0x3C900000#32 .v1 (put .v1 [0, 0, 0, 0, 41] (part .w5)) =
    some [0, 0, 0, 0, 41] := by decide +kernel
theorem test_shl_by_32 : regAfter 0x41100000#32 .v2
    ((put .v1 [0x80000000, 0, 0, 0, 0x80000001] (part .w5)).setArg 32#64) = some [0, 0, 0, 0x80000001, 0] := by
  decide +kernel
theorem test_shl_ignores_arg_hi : regAfter 0x41100000#32 .v2
    ((put .v1 [0x80000000, 0, 0, 0, 0x80000001] (part .w5)).setArg 0x0000000500000001#64) = some [0, 0, 0, 1, 2] := by
  decide +kernel
theorem test_shr_by_1 : regAfter 0x45100000#32 .v2
    ((put .v1 [0x80000000, 0, 0, 0, 0x80000001] (part .w5)).setArg 1#64) = some [0x40000000, 0, 0, 0, 0x40000000] := by
  decide +kernel
theorem test_shr_by_160 : regAfter 0x45100000#32 .v2
    ((put .v1 [0x80000000, 0, 0, 0, 0x80000001] (part .w5)).setArg 160#64) = some [0, 0, 0, 0, 0] := by decide +kernel
theorem test_shli : regAfter 0x49A0005A#32 .v3 (put .v2 [0, 1, 0x23456789, 0xABCDEF00, 0] (part .w5)) =
    some [0x26AF37BC, 0, 0, 0, 0] := by decide +kernel
theorem test_shli_65535 : regAfter 0x4910FFFF#32 .v2 (put .v1 [0x80000000, 0, 0, 0, 0x80000001] (part .w5)) =
    some [0, 0, 0, 0, 0] := by decide +kernel
theorem test_shri_in_place : regAfter 0x4C90005F#32 .v1 (put .v1 [0x80000000, 0, 0, 0, 0x80000001] (part .w5)) =
    some [0, 0, 1, 0, 0] := by decide +kernel
theorem test_shri_by_64 : regAfter 0x4D100040#32 .v2 (put .v1 [8, 7, 6, 5, 4, 3, 2, 1] (part .w8)) =
    some [0, 0, 8, 7, 6, 5, 4, 3] := by decide +kernel
theorem test_cmp_top_limb_decides :
    statusAfter 0x50140000#32 (put .v1 [0, 0, 1, 0, 0] (put .v2 [0, 0, 0, 0xFFFFFFFF, 0xFFFFFFFF] (part .w5))) =
      some 0x00000004#32 := by decide +kernel
theorem test_cmp_top_bit_unsigned : statusAfter 0x50140000#32
    (put .v1 [0x80000000, 0, 0, 0, 0] (put .v2 [0x7FFFFFFF, 0xFFFFFFFF, 0xFFFFFFFF, 0xFFFFFFFF, 0xFFFFFFFF] (part .w5))) =
      some 0x00000004#32 := by decide +kernel
theorem test_cmpeq64 : statusAfter 0x54100000#32
    ((put .v1 [0, 0, 0, 0xFFFFFFFF, 1] (part .w5)).setArg 0xFFFFFFFF00000001#64) = some 0x00000002#32 := by decide +kernel
theorem test_cmpeq64_limb_2_clears_all : statusAfter 0x54100000#32
    (((put .v1 [0, 0, 1, 0, 5] (part .w5)).setArg 5#64).setOrder true false false) = some 0#32 := by decide +kernel
theorem test_and : regAfter 0x61940000#32 .v3
    (put .v1 [0, 0, 0, 0xFFFF0000, 0x0F0F0F0F] (put .v2 [0, 0, 0, 0x00FFFF00, 0xFFFF0000] (part .w5))) =
      some [0, 0, 0, 0x00FF0000, 0x0F0F0000] := by decide +kernel
theorem test_or : regAfter 0x66140000#32 .v4
    (put .v1 [0, 0, 0, 0xFFFF0000, 0x0F0F0F0F] (put .v2 [0, 0, 0, 0x00FFFF00, 0xFFFF0000] (part .w5))) =
      some [0, 0, 0, 0xFFFFFF00, 0xFFFF0F0F] := by decide +kernel
theorem test_xor : regAfter 0x6A940000#32 .v5
    (put .v1 [0, 0, 0, 0xFFFF0000, 0x0F0F0F0F] (put .v2 [0, 0, 0, 0x00FFFF00, 0xFFFF0000] (part .w5))) =
      some [0, 0, 0, 0xFF00FF00, 0xF0F00F0F] := by decide +kernel
theorem test_tobytes : bufAfter 0x80100000#32 21
    ((put .v1 [0x11121314, 0x21222324, 0x31323334, 0x41424344, 0x51525354] (part .w5)).writeBytes 20 [0xAA#8]) =
      some (20#32, [0x54, 0x53, 0x52, 0x51, 0x44, 0x43, 0x42, 0x41, 0x34, 0x33, 0x32, 0x31, 0x24, 0x23, 0x22, 0x21,
        0x14, 0x13, 0x12, 0x11, 0xAA]) := by decide +kernel
theorem test_frombytes : regAfter 0x85000000#32 .v2
    (((part .w5).writeBytes 0 [0xEF, 0xCD, 0xAB, 0x89, 0x67, 0x45, 0x23, 0x01]).setBlen 20#32) =
      some [0, 0, 0, 0x01234567, 0x89ABCDEF] := by decide +kernel
theorem test_frombytes_wrong_length : regAfter 0x85000000#32 .v2
    (((put .v2 [0, 0, 0, 0, 5] (part .w5)).writeBytes 0 [0xFF, 0xFF]).setBlen 19#32) = some [0, 0, 0, 0, 0] := by
  decide +kernel
/-- The text is `000000000123456789abcdeffedcba9876543210`. -/
theorem test_tohex : bufAfter 0x88100000#32 40 (put .v1 [0, 0x01234567, 0x89ABCDEF, 0xFEDCBA98, 0x76543210] (part .w5)) =
    some (40#32, [0x30, 0x30, 0x30, 0x30, 0x30, 0x30, 0x30, 0x30, 0x30, 0x31, 0x32, 0x33, 0x34, 0x35, 0x36, 0x37] ++
      [0x38, 0x39, 0x61, 0x62, 0x63, 0x64, 0x65, 0x66, 0x66, 0x65, 0x64, 0x63, 0x62, 0x61, 0x39, 0x38] ++
      [0x37, 0x36, 0x35, 0x34, 0x33, 0x32, 0x31, 0x30]) := by decide +kernel
/-- The text is `12g4`: 0x12 in STOP, 0x1204 in ZERO. -/
theorem test_fromhex_stop_and_zero :
    (regAfter 0x8D000000#32 .v2 (text [0x31, 0x32, 0x67, 0x34] (part .w5)),
      regAfter 0x8D000000#32 .v2 (text [0x31, 0x32, 0x67, 0x34] (partZero .w5))) =
        (some [0, 0, 0, 0, 0x12], some [0, 0, 0, 0, 0x1204]) := by decide +kernel
/-- The text is a tab, a line feed, a space and `DEADbeef`. -/
theorem test_fromhex_whitespace_and_case :
    regAfter 0x8D000000#32 .v2
      (text [0x09, 0x0A, 0x20, 0x44, 0x45, 0x41, 0x44, 0x62, 0x65, 0x65, 0x66] (part .w5)) =
        some [0, 0, 0, 0, 0xDEADBEEF] := by decide +kernel
theorem test_get64 : resAfter 0x90100001#32
    (put .v1 [0x00000005, 0x44444444, 0x33333333, 0x22222222, 0x11111111] (part .w5)) = some 0x4444444433333333#64 := by
  decide +kernel
theorem test_get64_past_the_top : resAfter 0x90100002#32
    (put .v1 [0xA0000004, 0xA0000003, 0xA0000002, 0xA0000001, 0xA0000000] (part .w5)) = some 0x00000000A0000004#64 := by
  decide +kernel
theorem test_trim : regAfter 0xA0A00000#32 .v1
    (put .v2 [0, 0, 0, 0, 0, 0, 0x1000, 0, 0, 0, 0, 0, 0, 0, 0, 5] (part .w16)) =
      some [0, 0, 0, 0, 0, 0, 0, 0, 0, 0, 0, 0, 0, 0, 0, 5] := by decide +kernel
theorem test_trim_on_w8 : (after 0xA0A00000#32 (put .v2 [0, 0, 0, 0, 0, 0, 0, 7] (part .w8))).map
    (fun t => (statusWord t, t.errcmd, t.reg .v1)) = some (0x28#32, 0xA0A00000#32, [0, 0, 0, 0, 0, 0, 0, 0]) := by
  decide +kernel

/-! ## The record, the window and reset, from 95_test_vectors.md sections 2.1, 2.12 and 2.13 -/

theorem test_first_record_kept :
    (after 0xFC000000#32 ((part .w8).setRecord true 1#4 0x18000000#32)).map (fun t => (statusWord t, t.errcmd)) =
      some (0x18#32, 0x18000000#32) := by decide +kernel
theorem test_status_clear :
    [0x00000007#32, 0xFFFFFFF7#32, 0x00000008#32].map
      (fun w => let t := writeStatus w ((part .w8).setRecord true 1#4 0x18000000#32)
        (statusWord t, t.errcmd)) =
      [(0x18#32, 0x18000000#32), (0x18#32, 0x18000000#32), (0#32, 0x18000000#32)] := by decide +kernel
theorem test_id : [Width.w5, Width.w8, Width.w16].map (fun w => readWindow (part w) 0x000#9) =
    [0xBF0C0105#32, 0xBF0C0108#32, 0xBF0C0110#32] := by decide +kernel
theorem test_buf_word_ignores_low_offset_bits :
    (match step ((part .w8).setPending [writeWord 0x101#9 0xA1B2C3D4#32]) with
      | .next t => some (readWindow t 0x100#9, (List.range 4).map t.readByte)
      | .fault _ => none
      | .refused _ => none) = some (0xA1B2C3D4#32, [0xD4, 0xC3, 0xB2, 0xA1]) := by decide +kernel
theorem test_last_buf_word :
    (match step ((part .w8).setPending [writeWord 0x1FC#9 0x11223344#32]) with
      | .next t => some ((List.range 4).map fun k => t.readByte (252 + k))
      | .fault _ => none
      | .refused _ => none) = some [0x44, 0x33, 0x22, 0x11] := by decide +kernel
/-- The last column of 20_memory.md R64: a legal and an illegal CMD write, then STATUS, ARG_LO, ARG_HI, BLEN, two BUF words. -/
theorem test_write_responses :
    [writeWord 0x004#9 0#32, writeWord 0x007#9 0x18000000#32, writeWord 0x008#9 8#32, writeWord 0x010#9 1#32,
      writeWord 0x014#9 1#32, writeWord 0x020#9 1#32, writeWord 0x100#9 1#32, writeWord 0x1FF#9 1#32].map
      (fun a => match step ((part .w8).setPending [a]) with
        | .next t => some t.response
        | .fault _ => none
        | .refused _ => none) =
      [some .written, some .written, some .none, some .none, some .none, some .none, some .none, some .none] := by
  decide +kernel
theorem test_fromhex_right_after_reset : regAfter 0x8C800000#32 .v1 (part .w5) = some [0, 0, 0, 0, 0] := by decide +kernel

/-! ## The host's notation (30_encoding.md R82) -/

theorem test_assemble_shli :
    assembleLine .w5 "  SHLI v2, v1, 40   ; a comment".toList = some 0x49100028#32 := by decide +kernel
theorem test_assemble_rejects :
    ["TRIM v1, v2", "shli v2, v1, 65536", "add v8, v1, v2", "add v1, v2", "; nothing"].map
      (fun l => assembleLine .w8 l.toList) = [none, none, none, none, none] := by decide +kernel
theorem test_host_lines :
    (hostLine "wr 0x008, 0x00000008 ; CLRILL".toList, hostLine "rd 0x018 -> lo".toList) =
      (some (writeWord 0x008#9 8#32), some (.read 0x018#9)) := by decide +kernel

theorem test_pseudo_lines :
    ["LI v1, 0x100000005", "SHLX v2, v1, 40", "setlen 20", "CLRILL", "addi v1, v2"].map (fun l => pseudoLine l.toList) =
      [some (.li .v1 0x100000005#64), some (.shlx .v2 .v1 40#32), some (.setlen 20#32), some .clrill, none] := by
  decide +kernel
theorem test_line_accesses : lineAccesses .w5 "li v1, 5 ; five".toList =
    some [writeWord 0x010#9 5#32, writeWord 0x014#9 0#32, commandWrite 0x0C800000#32] := by decide +kernel

/-! ## Witnesses: a state and operands that meet the hypotheses of each statement -/

theorem witness_DecodeOfEncodeIsTheCommand : WellFormed .w16 (.trim .v7 .v6) = true := by decide

theorem witness_EncodeOfDecodeIsTheWord : decode .w16 0x4A100082#32 = .legal (.shli .v4 .v1 130#16) := by decide

theorem witness_OpcodeTableRowsDecode : (Op.trim, 0xA0000000#32, 0xFC0FFFFF#32) ∈ opcodeTable ∧
    0xA0A00000#32 &&& 0xFC0FFFFF#32 = 0xA0000000#32 ∧ 0xA0A00001#32 &&& 0xFC0FFFFF#32 ≠ 0xA0000000#32 := by decide

/-- Each cause, on words where two checks apply. -/
theorem witness_IllegalWordsAndTheirCauses : decode .w8 0xFFFFFFFF#32 = .illegal .reservedOpcode ∧
    decode .w8 0xA0A00001#32 = .illegal .unsupportedWidth ∧ decode .w16 0xA0A00001#32 = .illegal .reservedField := by
  decide

theorem witness_CmdWriteExecutesTheDecodedCommand :
    ∃ s : State, s.pending = .write 0x007#9 0xF#4 0x05800000#32 :: [] ∧ 0x007#9 &&& 0x1FC#9 = 0x004#9 ∧
      decode s.params.width 0x05800000#32 = .legal (.clr .v3) :=
  ⟨(part .w5).setPending [.write 0x007#9 0xF#4 0x05800000#32], rfl, by decide, by decide⟩

/-- Each cause, with ILL clear and with ILL set. -/
theorem witness_IllegalCommandOnlyRecords :
    ∀ x ∈ [(0x18000000#32, Cause.reservedOpcode), (0xA0A00000#32, Cause.unsupportedWidth), (0x00000001#32, Cause.reservedField)],
      ∀ b : Bool, ∃ s : State, s.pending = .write 0x004#9 0xF#4 x.1 :: [] ∧ 0x004#9 &&& 0x1FC#9 = 0x004#9 ∧
        decode s.params.width x.1 = .illegal x.2 ∧ s.ill = b := by
  intro x hx b
  have words : ∀ x ∈ [(0x18000000#32, Cause.reservedOpcode), (0xA0A00000#32, Cause.unsupportedWidth),
      (0x00000001#32, Cause.reservedField)], decode .w8 x.1 = .illegal x.2 := by decide
  exact ⟨((part .w8).setRecord b 1#4 0#32).setPending [commandWrite x.1], rfl, by decide, words x hx, rfl⟩

theorem witness_IllTellsWhetherASequenceWasLegal : (part .w8).ill = false ∧
    decode (part .w8).params.width 0x00000000#32 = .legal .nop ∧
    decode (part .w8).params.width 0x00000001#32 = .illegal .reservedField := by decide

/-- A state with an illegal command pending, in the invariant. -/
theorem part_limbsExact (w : Width) : (part w).LimbsExact := by
  intro r
  cases r <;> cases w <;> rfl

theorem witness_StepKeepsTheInvariant :
    ((part .w8).setPending [commandWrite 0xA0A00001#32]).Inv ∧
      ∃ t : State, step ((part .w8).setPending [commandWrite 0xA0A00001#32]) = .next t ∧ t.ill = true :=
  ⟨⟨part_limbsExact .w8, rfl, fun _ => ⟨by simp [part, State.resetOf, State.setPending], by decide⟩,
    fun _ => by simp [part, State.resetOf, State.setPending, State.OneOrderFlag],
    fun _ h => by cases h⟩, _, rfl, by decide +kernel⟩

theorem witness_ResetEventSetsEveryPieceOfState_and_ResetMeetsTheInvariant :
    ((put .v1 [1, 2, 3, 4, 5] (part .w5)).setPending [.reset]).pending = .reset :: [] := rfl

theorem witness_StepKeepsTheParameters : ∃ t : State, step ((part .w5).setPending [.powerLoss]) = .next t := ⟨_, rfl⟩

theorem witness_StepForgetsNoIllegalCommand :
    (∃ t : State, step (((part .w5).addIllegal ⟨.reservedField, 1#32⟩).setPending [.reset]) = .next t) ∧
    ((part .w5).setPending [commandWrite 0xFC000000#32]).pending = .write 0x004#9 0xF#4 0xFC000000#32 :: [] ∧
    0x004#9 &&& 0x1FC#9 = 0x004#9 ∧ decode .w5 0xFC000000#32 = .illegal .reservedOpcode :=
  ⟨⟨_, rfl⟩, rfl, by decide, by decide⟩

theorem witness_LegalRunsNeverSetIll :
    ∃ t : State, Host.Core.run Sys2Proof.core 1 (((part .w5).setRecord true 1#4 0#32).setPending [commandWrite 0#32]) = .next t ∧
      t.illegalLog = [] ∧ Access.powerLoss ∉ [commandWrite 0#32] ∧ t.ill = true :=
  ⟨_, rfl, by decide +kernel, by decide, by decide +kernel⟩

/-- A CMP, and a reset, that change the flags. -/
theorem witness_OrderFlagsChangeOnlyByCompares :
    (∃ t : State, step ((part .w5).setPending [commandWrite 0x50140000#32]) = .next t ∧ ¬SameFlags (part .w5) t) ∧
    ∃ t : State, step (((part .w5).setOrder true false false).setPending [.reset]) = .next t ∧
      ¬SameFlags ((part .w5).setOrder true false false) t :=
  ⟨⟨_, rfl, fun h => absurd h.2.1 (by decide +kernel)⟩, ⟨_, rfl, fun h => absurd h.1 (by decide)⟩⟩

/-- An LDI64 that changes V1, an INC v2, v1 that changes V1 through RA, and a reset that changes V1. -/
theorem witness_ValueRegistersChangeOnlyByCommands :
    (∃ t : State, step (((part .w5).setArg 7#64).setPending [commandWrite 0x0C800000#32]) = .next t ∧
      t.reg .v1 ≠ (part .w5).reg .v1) ∧
    (∃ t : State, step ((part .w5).setPending [commandWrite 0x31100000#32]) = .next t ∧ t.reg .v1 ≠ (part .w5).reg .v1) ∧
    ∃ t : State, step ((put .v1 max5 (part .w5)).setPending [.reset]) = .next t ∧
      t.reg .v1 ≠ (put .v1 max5 (part .w5)).reg .v1 :=
  ⟨⟨_, rfl, by decide +kernel⟩, ⟨_, rfl, by decide +kernel⟩, ⟨_, rfl, by decide +kernel⟩⟩

/-- One command of each clause: ADD satisfies all five, GET64, TOHEX and CMP are the exceptions. -/
theorem witness_CommandsWriteOnlyTheirState :
    (∃ t : State, exec (.add .v1 .v2 .v3) (part .w5) = .next t) ∧ Instr.op (.add .v1 .v2 .v3) ≠ .get64 ∧
    Instr.op (.add .v1 .v2 .v3) ≠ .tobytes ∧ Instr.op (.add .v1 .v2 .v3) ≠ .tohex ∧
    Instr.op (.add .v1 .v2 .v3) ≠ .cmp ∧ Instr.op (.add .v1 .v2 .v3) ≠ .cmpeq64 :=
  ⟨⟨_, rfl⟩, by decide, by decide, by decide, by decide, by decide⟩

theorem witness_LegalCommandsCompleteAndRecordNothing : WellFormed (part .w16).params.width (.trim .v1 .v2) = true := by
  decide

theorem witness_CommandsSeeOnlyTheBlock : SameBlock (part .w5) (((part .w5).setPending [.reset]).setDraws 3) :=
  ⟨rfl, rfl, rfl, rfl, rfl, rfl, rfl, rfl, rfl, rfl, rfl, rfl⟩

theorem witness_NopChangesNothing : (0x00000000#32).toNat / 2 ^ 26 = 0 ∧ (0x03FFFFFF#32).toNat / 2 ^ 26 = 0 := by decide

/-- `LimbsExact`, for every statement that assumes it, on every width. -/
theorem witness_LimbsExact : (part .w5).LimbsExact ∧ (part .w8).LimbsExact ∧ (part .w16).LimbsExact :=
  ⟨part_limbsExact .w5, part_limbsExact .w8, part_limbsExact .w16⟩

/-- Each clause's hypothesis; in the first also the source's in-place form, rd = re = ra = v1 and rb = v2. -/
theorem witness_AddThenSubGivesTheOperandBack : (part .w5).LimbsExact ∧ Reg.v1 ≠ Reg.v2 ∧ Reg.v4 ≠ Reg.v1 :=
  ⟨part_limbsExact .w5, by decide, by decide⟩

/-- Limb 0, the top limb with every limb below it wrapped, and a limb with one below it that is not. -/
theorem witness_IncDecChainsCarryThroughWrappedLimbs :
    max5.length = Width.w5.limbs ∧ (∀ j, j < 4 → limb max5 j = 0xFFFFFFFF#32) ∧
    (∃ j, j < 1 ∧ limb (zeroValue .w5) j ≠ 0xFFFFFFFF#32) ∧ (∀ j, j < 4 → limb (zeroValue .w5) j = 0#32) ∧
    ∃ j, j < 4 ∧ limb max5 j ≠ 0#32 := by decide

/-- The boundary limbs of a shift by 33 on W = 5. -/
theorem witness_ShifterPlacesTheLimbs : 33 / 32 ≤ 1 ∧ 33 % 32 ≠ 0 ∧ 33 / 32 + 1 ≤ 2 ∧ 3 + 33 / 32 < 5 ∧ ¬(4 + 33 / 32 < 5) ∧
    2 + 33 / 32 + 1 < 5 := by decide

theorem witness_ShiftsMultiplyAndDivide : max5.length = Width.w5.limbs := by decide

theorem witness_ShiftLawsHold : max5.length = Width.w5.limbs ∧ Width.w5.bits ≤ 160 := by decide

theorem witness_TobytesWritesTheBinaryForm : (part .w5).LimbsExact ∧ 19 < 4 * (part .w5).limbs ∧ (part .w5).params.width.bytes ≤ 20 :=
  ⟨part_limbsExact .w5, by decide, by decide⟩

/-- BLEN = B and BLEN = B − 1, and a second state that differs only at byte B. -/
theorem witness_FrombytesReadsTheBinaryForm :
    ((part .w5).setBlen 20#32).blen.toNat = 4 * (part .w5).limbs ∧ ((part .w5).setBlen 19#32).blen.toNat ≠ 4 * (part .w5).limbs ∧
    ((part .w5).writeBytes 20 [1#8]).params = (part .w5).params ∧ ((part .w5).writeBytes 20 [1#8]).blen = (part .w5).blen ∧
    ∀ k, k < 4 * (part .w5).limbs → ((part .w5).writeBytes 20 [1#8]).readByte k = (part .w5).readByte k := by
  decide +kernel

theorem witness_TohexWritesTheHexForm : (part .w16).LimbsExact ∧ 127 < 8 * (part .w16).limbs ∧ (part .w16).params.width.chars ≤ 128 :=
  ⟨part_limbsExact .w16, by decide, by decide⟩

/-- A space, each mark and the digits `1f`. -/
theorem witness_CleanHexTextParsesToItsNumber :
    ∀ mark ∈ hexMarks, HoldsText (text ([0x20#8] ++ mark ++ [0x31#8, 0x66#8]) (part .w5)) ([0x20#8] ++ mark ++ [0x31#8, 0x66#8]) ∧
      (∀ c ∈ [0x20#8], isSpace c = true) ∧ ∀ d ∈ [0x31#8, 0x66#8], isHexDigit d = true := by
  simp only [HoldsText]
  decide +kernel

/-- `12g4` in both modes, `-5` (no digits, no mark) and `0g` (the digit run a prefix could begin with). -/
theorem witness_StrayByteEndsTheRunOrCountsAsZero :
    (HoldsText (text [0x31#8, 0x32#8, 0x67#8, 0x34#8] (part .w5)) [0x31#8, 0x32#8, 0x67#8, 0x34#8] ∧
      HoldsText (text [0x31#8, 0x32#8, 0x67#8, 0x34#8] (partZero .w5)) [0x31#8, 0x32#8, 0x67#8, 0x34#8] ∧
      (∀ d ∈ [0x31#8, 0x32#8], isHexDigit d = true) ∧ isHexDigit 0x67#8 = false) ∧
    (HoldsText (text [0x2D#8, 0x35#8] (part .w5)) [0x2D#8, 0x35#8] ∧ isHexDigit 0x2D#8 = false ∧ isSpace 0x2D#8 = false) ∧
    HoldsText (text [0x30#8, 0x67#8] (part .w5)) [0x30#8, 0x67#8] ∧ 0x67#8 ≠ 0x78#8 ∧ 0x67#8 ≠ 0x58#8 := by
  simp only [HoldsText]
  decide +kernel

/-- On W = 5: word 2 has its low limb only, word 3 has none. -/
theorem witness_Get64ReadsOneWordOfAValue : 2 * 2 < (part .w5).limbs ∧ ¬(2 * 2 + 1 < (part .w5).limbs) ∧
    ¬(2 * 3 < (part .w5).limbs) := by decide

theorem witness_TrimKeepsTheLow256Bits : (part .w16).params.width = .w16 ∧ (part .w8).params.width ≠ .w16 ∧
    (part .w8).ill = false := by decide

theorem witness_TrimmedValueReachesAW8Part : (part .w16).params.width = .w16 ∧ (part .w8).params.width = .w8 ∧
    (part .w16).LimbsExact := ⟨rfl, rfl, part_limbsExact .w16⟩

/-- Every offset at which a clause begins or ends, with the low two bits set. -/
theorem witness_HostReadReturnsTheRegister :
    (∀ off : BitVec 9, ∃ s : State, s.pending = .read off :: []) ∧
    [0x003#9, 0x007#9, 0x00B#9, 0x00F#9, 0x013#9, 0x017#9, 0x01B#9, 0x01F#9, 0x023#9, 0x027#9, 0x0FF#9, 0x103#9, 0x1FF#9].map
      (fun off => (off &&& 0x1FC#9).toNat) =
    [0x000, 0x004, 0x008, 0x00C, 0x010, 0x014, 0x018, 0x01C, 0x020, 0x024, 0x0FC, 0x100, 0x1FC] :=
  ⟨fun off => ⟨(part .w5).setPending [.read off], rfl⟩, by decide⟩

theorem witness_StatusWriteClearsOnlyIllAndCause :
    ((part .w5).setPending [writeWord 0x00B#9 0x8#32]).pending = .write 0x00B#9 0xF#4 0x8#32 :: [] ∧
    0x00B#9 &&& 0x1FC#9 = 0x008#9 ∧ (0x8#32).getLsbD 3 = true ∧ (0xFFFFFFF7#32).getLsbD 3 = false := by decide

/-- The first and the last offset of the first and the last BUF word. -/
theorem witness_BufWordsArePackedLittleEndian :
    (∀ off : BitVec 9, ∃ s : State, s.pending = .write off 0xF#4 0x11223344#32 :: []) ∧
    [0x100#9, 0x103#9, 0x1FC#9, 0x1FF#9].map (fun off => (off &&& 0x1FC#9).toNat) =
      [0x100 + 4 * 0, 0x100 + 4 * 0, 0x100 + 4 * 63, 0x100 + 4 * 63] :=
  ⟨fun off => ⟨(part .w5).setPending [.write off 0xF#4 0x11223344#32], rfl⟩, by decide⟩

/-- Every offset at which a clause begins or ends. -/
theorem witness_HostWritesStoreOrAreIgnored :
    (∀ (off : BitVec 9) (w : Word), ∃ s : State, s.pending = .write off 0xF#4 w :: []) ∧
    [0x003#9, 0x00F#9, 0x013#9, 0x017#9, 0x01B#9, 0x01F#9, 0x023#9, 0x027#9, 0x0FF#9].map (fun off => (off &&& 0x1FC#9).toNat) =
      [0x000, 0x00C, 0x010, 0x014, 0x018, 0x01C, 0x020, 0x024, 0x0FC] :=
  ⟨fun off w => ⟨(part .w5).setPending [writeWord off w], rfl⟩, by decide⟩

/-- One lane, no lane and all lanes. -/
theorem witness_NarrowWriteStoresAWholeBusWord :
    ∀ lanes ∈ [0x1#4, 0x0#4, 0xF#4], ∃ s : State, s.pending = .write 0x010#9 lanes 0x12345678#32 :: [] :=
  fun lanes _ => ⟨(part .w5).setPending [.write 0x010#9 lanes 0x12345678#32], rfl⟩

theorem witness_AssemblerEmitsOnlyLegalWords : assembleLine .w16 "trim v1, v2".toList = some 0xA0A00000#32 := by
  decide +kernel

end Sys2Proof.Tests
end

section
/-! PROOFS. The family of 00_scope.md: what an instance of the block fixes stays fixed (R2, R7). -/

namespace Sys2Proof.Machine

/-- No access, reset and loss of power included, writes the instance's parameters (00_scope.md R2, R7). -/
theorem performAccess_params {a : Access} {s t : State} (h : performAccess a s = .next t) : t.params = s.params := by
  cases a
  case write off lanes data =>
    obtain ⟨hparams, _⟩ := writeWindow_outside h
    exact hparams
  case read off | reset | powerLoss =>
    all_goals
      obtain rfl := Host.Outcome.next.inj h
      rfl

end Sys2Proof.Machine

namespace Sys2Proof.Certificates

open Sys2Proof.Machine

/-- Settles O13: a step is nothing or one access, and no access writes the parameters. -/
theorem stepKeepsTheParameters : Obligations.StepKeepsTheParameters := by
  intro s t h
  rcases step_cases h with ⟨_, rfl⟩ | ⟨a, rest, _, ha⟩
  · rfl
  · calc t.params = (s.setPending rest).params := performAccess_params ha
      _ = s.params := State.setPending_params s rest

end Sys2Proof.Certificates
end

section
/-! PROOFS. The family of 10_state.md, the invariant: one rule for each operation of the model that writes a state, then a
command, a host write, an access, a step (R21, R28, R33, R35). -/

namespace Sys2Proof.Machine

open Sys2Proof.Certificates

variable {s t : State}

/-- The invariant reads the value registers, BUF, the order flags, the record and `known`, and nothing else. -/
theorem State.Inv.of_same (h : s.Inv) (hregs : t.LimbsExact) (hbuf : Memory.wf t.buf = true) (hflags : SameFlags s t)
    (hrecord : SameRecord s t) (hknown : t.known = s.known) : t.Inv := by
  obtain ⟨hlt, heq, hgt⟩ := hflags
  obtain ⟨hill, hcause, herrcmd, hlog⟩ := hrecord
  refine ⟨hregs, hbuf, fun hk => ?_, fun hk => ?_, fun hk => ?_⟩ <;> rw [hknown] at hk
  · simpa only [State.CauseMatchesIll, hill, hcause] using h.causeMatchesIll hk
  · simpa only [State.OneOrderFlag, hlt, heq, hgt] using h.oneOrderFlag hk
  · simpa only [State.RecordIsReal, hill, hcause, herrcmd, hlog] using h.recordIsReal hk

theorem State.Inv.setPending (h : s.Inv) (l : List Access) : (s.setPending l).Inv :=
  h.of_same h.limbsExact h.bufCanonical ⟨rfl, rfl, rfl⟩ ⟨rfl, rfl, rfl, rfl⟩ rfl

theorem State.Inv.setResponse (h : s.Inv) (x : Response) : (s.setResponse x).Inv :=
  h.of_same h.limbsExact h.bufCanonical ⟨rfl, rfl, rfl⟩ ⟨rfl, rfl, rfl, rfl⟩ rfl

theorem State.Inv.setDraws (h : s.Inv) (n : Nat) : (s.setDraws n).Inv :=
  h.of_same h.limbsExact h.bufCanonical ⟨rfl, rfl, rfl⟩ ⟨rfl, rfl, rfl, rfl⟩ rfl

theorem State.Inv.setArg (h : s.Inv) (v : DWord) : (s.setArg v).Inv :=
  h.of_same h.limbsExact h.bufCanonical ⟨rfl, rfl, rfl⟩ ⟨rfl, rfl, rfl, rfl⟩ rfl

theorem State.Inv.setRes (h : s.Inv) (v : DWord) : (s.setRes v).Inv :=
  h.of_same h.limbsExact h.bufCanonical ⟨rfl, rfl, rfl⟩ ⟨rfl, rfl, rfl, rfl⟩ rfl

theorem State.Inv.setBlen (h : s.Inv) (v : Word) : (s.setBlen v).Inv :=
  h.of_same h.limbsExact h.bufCanonical ⟨rfl, rfl, rfl⟩ ⟨rfl, rfl, rfl, rfl⟩ rfl

/-- A block write that stays inside BUF keeps its canonical form. -/
theorem State.Inv.writeBytes (h : s.Inv) {a : Nat} {bs : List Byte} (hlen : a + bs.length ≤ 256) :
    (s.writeBytes a bs).Inv :=
  h.of_same h.limbsExact (Memory.wf_writeBytes bs s.buf a h.bufCanonical hlen) ⟨rfl, rfl, rfl⟩ ⟨rfl, rfl, rfl, rfl⟩ rfl

theorem State.Inv.setOrder (h : s.Inv) {l e g : Bool} (hone : (s.setOrder l e g).OneOrderFlag) :
    (s.setOrder l e g).Inv :=
  ⟨h.limbsExact, h.bufCanonical, h.causeMatchesIll, fun _ => hone, h.recordIsReal⟩

/-- A command that writes value registers writes nothing else of the state. -/
theorem WritesRegs.sameButRegs {i : Instr} (hw : WritesRegs i s t) :
    SameScalars s t ∧ SameFlags s t ∧ SameRecord s t ∧ SameOutside s t ∧ t.buf = s.buf := by
  rw [hw.same]
  exact ⟨⟨rfl, rfl, rfl⟩, ⟨rfl, rfl, rfl⟩, ⟨rfl, rfl, rfl, rfl⟩, ⟨rfl, rfl, rfl, rfl, rfl⟩, rfl⟩

theorem State.Inv.writesRegs {i : Instr} (h : s.Inv) (hw : WritesRegs i s t) : t.Inv := by
  obtain ⟨_, hflags, hrecord, ⟨_, _, _, _, hknown⟩, hbuf⟩ := hw.sameButRegs
  exact h.of_same (hw.exact_ h.limbsExact) (hbuf ▸ h.bufCanonical) hflags hrecord hknown

/-- No cause has the code 0, which stands for "none", and 4 to 15 are never produced (10_state.md R33). -/
theorem causeCode_range (k : Cause) : causeCode k ≠ 0#4 ∧ (causeCode k).toNat ≤ 3 := by
  cases k <;> decide

/-- An illegal command is recorded whole, or the record that stands is kept (60_exceptions.md R213). -/
theorem State.Inv.raiseIllegal (h : s.Inv) (k : Cause) (c : Word) : (raiseIllegal k c s).Inv := by
  have hmatch : s.known = true → (Machine.raiseIllegal k c s).CauseMatchesIll := by
    intro hk
    obtain ⟨hnone, hle⟩ := h.causeMatchesIll hk
    cases hill : s.ill with
    | false => simp [State.CauseMatchesIll, (raiseIllegal_first k c s hill).1, causeCode_range k]
    | true => simp [State.CauseMatchesIll, (raiseIllegal_kept k c s hill).1, hnone, hill, hle]
  have hreal : s.known = true → (Machine.raiseIllegal k c s).RecordIsReal := by
    intro hk _
    cases hill : s.ill with
    | false =>
      obtain ⟨hcause, herrcmd⟩ := raiseIllegal_first k c s hill
      exact ⟨⟨k, c⟩, by simp, hcause, herrcmd⟩
    | true =>
      obtain ⟨hcause, herrcmd⟩ := raiseIllegal_kept k c s hill
      obtain ⟨r, hr, hrc, hre⟩ := h.recordIsReal hk hill
      exact ⟨r, by simp [hr], hcause.trans hrc, herrcmd.trans hre⟩
  exact ⟨fun r => by simpa using h.limbsExact r, by simpa using h.bufCanonical,
    fun hk => hmatch (by simpa using hk),
    fun hk => by simpa [State.OneOrderFlag] using h.oneOrderFlag (by simpa using hk),
    fun hk => hreal (by simpa using hk)⟩

/-- The return from an illegal command (10_state.md R34): ILL and CAUSE are cleared together. -/
theorem State.Inv.clearIllegal (h : s.Inv) : (clearIllegal s).Inv :=
  ⟨h.limbsExact, h.bufCanonical, fun _ => ⟨by simp [Machine.clearIllegal], by simp [Machine.clearIllegal]⟩,
    h.oneOrderFlag, fun _ hill => by simp [Machine.clearIllegal] at hill⟩

theorem State.resetOf_inv (p : Params) : (State.resetOf p).Inv where
  limbsExact := fun r => (congrArg List.length (State.resetOf_reg p r)).trans (length_zeroValue p.width)
  bufCanonical := rfl
  causeMatchesIll := fun _ => by simp [State.CauseMatchesIll, State.resetOf]
  oneOrderFlag := fun _ => by simp [State.OneOrderFlag, State.resetOf]
  recordIsReal := fun _ hill => by simp [State.resetOf] at hill

/-- Reset gives the invariant whatever the state was: nothing is recorded as illegal, so the log kept does not matter. -/
theorem resetBlock_inv (s : State) : (resetBlock s).Inv := by
  have h := State.resetOf_inv s.params
  exact ⟨h.limbsExact, h.bufCanonical, h.causeMatchesIll, h.oneOrderFlag,
    fun _ hill => by simp [resetBlock, State.resetOf] at hill⟩

/-- After a loss of power only the shape is left: W limbs in each register, 256 bytes in BUF (60_exceptions.md R225, log 9). -/
theorem losePower_inv (s : State) : (losePower s).Inv := by
  have hunknown : (losePower s).known = true → False := by simp [losePower]
  have hbuf : Memory.wf (losePower s).buf = true := by
    unfold losePower
    apply Memory.wf_writeBytes
    · exact Memory.wf_nil
    · simp
  exact ⟨fun r => by simp [losePower, State.reg, State.limbs], hbuf,
    fun hk => (hunknown hk).elim, fun hk => (hunknown hk).elim, fun hk => (hunknown hk).elim⟩

theorem exec_keeps_inv {i : Instr} (h : s.Inv) (hx : exec i s = .next t) : t.Inv := by
  rcases exec_cases hx with ⟨hw, _⟩ | ⟨_, v, rfl⟩ | ⟨_, l, e, g, rfl, hone⟩ | ⟨_, bs, n, rfl, hlen⟩ | ⟨_, _, rfl⟩
  · exact h.writesRegs hw
  · exact h.setRes v
  · exact h.setOrder hone
  · exact (h.writeBytes (by omega)).setBlen n
  · exact h.raiseIllegal _ _

theorem issueCommand_keeps_inv {c : Word} (h : s.Inv) (hx : issueCommand c s = .next t) : t.Inv := by
  rcases issueCommand_cases hx with ⟨i, _, hi⟩ | ⟨cause, _, rfl⟩
  · exact exec_keeps_inv h hi
  · exact h.raiseIllegal cause c

theorem writeWindow_keeps_inv {off : BitVec 9} {w : Word} (h : s.Inv) (hx : writeWindow off w s = .next t) : t.Inv := by
  rcases writeWindow_cases hx with ⟨_, hc⟩ | ⟨_, rfl | rfl | ⟨v, rfl⟩ | ⟨v, rfl⟩ | ⟨j, hj, rfl⟩⟩
  · exact issueCommand_keeps_inv h hc
  · exact h
  · exact h.clearIllegal
  · exact h.setArg v
  · exact h.setBlen v
  · have hlt := windowReg_buf_lt hj
    exact h.writeBytes (by simp; omega)

theorem performAccess_keeps_inv {a : Access} (h : s.Inv) (hx : performAccess a s = .next t) : t.Inv := by
  cases a with
  | write off lanes data => exact writeWindow_keeps_inv ((h.setResponse _).setDraws _) hx
  | read off =>
    obtain rfl := Host.Outcome.next.inj hx
    exact h.setResponse _
  | reset =>
    obtain rfl := Host.Outcome.next.inj hx
    exact resetBlock_inv s
  | powerLoss =>
    obtain rfl := Host.Outcome.next.inj hx
    exact losePower_inv s

end Sys2Proof.Machine

namespace Sys2Proof.Certificates

open Sys2Proof.Machine

/-- Settles O9: a step is nothing or one access, and every access keeps the invariant. -/
theorem stepKeepsTheInvariant : Obligations.StepKeepsTheInvariant := by
  intro s t h hstep
  rcases step_cases hstep with ⟨_, rfl⟩ | ⟨a, rest, _, ha⟩
  · exact h
  · exact performAccess_keeps_inv (h.setPending rest) ha

/-- Settles O10: the reset state meets the invariant on every part, and a reset event leads to it from every state. -/
theorem resetMeetsTheInvariant : Obligations.ResetMeetsTheInvariant := by
  refine ⟨State.resetOf_inv, fun s rest hp => ?_⟩
  exact ⟨resetBlock (s.setPending rest), step_cons hp, resetBlock_inv _, rfl⟩

end Sys2Proof.Certificates
end

section
/-! PROOFS. The family of 10_state.md, the commands: which parts of the state each command writes (section 1, R20, R24 to
R28), and that it reads none but the block's own (R30). -/

namespace Sys2Proof.Machine

open Sys2Proof.Certificates

/-! ## What a command writes -/

section Writes

variable {i : Instr} {s t : State}

/-- No command writes ARG (10_state.md R24). -/
theorem exec_arg (hx : exec i s = .next t) : t.arg = s.arg := by
  rcases exec_cases hx with ⟨hw, _⟩ | ⟨_, v, rfl⟩ | ⟨_, l, e, g, rfl, _⟩ | ⟨_, bs, n, rfl, _⟩ | ⟨_, _, rfl⟩
  · obtain ⟨⟨harg, _⟩, _⟩ := hw.sameButRegs
    exact harg
  all_goals simp

/-- Only GET64 writes RES (10_state.md R25). -/
theorem exec_res (hx : exec i s = .next t) (hop : i.op ≠ .get64) : t.res = s.res := by
  rcases exec_cases hx with ⟨hw, _⟩ | ⟨hget, _⟩ | ⟨_, l, e, g, rfl, _⟩ | ⟨_, bs, n, rfl, _⟩ | ⟨_, _, rfl⟩
  · obtain ⟨⟨_, hres, _⟩, _⟩ := hw.sameButRegs
    exact hres
  · exact absurd hget hop
  all_goals simp

/-- Only TOBYTES and TOHEX write BLEN and BUF (10_state.md R26, R27). -/
theorem exec_blen_buf (hx : exec i s = .next t) (hbytes : i.op ≠ .tobytes) (hhex : i.op ≠ .tohex) :
    t.blen = s.blen ∧ t.buf = s.buf := by
  rcases exec_cases hx with ⟨hw, _⟩ | ⟨_, v, rfl⟩ | ⟨_, l, e, g, rfl, _⟩ | ⟨hser, _⟩ | ⟨_, _, rfl⟩
  · obtain ⟨⟨_, _, hblen⟩, _, _, _, hbuf⟩ := hw.sameButRegs
    exact ⟨hblen, hbuf⟩
  case inr.inr.inr.inl => exact (hser.elim hbytes hhex).elim
  all_goals simp

/-- Only CMP and CMPEQ64 write LT, EQ and GT (10_state.md R28). -/
theorem exec_sameFlags (hx : exec i s = .next t) (hcmp : i.op ≠ .cmp) (hcmpeq : i.op ≠ .cmpeq64) : SameFlags s t := by
  rcases exec_cases hx with ⟨hw, _⟩ | ⟨_, v, rfl⟩ | ⟨hord, _⟩ | ⟨_, bs, n, rfl, _⟩ | ⟨_, _, rfl⟩
  · obtain ⟨_, hflags, _⟩ := hw.sameButRegs
    exact hflags
  case inr.inr.inl => exact (hord.elim hcmp hcmpeq).elim
  all_goals simp [SameFlags]

/-- A command writes no value register but its destinations (10_state.md R20). -/
theorem exec_reg_of_not_dest {q : Reg} (hx : exec i s = .next t) (hq : q ∉ destRegs i) : t.reg q = s.reg q := by
  rcases exec_cases hx with ⟨hw, _⟩ | ⟨_, v, rfl⟩ | ⟨_, l, e, g, rfl, _⟩ | ⟨_, bs, n, rfl, _⟩ | ⟨_, _, rfl⟩
  · exact hw.frame q hq
  all_goals simp

end Writes

/-! ## The destinations and the comparisons, by the fields of the command word -/

/-- A destination is the RD field of a format that has one, or the RA field of INC, DEC, PINC, PDEC (30_encoding.md R73). -/
theorem mem_destRegs {i : Instr} {q : Reg} (hq : q ∈ destRegs i) :
    (i.fields.rd = q ∧ i.op.format ∈ [Format.FD, .FDA, .FDAB, .FDAI]) ∨
      (i.fields.ra = q ∧ i.op ∈ [Op.inc, Op.dec, Op.pinc, Op.pdec]) := by
  cases i
  case inc rd ra | dec rd ra | pinc rd ra | pdec rd ra =>
    all_goals
      rcases List.mem_pair.1 hq with rfl | rfl
      · exact .inl ⟨rfl, by simp [Instr.op, Op.format]⟩
      · exact .inr ⟨rfl, by simp [Instr.op]⟩
  case nop | cmp | cmpeq64 | tobytes | tohex | get64 => all_goals cases hq
  all_goals
    obtain rfl := List.mem_singleton.1 hq
    exact .inl ⟨rfl, by simp [Instr.op, Op.format]⟩

theorem eq_cmp_of_op {i : Instr} (h : i.op = .cmp) : ∃ ra rb : Reg, i = .cmp ra rb := by
  cases i <;> cases h
  exact ⟨_, _, rfl⟩

theorem eq_cmpeq64_of_op {i : Instr} (h : i.op = .cmpeq64) : ∃ ra : Reg, i = .cmpeq64 ra := by
  cases i <;> cases h
  exact ⟨_, rfl⟩

/-! ## What a step writes -/

/-- The value registers and the order flags are the same in two states. -/
def SameRegsAndFlags (s t : State) : Prop := t.regs = s.regs ∧ SameFlags s t

/-- A host write reaches the value registers and the order flags only through a legal command written to CMD. -/
theorem writeWindow_command_or_same {off : BitVec 9} {w : Word} {s t : State} (hx : writeWindow off w s = .next t) :
    SameRegsAndFlags s t ∨
      ∃ i : Instr, off &&& 0x1FC#9 = 0x004#9 ∧ decode s.params.width w = .legal i ∧ exec i s = .next t := by
  rcases writeWindow_cases hx with ⟨hcmd, hc⟩ | ⟨_, rfl | rfl | ⟨v, rfl⟩ | ⟨v, rfl⟩ | ⟨j, _, rfl⟩⟩
  · rcases issueCommand_cases hc with ⟨i, hd, hi⟩ | ⟨cause, _, rfl⟩
    · exact .inr ⟨i, (windowReg_cmd_iff off).1 hcmd, hd, hi⟩
    · exact .inl (by simp [SameRegsAndFlags, SameFlags])
  all_goals exact .inl ⟨rfl, rfl, rfl, rfl⟩

/-- A step that writes a value register or an order flag performs a reset, a loss of power or a legal command. -/
theorem step_command_or_same {s t : State} (hstep : step s = .next t) :
    SameRegsAndFlags s t ∨
      ∃ (a : Access) (rest : List Access), s.pending = a :: rest ∧
        (a = .reset ∨ a = .powerLoss ∨
          ∃ (off : BitVec 9) (lanes : BitVec 4) (data : Word) (i : Instr) (u : State), a = .write off lanes data ∧
            off &&& 0x1FC#9 = 0x004#9 ∧ decode s.params.width (busWord lanes data s.draws) = .legal i ∧
            SameRegsAndFlags s u ∧ exec i u = .next t) := by
  rcases step_cases hstep with ⟨_, rfl⟩ | ⟨a, rest, hp, ha⟩
  · exact .inl ⟨rfl, rfl, rfl, rfl⟩
  cases a with
  | reset => exact .inr ⟨_, rest, hp, .inl rfl⟩
  | powerLoss => exact .inr ⟨_, rest, hp, .inr (.inl rfl)⟩
  | read off =>
    obtain rfl := Host.Outcome.next.inj ha
    exact .inl ⟨rfl, rfl, rfl, rfl⟩
  | write off lanes data =>
    rcases writeWindow_command_or_same ha with hsame | ⟨i, hoff, hd, hi⟩
    · exact .inl hsame
    · refine .inr ⟨_, rest, hp, .inr (.inr ⟨off, lanes, data, i, _, rfl, hoff, hd, ?_, hi⟩)⟩
      exact ⟨rfl, rfl, rfl, rfl⟩

end Sys2Proof.Machine

namespace Sys2Proof.Certificates

open Sys2Proof.Machine

/-! ## What a command reads -/

section Reads

variable {s u : State}

theorem SameBlock.params (h : SameBlock s u) : s.params = u.params := by
  obtain ⟨hparams, _⟩ := h
  exact hparams

theorem SameBlock.arg (h : SameBlock s u) : s.arg = u.arg := by
  obtain ⟨_, _, harg, _⟩ := h
  exact harg

theorem SameBlock.blen (h : SameBlock s u) : s.blen = u.blen := by
  obtain ⟨_, _, _, _, hblen, _⟩ := h
  exact hblen

theorem SameBlock.limbs (h : SameBlock s u) : s.limbs = u.limbs := by
  rw [State.limbs, h.params, State.limbs]

theorem SameBlock.reg (h : SameBlock s u) (r : Reg) : s.reg r = u.reg r := by
  obtain ⟨_, hregs, _⟩ := h
  rw [State.reg, hregs, State.reg]

theorem SameBlock.readByte (h : SameBlock s u) : s.readByte = u.readByte := by
  obtain ⟨_, _, _, _, _, hbuf, _⟩ := h
  funext k
  rw [State.readByte, hbuf, State.readByte]

theorem SameBlock.argValue (h : SameBlock s u) : argValue s = argValue u := by
  rw [Machine.argValue, h.limbs, h.arg, Machine.argValue]

theorem SameBlock.argAmount (h : SameBlock s u) : argAmount s = argAmount u := by
  rw [Machine.argAmount, h.arg, Machine.argAmount]

theorem SameBlock.textBytes (h : SameBlock s u) : textBytes s = textBytes u := by
  rw [Machine.textBytes, textLength, h.blen, h.readByte, Machine.textBytes, textLength]

theorem SameBlock.setReg (h : SameBlock s u) (r : Reg) {v w : Value} (hv : v = w) :
    SameBlock (s.setReg r v) (u.setReg r w) := by
  subst hv
  obtain ⟨hparams, hregs, hrest⟩ := h
  exact ⟨hparams, congrArg (fun rf => rf.set r v) hregs, hrest⟩

theorem SameBlock.setRes (h : SameBlock s u) {v w : DWord} (hv : v = w) : SameBlock (s.setRes v) (u.setRes w) := by
  obtain ⟨hparams, hregs, harg, _, hrest⟩ := h
  exact ⟨hparams, hregs, harg, hv, hrest⟩

theorem SameBlock.setBlen (h : SameBlock s u) {v w : Word} (hv : v = w) : SameBlock (s.setBlen v) (u.setBlen w) := by
  obtain ⟨hparams, hregs, harg, hres, _, hrest⟩ := h
  exact ⟨hparams, hregs, harg, hres, hv, hrest⟩

theorem SameBlock.writeBytes (h : SameBlock s u) (a : Nat) {bs cs : List Byte} (hb : bs = cs) :
    SameBlock (s.writeBytes a bs) (u.writeBytes a cs) := by
  subst hb
  obtain ⟨hparams, hregs, harg, hres, hblen, hbuf, hrest⟩ := h
  exact ⟨hparams, hregs, harg, hres, hblen, congrArg (fun m => m.writeBytes a bs) hbuf, hrest⟩

theorem SameBlock.setOrder (h : SameBlock s u) (l g : Bool) {e f : Bool} (he : e = f) :
    SameBlock (s.setOrder l e g) (u.setOrder l f g) := by
  obtain ⟨hparams, hregs, harg, hres, hblen, hbuf, _, _, _, hrecord⟩ := h
  exact ⟨hparams, hregs, harg, hres, hblen, hbuf, rfl, he, rfl, hrecord⟩

theorem SameBlock.setOrdering (h : SameBlock s u) {o p : Ordering} (ho : o = p) :
    SameBlock (setOrdering o s) (setOrdering p u) := by
  subst ho
  cases o <;> exact h.setOrder _ _ rfl

theorem SameBlock.raiseIllegal (h : SameBlock s u) (k : Cause) (c : Word) :
    SameBlock (raiseIllegal k c s) (raiseIllegal k c u) := by
  obtain ⟨hparams, hregs, harg, hres, hblen, hbuf, hlt, heq, hgt, hill, hcause, herrcmd⟩ := h
  unfold Machine.raiseIllegal
  rw [← hill]
  split
  · exact ⟨hparams, hregs, harg, hres, hblen, hbuf, hlt, heq, hgt, hill, hcause, herrcmd⟩
  · exact ⟨hparams, hregs, harg, hres, hblen, hbuf, hlt, heq, hgt, rfl, rfl, rfl⟩

end Reads

/-- Settles O21: every operand of a command is read from the block, and every shared operation keeps two states the same
block. -/
theorem commandsSeeOnlyTheBlock : Obligations.CommandsSeeOnlyTheBlock := by
  intro i s u h
  cases i
  case nop => exact ⟨s, u, rfl, rfl, h⟩
  case inc rd ra | dec rd ra | pinc rd ra | pdec rd ra =>
    all_goals exact ⟨_, _, rfl, rfl, (h.setReg ra (by rw [h.reg])).setReg rd (by rw [h.reg])⟩
  case cmp ra rb => exact ⟨_, _, rfl, rfl, h.setOrdering (by rw [h.reg, h.reg, h.limbs])⟩
  case cmpeq64 ra => exact ⟨_, _, rfl, rfl, h.setOrder _ _ (by rw [h.reg, h.arg, h.limbs])⟩
  case get64 ra imm => exact ⟨_, _, rfl, rfl, h.setRes (by rw [h.reg, h.limbs])⟩
  case tobytes ra =>
    exact ⟨_, _, rfl, rfl, (h.writeBytes 0 (by rw [h.reg, h.params])).setBlen (by rw [h.params])⟩
  case tohex ra =>
    exact ⟨_, _, rfl, rfl, (h.writeBytes 0 (by rw [h.reg, h.limbs, h.params])).setBlen (by rw [h.params])⟩
  case frombytes rd =>
    show ∃ t v, execFrombytes rd s = .next t ∧ execFrombytes rd u = .next v ∧ SameBlock t v
    unfold execFrombytes
    rw [h.blen, h.params]
    split
    · exact ⟨_, _, rfl, rfl, h.setReg rd (by rw [h.limbs, h.readByte])⟩
    · exact ⟨_, _, rfl, rfl, h.setReg rd rfl⟩
  case trim rd ra =>
    show ∃ t v, execTrim rd ra s = .next t ∧ execTrim rd ra u = .next v ∧ SameBlock t v
    unfold execTrim
    rw [h.params]
    split
    · exact ⟨_, _, rfl, rfl, h.setReg rd (by rw [h.limbs, h.reg])⟩
    · exact ⟨_, _, rfl, rfl, h.raiseIllegal _ _⟩
  all_goals
    exact ⟨_, _, rfl, rfl, h.setReg _ (by simp only [h.params, h.limbs, h.reg, h.argValue, h.argAmount, h.textBytes])⟩

/-- Settles O19: the frame of a command, part by part. -/
theorem commandsWriteOnlyTheirState : Obligations.CommandsWriteOnlyTheirState := fun _ _ _ hx =>
  ⟨exec_arg hx, exec_outside hx, exec_res hx, exec_blen_buf hx, exec_sameFlags hx⟩

/-- Settles O17: the flags change by a legal command only if its opcode is that of a comparison. -/
theorem orderFlagsChangeOnlyByCompares : Obligations.OrderFlagsChangeOnlyByCompares := by
  intro s t hstep hchange
  rcases step_command_or_same hstep with ⟨_, hsame⟩ | ⟨a, rest, hp, hkind⟩
  · exact absurd hsame hchange
  refine ⟨a, rest, hp, ?_⟩
  rcases hkind with ha | ha | ⟨off, lanes, data, i, u, ha, hoff, hd, ⟨_, hlt, heq, hgt⟩, hi⟩
  · exact .inl ha
  · exact .inr (.inl ha)
  have hcompare : i.op = .cmp ∨ i.op = .cmpeq64 := by
    by_contra hno
    obtain ⟨hcmp, hcmpeq⟩ := not_or.1 hno
    obtain ⟨hlt', heq', hgt'⟩ := exec_sameFlags hi hcmp hcmpeq
    exact hchange ⟨hlt'.trans hlt, heq'.trans heq, hgt'.trans hgt⟩
  exact .inr (.inr ⟨off, lanes, data, i, ha, hoff, hd, hcompare.imp eq_cmp_of_op eq_cmpeq64_of_op⟩)

/-- Settles O18: a register changes by a legal command only if it is one of the command's destinations. -/
theorem valueRegistersChangeOnlyByCommands : Obligations.ValueRegistersChangeOnlyByCommands := by
  intro s t q hstep hchange
  rcases step_command_or_same hstep with ⟨hsame, _⟩ | ⟨a, rest, hp, hkind⟩
  · exact absurd (congrArg (fun rf => rf.get q) hsame) hchange
  refine ⟨a, rest, hp, ?_⟩
  rcases hkind with ha | ha | ⟨off, lanes, data, i, u, ha, hoff, hd, ⟨hregs, _⟩, hi⟩
  · exact .inl ha
  · exact .inr (.inl ha)
  have hdest : q ∈ destRegs i := by
    by_contra hno
    exact hchange ((exec_reg_of_not_dest hi hno).trans (congrArg (fun rf => rf.get q) hregs))
  exact .inr (.inr ⟨off, lanes, data, i, ha, hoff, hd, mem_destRegs hdest⟩)

end Sys2Proof.Certificates
end

section
/-! PROOFS. The family of 10_state.md, the host window: which register an offset addresses, what a 32-bit write and a read of
it do (section 7, R31 to R37), and the reset values (R38). -/

namespace Sys2Proof.Machine

/-! ## Offsets -/

/-- The window is addressed in whole words (20_memory.md R51). -/
theorem offset_aligned (off : BitVec 9) : (off &&& 0x1FC#9).toNat % 4 = 0 := by
  rw [BitVec.toNat_and, show (4 : Nat) = 2 ^ 2 from rfl, Nat.and_mod_two_pow]
  simp

/-- 0x024 to 0x0FC are reserved (10_state.md R31). -/
theorem windowReg_reserved {off : BitVec 9} (hlo : 0x024 ≤ (off &&& 0x1FC#9).toNat)
    (hhi : (off &&& 0x1FC#9).toNat ≤ 0x0FC) : windowReg off = .reserved := by
  simp (disch := omega) only [windowReg, if_neg, if_pos]

/-- 0x100 and up is BUF (10_state.md R31). -/
theorem windowReg_buf {off : BitVec 9} (hlo : 0x100 ≤ (off &&& 0x1FC#9).toNat) :
    windowReg off = .buf (((off &&& 0x1FC#9).toNat - 0x100) / 4) := by
  simp (disch := omega) only [windowReg, if_neg]

/-! ## A 32-bit write -/

/-- The step of a 32-bit write, its access taken off the host's list. -/
theorem step_write_full {s : State} {off : BitVec 9} {w : Word} {rest : List Access}
    (hp : s.pending = .write off 0xF#4 w :: rest) :
    step s = writeWindow off w { s with pending := rest, response := writeResponse off } := by
  rw [step_cons hp, performAccess_write_full]
  rfl

/-- Outside CMD the host gets nothing back (20_memory.md R64, log 6). -/
theorem step_write_ne_cmd {s : State} {off : BitVec 9} {w : Word} {rest : List Access}
    (hp : s.pending = .write off 0xF#4 w :: rest) (hne : windowReg off ≠ .cmd) :
    step s = writeWindow off w { s with pending := rest, response := .none } := by
  rw [step_write_full hp, writeResponse, if_neg hne]

theorem writeWindow_cmd {off : BitVec 9} (h : windowReg off = .cmd) (w : Word) (s : State) :
    writeWindow off w s = issueCommand w s := by
  simp [writeWindow, h]

theorem writeWindow_status {off : BitVec 9} (h : windowReg off = .status) (w : Word) (s : State) :
    writeWindow off w s = .next (writeStatus w s) := by
  simp [writeWindow, h]

theorem writeWindow_argLo {off : BitVec 9} (h : windowReg off = .argLo) (w : Word) (s : State) :
    writeWindow off w s = .next (s.setArg (s.arg.extractLsb' 32 32 ++ w)) := by
  simp [writeWindow, h]

theorem writeWindow_argHi {off : BitVec 9} (h : windowReg off = .argHi) (w : Word) (s : State) :
    writeWindow off w s = .next (s.setArg (w ++ s.arg.extractLsb' 0 32)) := by
  simp [writeWindow, h]

theorem writeWindow_blen {off : BitVec 9} (h : windowReg off = .blen) (w : Word) (s : State) :
    writeWindow off w s = .next (s.setBlen w) := by
  simp [writeWindow, h]

/-- A write to a read-only or reserved register is ignored (20_memory.md R56). -/
theorem writeWindow_ignored {off : BitVec 9}
    (h : windowReg off ∈ [WindowReg.id, .errcmd, .resLo, .resHi, .reserved]) (w : Word) (s : State) :
    writeWindow off w s = .next s := by
  simp only [List.mem_cons, List.not_mem_nil, or_false] at h
  rcases h with h | h | h | h | h <;> simp [writeWindow, h]

theorem issueCommand_legal {c : Word} {s : State} {i : Instr} (hd : decode s.params.width c = .legal i) :
    issueCommand c s = exec i s := by
  simp [issueCommand, hd]

/-! ## A read -/

/-- A read takes its access off the host's list and answers the word (20_memory.md R64): the window does not show either. -/
theorem step_read {s : State} {off : BitVec 9} {rest : List Access} (hp : s.pending = .read off :: rest) :
    step s = .next { s with pending := rest, response := .data (readWindow s off) } := by
  rw [step_cons hp]
  rfl

theorem readWindow_id {off : BitVec 9} (h : windowReg off = .id) (s : State) : readWindow s off = idWord s.params.width := by
  simp [readWindow, h]

theorem readWindow_cmd {off : BitVec 9} (h : windowReg off = .cmd) (s : State) : readWindow s off = 0#32 := by
  simp [readWindow, h]

theorem readWindow_status {off : BitVec 9} (h : windowReg off = .status) (s : State) : readWindow s off = statusWord s := by
  simp [readWindow, h]

theorem readWindow_errcmd {off : BitVec 9} (h : windowReg off = .errcmd) (s : State) : readWindow s off = s.errcmd := by
  simp [readWindow, h]

theorem readWindow_argLo {off : BitVec 9} (h : windowReg off = .argLo) (s : State) : readWindow s off = s.arg.extractLsb' 0 32 := by
  simp [readWindow, h]

theorem readWindow_argHi {off : BitVec 9} (h : windowReg off = .argHi) (s : State) : readWindow s off = s.arg.extractLsb' 32 32 := by
  simp [readWindow, h]

theorem readWindow_resLo {off : BitVec 9} (h : windowReg off = .resLo) (s : State) : readWindow s off = s.res.extractLsb' 0 32 := by
  simp [readWindow, h]

theorem readWindow_resHi {off : BitVec 9} (h : windowReg off = .resHi) (s : State) : readWindow s off = s.res.extractLsb' 32 32 := by
  simp [readWindow, h]

theorem readWindow_blen {off : BitVec 9} (h : windowReg off = .blen) (s : State) : readWindow s off = s.blen := by
  simp [readWindow, h]

theorem readWindow_reserved {off : BitVec 9} (h : windowReg off = .reserved) (s : State) : readWindow s off = 0#32 := by
  simp [readWindow, h]

theorem readWindow_buf {off : BitVec 9} {j : Nat} (h : windowReg off = .buf j) (s : State) :
    readWindow s off = readBufWord s j := by
  simp [readWindow, h]

/-- ID of each part (10_state.md R36). -/
theorem idWord_eq (w : Width) :
    (w = .w5 → idWord w = 0xBF0C0105#32) ∧ (w = .w8 → idWord w = 0xBF0C0108#32) ∧
      (w = .w16 → idWord w = 0xBF0C0110#32) := by
  cases w <;> decide

/-- The bits of STATUS (10_state.md R33). -/
theorem statusWord_bits (s : State) :
    (statusWord s).getLsbD 0 = s.lt ∧ (statusWord s).getLsbD 1 = s.eq ∧ (statusWord s).getLsbD 2 = s.gt ∧
      (statusWord s).getLsbD 3 = s.ill ∧ (statusWord s).extractLsb' 4 4 = s.cause ∧
      (statusWord s).extractLsb' 8 24 = 0#24 := by
  unfold statusWord
  generalize s.cause = c
  cases s.lt <;> cases s.eq <;> cases s.gt <;> cases s.ill <;> revert c <;> decide

/-- The low and the high half of a 64-bit register, as numbers (10_state.md R24, R25). -/
theorem extract_lo_toNat (x : DWord) : (x.extractLsb' 0 32).toNat = x.toNat % 2 ^ 32 := by
  simp

theorem extract_hi_toNat (x : DWord) : (x.extractLsb' 32 32).toNat = x.toNat / 2 ^ 32 := by
  have := x.isLt
  rw [BitVec.extractLsb'_toNat, Nat.shiftRight_eq_div_pow]
  omega

/-- Byte `b` of a BUF word (20_memory.md R52). -/
theorem extract_readBufWord (s : State) (j : Nat) {b : Nat} (hb : b < 4) :
    (readBufWord s j).extractLsb' (8 * b) 8 = s.readByte (4 * j + b) := by
  rw [readBufWord, extract_packWordLE]
  interval_cases b <;> rfl

end Sys2Proof.Machine

namespace Sys2Proof.Certificates

open Sys2Proof.Machine

/-- Settles O6: the write reaches CMD, whose word is decoded and executed on the state with the access answered. -/
theorem cmdWriteExecutesTheDecodedCommand : Obligations.CmdWriteExecutesTheDecodedCommand := by
  intro s off c rest i hp hoff hd
  rw [step_write_full hp, writeResponse_cmd hoff, writeWindow_cmd ((windowReg_cmd_iff off).2 hoff)]
  exact issueCommand_legal hd

/-- Settles O54: bit 3 of the word decides whether the record is cleared. -/
theorem statusWriteClearsOnlyIllAndCause : Obligations.StatusWriteClearsOnlyIllAndCause := by
  intro s off w rest hp hoff
  have hreg : windowReg off = .status := by simp [windowReg, hoff]
  rw [step_write_ne_cmd hp (by simp [hreg]), writeWindow_status hreg]
  constructor <;> intro hbit <;> rw [writeStatus, hbit] <;> rfl

/-- Settles O56: the register the offset addresses decides where the word goes. -/
theorem hostWritesStoreOrAreIgnored : Obligations.HostWritesStoreOrAreIgnored := by
  intro s off w rest a hp ha
  refine ⟨fun hoff => ?_, fun hoff => ?_, fun hoff => ?_, fun hoff => ?_⟩
  · have hreg : windowReg off = .argLo := by simp [windowReg, ← ha, hoff]
    rw [step_write_ne_cmd hp (by simp [hreg]), writeWindow_argLo hreg]
    rfl
  · have hreg : windowReg off = .argHi := by simp [windowReg, ← ha, hoff]
    rw [step_write_ne_cmd hp (by simp [hreg]), writeWindow_argHi hreg]
    rfl
  · have hreg : windowReg off = .blen := by simp [windowReg, ← ha, hoff]
    rw [step_write_ne_cmd hp (by simp [hreg]), writeWindow_blen hreg]
    rfl
  · have hreg : windowReg off ∈ [WindowReg.id, .errcmd, .resLo, .resHi, .reserved] := by
      rcases hoff with hoff | hoff | hoff | hoff | ⟨hlo, hhi⟩
      case inr.inr.inr.inr => simp [windowReg_reserved (ha ▸ hlo) (ha ▸ hhi)]
      all_goals simp [windowReg, ← ha, hoff]
    have hne : windowReg off ≠ .cmd := by
      intro hcmd
      simp [hcmd] at hreg
    rw [step_write_ne_cmd hp hne, writeWindow_ignored hreg]

/-- Settles O53: the word read is that of the register the offset addresses. -/
theorem hostReadReturnsTheRegister : Obligations.HostReadReturnsTheRegister := by
  intro s off rest hp
  obtain ⟨a, ha⟩ : ∃ a : Nat, (off &&& 0x1FC#9).toNat = a := ⟨_, rfl⟩
  refine ⟨readWindow s off, a, ha.symm, step_read hp, fun hoff => ?_, fun hoff => ?_, fun hoff => ?_, fun hoff => ?_,
    fun hoff => ?_, fun hoff => ?_, fun hoff => ?_, fun hoff => ?_, fun hoff => ?_, fun hlo hhi => ?_, fun hlo b hb => ?_⟩
  · rw [readWindow_id (by simp [windowReg, ha, hoff])]
    exact idWord_eq s.params.width
  · exact readWindow_cmd (by simp [windowReg, ha, hoff]) s
  · rw [readWindow_status (by simp [windowReg, ha, hoff])]
    exact statusWord_bits s
  · exact readWindow_errcmd (by simp [windowReg, ha, hoff]) s
  · rw [readWindow_argLo (by simp [windowReg, ha, hoff]), extract_lo_toNat]
  · rw [readWindow_argHi (by simp [windowReg, ha, hoff]), extract_hi_toNat]
  · rw [readWindow_resLo (by simp [windowReg, ha, hoff]), extract_lo_toNat]
  · rw [readWindow_resHi (by simp [windowReg, ha, hoff]), extract_hi_toNat]
  · exact readWindow_blen (by simp [windowReg, ha, hoff]) s
  · exact readWindow_reserved (windowReg_reserved (ha ▸ hlo) (ha ▸ hhi)) s
  · have haligned : a % 4 = 0 := ha ▸ offset_aligned off
    have hbyte : 4 * ((a - 0x100) / 4) + b = a - 0x100 + b := by omega
    rw [readWindow_buf (windowReg_buf (ha ▸ hlo)), extract_readBufWord s _ hb, ha, hbyte]

/-- Settles O11: every field of the reset state, with the limbs of a zero value and the bytes of an empty BUF. -/
theorem resetValuesAreTheSpecs : Obligations.ResetValuesAreTheSpecs := by
  refine ⟨fun p => ⟨fun r => ?_, rfl, rfl, rfl, fun _ => rfl, rfl, rfl, rfl, rfl, rfl, rfl⟩, Params.standard, rfl⟩
  rw [State.resetOf_reg]
  exact ⟨length_zeroValue p.width, limb_zeroValue p.width⟩

end Sys2Proof.Certificates
end

section
/-! PROOFS. The family of 20_memory.md: the byte order of the BUF window (R52) and the writes that do not drive all four
lanes (R51). -/

namespace Sys2Proof.Machine

/-! ## A BUF word -/

/-- The offset of BUF word `j` addresses it (20_memory.md R52). -/
theorem windowReg_bufWord {off : BitVec 9} {j : Nat} (hoff : (off &&& 0x1FC#9).toNat = 0x100 + 4 * j) :
    windowReg off = .buf j := by
  have hword : (0x100 + 4 * j - 0x100) / 4 = j := by omega
  rw [windowReg_buf (by omega), hoff, hword]

theorem writeWindow_buf {off : BitVec 9} {j : Nat} (h : windowReg off = .buf j) (w : Word) (s : State) :
    writeWindow off w s = .next (writeBufWord s j w) := by
  simp [writeWindow, h]

/-- Byte `b` of the word written is stored in BUF[4j+b] (20_memory.md R52). -/
theorem writeBufWord_readByte_of_lt (s : State) (j : Nat) (w : Word) {b : Nat} (hb : b < 4) :
    (writeBufWord s j w).readByte (4 * j + b) = w.extractLsb' (8 * b) 8 := by
  rw [writeBufWord, State.writeBytes_readByte, Memory.read_writeBytes, if_pos (by simp; omega), Nat.add_sub_cancel_left]
  interval_cases b <;> rfl

/-- A BUF word write changes no byte outside its word (20_memory.md R52). -/
theorem writeBufWord_readByte_of_outside (s : State) (j : Nat) (w : Word) {a : Nat} (ha : a < 4 * j ∨ 4 * j + 4 ≤ a) :
    (writeBufWord s j w).readByte a = s.readByte a := by
  rw [writeBufWord, State.writeBytes_readByte, Memory.read_writeBytes, if_neg (by simp; omega)]
  rfl

/-- A BUF word written reads back (20_memory.md R52). -/
theorem readBufWord_writeBufWord (s : State) (j : Nat) (w : Word) : readBufWord (writeBufWord s j w) j = w := by
  have hbyte : ∀ b, b < 4 → (writeBufWord s j w).readByte (4 * j + b) = w.extractLsb' (8 * b) 8 :=
    fun b hb => writeBufWord_readByte_of_lt s j w hb
  have h0 : (writeBufWord s j w).readByte (4 * j) = w.extractLsb' 0 8 := hbyte 0 (by omega)
  rw [readBufWord, h0, hbyte 1 (by omega), hbyte 2 (by omega), hbyte 3 (by omega)]
  exact packWordLE_extract w

/-! ## A narrow write -/

theorem le_drawsAfter (lanes : BitVec 4) (n : Nat) : n ≤ drawsAfter lanes n := by
  unfold drawsAfter
  split <;> omega

/-- A write on any lanes is the 32-bit write of its bus word, the draws moved on (20_memory.md R51, log 7). -/
theorem performAccess_write_eq_full (off : BitVec 9) (lanes : BitVec 4) (data : Word) (s : State) :
    performAccess (.write off lanes data) s =
      performAccess (.write off 0xF#4 (busWord lanes data s.draws)) (s.setDraws (drawsAfter lanes s.draws)) := by
  rw [performAccess_write_full]
  rfl

end Sys2Proof.Machine

namespace Sys2Proof.Certificates

open Sys2Proof.Machine

/-- Settles O55: the write is that of BUF word `j`, whose four bytes and frame the lemmas above give. -/
theorem bufWordsArePackedLittleEndian : Obligations.BufWordsArePackedLittleEndian := by
  intro s off j w rest hp hoff
  have hreg : windowReg off = .buf j := windowReg_bufWord hoff
  have hstep : step s = .next (writeBufWord { s with pending := rest, response := .none } j w) := by
    rw [step_write_ne_cmd hp (by simp [hreg]), writeWindow_buf hreg]
  refine ⟨_, hstep, fun b hb => writeBufWord_readByte_of_lt _ j w hb,
    fun a ha => writeBufWord_readByte_of_outside _ j w ha, ?_, fun b hb => ?_,
    fun _ _ => rfl, ⟨rfl, rfl, rfl⟩, ⟨rfl, rfl, rfl⟩, ⟨rfl, rfl, rfl, rfl⟩, rfl, rfl, rfl⟩
  · rw [readWindow_buf hreg, readBufWord_writeBufWord]
  · rw [readWindow_buf hreg, extract_readBufWord s j hb]

/-- Settles O57: the word is the bus word of the host's lanes, and the draws are those after it. -/
theorem narrowWriteStoresAWholeBusWord : Obligations.NarrowWriteStoresAWholeBusWord := by
  intro s off lanes data rest hp
  refine ⟨busWord lanes data s.draws, drawsAfter lanes s.draws,
    fun k hk hlane => busWord_lane lanes data s.draws k hk hlane, le_drawsAfter lanes s.draws, ?_⟩
  rw [step_cons hp, performAccess_write_eq_full, step_cons rfl]
  rfl

end Sys2Proof.Certificates
end

section
/-! PROOFS. The family of 30_encoding.md: the field layout (R71 to R75), what `decode` answers for each word (R76 to R80), the
opcode table, the assembler (R82) and the pseudo-instructions (R83). -/

namespace Sys2Proof

open Sys2Proof.Certificates

/-! ## The fields of a word as numbers (R71) -/

theorem opField_toNat (c : Word) : (opField c).toNat = c.toNat / 2 ^ 26 := by
  have := c.isLt
  rw [opField, BitVec.extractLsb'_toNat, Nat.shiftRight_eq_div_pow]
  omega

theorem fieldsOf_rd_toNat (c : Word) : (fieldsOf c).rd.num.toNat = c.toNat / 2 ^ 23 % 2 ^ 3 := by
  simp [fieldsOf, BitVec.extractLsb'_toNat, Nat.shiftRight_eq_div_pow]

theorem fieldsOf_ra_toNat (c : Word) : (fieldsOf c).ra.num.toNat = c.toNat / 2 ^ 20 % 2 ^ 3 := by
  simp [fieldsOf, BitVec.extractLsb'_toNat, Nat.shiftRight_eq_div_pow]

theorem fieldsOf_rb_toNat (c : Word) : (fieldsOf c).rb.num.toNat = c.toNat / 2 ^ 17 % 2 ^ 3 := by
  simp [fieldsOf, BitVec.extractLsb'_toNat, Nat.shiftRight_eq_div_pow]

theorem fieldsOf_imm_toNat (c : Word) : (fieldsOf c).imm.toNat = c.toNat % 2 ^ 16 := by
  simp [fieldsOf, BitVec.extractLsb'_toNat]

/-- Bit 16 is in no field (R71). -/
theorem packWord_bit16 (o : Op) (f : Fields) : (packWord o f).toNat / 2 ^ 16 % 2 = 0 := by
  have := f.imm.isLt
  rw [packWord_toNat]
  omega

/-- A word is put together from its own fields, but for bit 16. -/
theorem packWord_fieldsOf {o : Op} {c : Word} (hop : o.code = opField c) (h16 : c.toNat / 2 ^ 16 % 2 = 0) :
    packWord o (fieldsOf c) = c := by
  apply BitVec.eq_of_toNat_eq
  rw [packWord_toNat, hop, opField_toNat, fieldsOf_rd_toNat, fieldsOf_ra_toNat, fieldsOf_rb_toNat, fieldsOf_imm_toNat]
  omega

/-! ## Unused fields (R72, R75) -/

/-- The operand fields the format does not have are 0, "with unused fields 0" (R75); field value 0 is V0. -/
def Format.UnusedZero (fmt : Format) (f : Fields) : Prop :=
  match fmt with
  | .F0 => f.rd = .v0 ∧ f.ra = .v0 ∧ f.rb = .v0 ∧ f.imm = 0#16
  | .FD => f.ra = .v0 ∧ f.rb = .v0 ∧ f.imm = 0#16
  | .FDA => f.rb = .v0 ∧ f.imm = 0#16
  | .FDAB => f.imm = 0#16
  | .FDAI => f.rb = .v0
  | .FAB => f.rd = .v0 ∧ f.imm = 0#16
  | .FA => f.rd = .v0 ∧ f.rb = .v0 ∧ f.imm = 0#16
  | .FAI => f.rd = .v0 ∧ f.rb = .v0

theorem Reg.eq_v0_iff (r : Reg) : r = .v0 ↔ r.num.toNat = 0 := by cases r <;> decide

/-- The must-be-zero bits of a word (R72) are its unused fields and bit 16. -/
theorem Format.fieldsZero_iff (fmt : Format) (c : Word) :
    fmt.fieldsZero c.toNat ↔ fmt.UnusedZero (fieldsOf c) ∧ c.toNat / 2 ^ 16 % 2 = 0 := by
  have himm : (fieldsOf c).imm = 0#16 ↔ c.toNat % 2 ^ 16 = 0 := by
    rw [← BitVec.toNat_inj, fieldsOf_imm_toNat]
    rfl
  cases fmt <;>
    simp only [fieldsZero, UnusedZero, Reg.eq_v0_iff, himm, fieldsOf_rd_toNat, fieldsOf_ra_toNat, fieldsOf_rb_toNat] <;>
    omega

theorem Format.fieldsZero_packWord_iff (fmt : Format) (o : Op) (f : Fields) :
    fmt.fieldsZero (packWord o f).toNat ↔ fmt.UnusedZero f := by
  rw [fieldsZero_iff, fieldsOf_packWord, and_iff_left (packWord_bit16 o f)]

/-- A command's own fields are those its format has. -/
theorem Instr.fields_unusedZero (i : Instr) : i.op.format.UnusedZero i.fields := by
  cases i <;> simp [Instr.op, Op.format, Instr.fields, Format.UnusedZero]

/-- A command built from fields keeps them all, if those its format does not have are 0. -/
theorem Op.fields_build {o : Op} {f : Fields} (h : o.format.UnusedZero f) : (o.build f).fields = f := by
  obtain ⟨rd, ra, rb, imm⟩ := f
  cases o <;> simp_all [Op.format, Op.build, Instr.fields, Format.UnusedZero]

theorem encode_build {o : Op} {f : Fields} (h : o.format.UnusedZero f) : encode (o.build f) = packWord o f := by
  rw [encode, Op.op_build, Op.fields_build h]

/-! ## What `decode` answers (R80), one equivalence for each answer -/

theorem Op.code_inj {o p : Op} : o.code = p.code ↔ o = p := by
  refine ⟨fun h => ?_, congrArg _⟩
  simpa using congrArg Op.ofCode h

/-- TRIM is the one opcode a part may lack (R78). -/
theorem wellFormed_iff (w : Width) (i : Instr) : WellFormed w i = true ↔ ¬(i.op = .trim ∧ w ≠ .w16) := by
  cases i <;> simp [WellFormed, Instr.op]

theorem Op.ofCode_eq_none_iff (c : BitVec 6) : Op.ofCode c = none ↔ ∀ o : Op, o.code ≠ c := by
  constructor
  · rintro h o rfl
    simp at h
  · intro h
    cases hc : Op.ofCode c with
    | none => rfl
    | some o => exact absurd (Op.code_of_ofCode hc) (h o)

theorem decode_eq_reservedOpcode_iff (w : Width) (c : Word) :
    decode w c = .illegal .reservedOpcode ↔ Op.ofCode (opField c) = none := by
  constructor
  · intro h
    rcases decode_cases w c with ⟨hnone, _⟩ | ⟨o, _, ⟨_, _, hd⟩ | ⟨_, _, hd⟩ | ⟨_, _, hd⟩⟩
    · exact hnone
    all_goals cases h.symm.trans hd
  · intro h
    simp [decode, h]

theorem decode_eq_unsupportedWidth_iff (w : Width) (c : Word) :
    decode w c = .illegal .unsupportedWidth ↔ Op.trim.code = opField c ∧ w ≠ .w16 := by
  constructor
  · intro h
    rcases decode_cases w c with ⟨_, hd⟩ | ⟨o, hop, ⟨rfl, hw, _⟩ | ⟨_, _, hd⟩ | ⟨_, _, hd⟩⟩
    · cases h.symm.trans hd
    · exact ⟨hop, hw⟩
    all_goals cases h.symm.trans hd
  · rintro ⟨hop, hw⟩
    simp [decode, ← hop, hw]

theorem decode_eq_reservedField_iff (w : Width) (c : Word) :
    decode w c = .illegal .reservedField ↔
      ∃ o : Op, o.code = opField c ∧ ¬(o = .trim ∧ w ≠ .w16) ∧ ¬o.format.fieldsZero c.toNat := by
  constructor
  · intro h
    rcases decode_cases w c with ⟨_, hd⟩ | ⟨o, hop, ⟨_, _, hd⟩ | ⟨ht, hz, _⟩ | ⟨_, _, hd⟩⟩
    case inr.inr.inl => exact ⟨o, hop, ht, hz⟩
    all_goals cases h.symm.trans hd
  · rintro ⟨o, hop, ht, hz⟩
    rw [← zeroMask_check_iff] at hz
    simp only [decode, ← hop, Op.ofCode_code, if_neg ht, if_pos hz, ne_eq]

theorem decode_eq_legal_iff (w : Width) (c : Word) (i : Instr) :
    decode w c = .legal i ↔
      ∃ o : Op, o.code = opField c ∧ ¬(o = .trim ∧ w ≠ .w16) ∧ o.format.fieldsZero c.toNat ∧ o.build (fieldsOf c) = i := by
  constructor
  · intro h
    rcases decode_cases w c with ⟨_, hd⟩ | ⟨o, hop, ⟨_, _, hd⟩ | ⟨_, _, hd⟩ | ⟨ht, hz, hd⟩⟩
    case inr.inr.inr => exact ⟨o, hop, ht, hz, Decoded.legal.inj (hd.symm.trans h)⟩
    all_goals cases h.symm.trans hd
  · rintro ⟨o, hop, ht, hz, rfl⟩
    rw [← zeroMask_check_iff] at hz
    simp only [decode, ← hop, Op.ofCode_code, if_neg ht, hz, ne_eq, not_true_eq_false, if_false]

/-- The word of an opcode the part has, its unused fields 0, decodes to the command built from its fields. -/
theorem decode_packWord {w : Width} {o : Op} {f : Fields} (ht : ¬(o = .trim ∧ w ≠ .w16))
    (hf : o.format.UnusedZero f) : decode w (packWord o f) = .legal (o.build f) := by
  refine (decode_eq_legal_iff w _ _).2 ⟨o, (opField_packWord o f).symm, ht, ?_, ?_⟩
  · exact (Format.fieldsZero_packWord_iff _ o f).2 hf
  · rw [fieldsOf_packWord]

theorem decode_encode {w : Width} {i : Instr} (h : WellFormed w i = true) : decode w (encode i) = .legal i := by
  rw [encode, decode_packWord ((wellFormed_iff w i).1 h) i.fields_unusedZero, Instr.build_op_fields]

theorem encode_of_decode {w : Width} {c : Word} {i : Instr} (h : decode w c = .legal i) : encode i = c := by
  obtain ⟨o, hop, _, hz, rfl⟩ := (decode_eq_legal_iff w c i).1 h
  obtain ⟨hf, h16⟩ := (Format.fieldsZero_iff _ c).1 hz
  rw [encode_build hf, packWord_fieldsOf hop h16]

theorem wellFormed_of_decode {w : Width} {c : Word} {i : Instr} (h : decode w c = .legal i) : WellFormed w i = true := by
  obtain ⟨o, _, ht, _, rfl⟩ := (decode_eq_legal_iff w c i).1 h
  rwa [wellFormed_iff, Op.op_build]

/-! ## The rows of the opcode table (R75) -/

/-- An opcode's row: its match has its OP value in bits 31:26, its mask is those bits and the must-be-zero mask of its
format (R71, R72). -/
def Op.row (o : Op) : Op × Word × Word := (o, o.code.setWidth 32 <<< 26, 0xFC000000#32 ||| o.format.zeroMask)

theorem opcodeTable_eq_map : opcodeTable = Op.all.map Op.row := by decide

theorem Op.mem_all (o : Op) : o ∈ Op.all := by cases o <;> decide

theorem Format.zeroMask_lt (fmt : Format) : fmt.zeroMask.toNat < 2 ^ 26 := by cases fmt <;> decide

theorem opBits_toNat (x : BitVec 6) : (x.setWidth 32 <<< 26).toNat = 2 ^ 26 * x.toNat := by
  have := x.isLt
  rw [BitVec.toNat_shiftLeft, BitVec.toNat_setWidth, Nat.shiftLeft_eq]
  omega

theorem and_opMask (c : Word) : c &&& 0xFC000000#32 = (opField c).setWidth 32 <<< 26 := by
  have hmask : ∀ (i : Nat) (hi : i < 32), (0xFC000000#32)[i] = decide (26 ≤ i) := by decide
  ext i hi
  rw [BitVec.getElem_and, hmask i hi]
  by_cases h : i < 26
  · simp [opField, h]
  · have hsplit : 26 + (i - 26) = i := by omega
    have hop : i - 26 < 6 := by omega
    simp [opField, h, hsplit, hop, Nat.le_of_not_lt h, BitVec.getLsbD_eq_getElem hi]

/-- A word's masked bits are a row's match exactly when its OP is the row's and its must-be-zero bits are 0. -/
theorem and_rowMask_eq_iff (o : Op) (c : Word) :
    c &&& o.row.2.2 = o.row.2.1 ↔ o.code = opField c ∧ o.format.fieldsZero c.toNat := by
  have hlow : (c &&& o.format.zeroMask).toNat < 2 ^ 26 :=
    Nat.and_le_right.trans_lt o.format.zeroMask_lt
  have hsum : (c &&& o.row.2.2).toNat = 2 ^ 26 * (opField c).toNat + (c &&& o.format.zeroMask).toNat := by
    rw [Op.row, BitVec.and_or_distrib_left, and_opMask, BitVec.toNat_or, opBits_toNat, Nat.two_pow_add_eq_or_of_lt hlow]
  rw [← zeroMask_check_iff, ← BitVec.toNat_inj, hsum, Op.row, opBits_toNat, ← BitVec.toNat_inj, ← BitVec.toNat_inj]
  simp only [BitVec.toNat_ofNat]
  omega

/-- The opcodes a word decodes to on W = 16, where every opcode is legal. -/
theorem decode_w16_op_iff (o : Op) (c : Word) :
    (∃ i : Instr, decode .w16 c = .legal i ∧ i.op = o) ↔ o.code = opField c ∧ o.format.fieldsZero c.toNat := by
  constructor
  · rintro ⟨i, hd, rfl⟩
    obtain ⟨o, hop, _, hz, rfl⟩ := (decode_eq_legal_iff _ c i).1 hd
    rw [Op.op_build]
    exact ⟨hop, hz⟩
  · rintro ⟨hop, hz⟩
    exact ⟨o.build (fieldsOf c), (decode_eq_legal_iff _ c _).2 ⟨o, hop, by simp, hz, rfl⟩, Op.op_build o _⟩

/-- The 35 OP values no opcode has (R76). -/
theorem Op.ofCode_eq_none_iff_mem (c : BitVec 6) : Op.ofCode c = none ↔ c.toNat ∈ reservedOps := by
  revert c
  decide

end Sys2Proof

namespace Sys2Proof.Machine

/-! ## The assembler (R82) -/

/-- The fields read from a line's operands leave those its format does not have 0. -/
theorem parseOperands_unusedZero {fmt : Format} {ops : List (List Char)} {f : Fields}
    (h : parseOperands fmt ops = some f) : fmt.UnusedZero f := by
  unfold parseOperands at h
  split at h <;> simp only [Option.bind_eq_some_iff, Option.map_eq_some_iff, Option.some.injEq, reduceCtorEq] at h
  case h_1 =>
    subst h
    simp [Format.UnusedZero]
  case h_2 | h_7 =>
    all_goals
      obtain ⟨_, _, rfl⟩ := h
      simp [Format.UnusedZero]
  case h_3 | h_6 | h_8 =>
    all_goals
      obtain ⟨_, _, _, _, rfl⟩ := h
      simp [Format.UnusedZero]
  case h_4 | h_5 =>
    all_goals
      obtain ⟨_, _, _, _, _, _, rfl⟩ := h
      simp [Format.UnusedZero]

theorem assembleLine_eq_some {w : Width} {line : List Char} {c : Word} (h : assembleLine w line = some c) :
    ∃ (o : Op) (f : Fields), ¬(o = .trim ∧ w ≠ .w16) ∧ o.format.UnusedZero f ∧ packWord o f = c := by
  unfold assembleLine at h
  split at h
  · cases h
  · next o _ =>
    split at h
    · cases h
    · next ht =>
      obtain ⟨f, hf, rfl⟩ := Option.map_eq_some_iff.1 h
      exact ⟨o, f, ht, parseOperands_unusedZero hf, rfl⟩

/-! ## The host's writes in a run (R83) -/

/-- One access is the whole run. -/
theorem runAccesses_single (a : Access) (s : State) : runAccesses [a] s = performAccess a (s.setPending []) := by
  obtain ⟨t, ht⟩ := performAccess_next a (s.setPending [])
  have hp : t.pending = [] := performAccess_pending ht
  rw [runAccesses_cons ht, runAccesses_nil, ht, ← hp]
  rfl

/-- The CMD write of a command that is legal on every part executes it. -/
theorem runAccesses_command {i : Instr} (h : ∀ w : Width, WellFormed w i = true) (s : State) :
    runAccesses [commandWrite (encode i)] s = exec i ((s.setPending []).setResponse .written) := by
  rw [runAccesses_single, performAccess_commandWrite]
  exact issueCommand_legal (decode_encode (h _))

/-- A run takes nothing from the list the state had before it. -/
theorem runAccesses_setPending (as l : List Access) (s : State) : runAccesses as (s.setPending l) = runAccesses as s := rfl

/-- A write of ARG_LO, then the rest of the run (10_state.md R24). -/
theorem runAccesses_argLo (w : Word) (as : List Access) (s : State) :
    runAccesses (writeWord 0x010#9 w :: as) s =
      runAccesses as ((s.setArg (s.arg.extractLsb' 32 32 ++ w)).setResponse .none) := by
  have h : performAccess (writeWord 0x010#9 w) (s.setPending as) =
      .next (((s.setArg (s.arg.extractLsb' 32 32 ++ w)).setResponse .none).setPending as) := by
    rw [writeWord, performAccess_write_full, writeWindow_argLo (by decide)]
    rfl
  rw [runAccesses_cons h, runAccesses_setPending]

/-- A write of ARG_HI, then the rest of the run (10_state.md R24). -/
theorem runAccesses_argHi (w : Word) (as : List Access) (s : State) :
    runAccesses (writeWord 0x014#9 w :: as) s =
      runAccesses as ((s.setArg (w ++ s.arg.extractLsb' 0 32)).setResponse .none) := by
  have h : performAccess (writeWord 0x014#9 w) (s.setPending as) =
      .next (((s.setArg (w ++ s.arg.extractLsb' 0 32)).setResponse .none).setPending as) := by
    rw [writeWord, performAccess_write_full, writeWindow_argHi (by decide)]
    rfl
  rw [runAccesses_cons h, runAccesses_setPending]

/-- The low half of ARG, written first, stays when the high half is written: ARG is the immediate (R83). -/
theorem arg_halves (x : DWord) (v : Word) : x.extractLsb' 32 32 ++ (v ++ x.extractLsb' 0 32).extractLsb' 0 32 = x := by
  rw [BitVec.extractLsb'_append_eq_right, BitVec.extractLsb'_append_extractLsb'_eq_extractLsb' (by rfl)]
  exact BitVec.extractLsb'_eq_self

/-- A command with a 64-bit immediate: both halves of ARG, then the command (R83). -/
theorem runAccesses_withArg {i : Instr} (h : ∀ w : Width, WellFormed w i = true) (x : DWord) (s : State) :
    runAccesses (withArg x i) s = exec i { s with arg := x, pending := [], response := .written } := by
  rw [withArg, runAccesses_argLo, runAccesses_argHi, runAccesses_command h, State.setResponse_arg, State.setArg_arg,
    arg_halves]
  rfl

/-- A command with a 32-bit immediate: the low half of ARG, then the command (R83). -/
theorem runAccesses_argLo_command {i : Instr} (h : ∀ w : Width, WellFormed w i = true) (n : Word) (s : State) :
    runAccesses [writeWord 0x010#9 n, commandWrite (encode i)] s =
      exec i { s with arg := s.arg.extractLsb' 32 32 ++ n, pending := [], response := .written } := by
  rw [runAccesses_argLo, runAccesses_command h]
  rfl

theorem runAccesses_setlen (n : Word) (s : State) :
    runAccesses [writeWord 0x020#9 n] s = .next { s with blen := n, pending := [], response := .none } := by
  rw [runAccesses_single, writeWord, performAccess_write_full, writeWindow_blen (by decide)]
  rfl

theorem runAccesses_clrill (s : State) :
    runAccesses [writeWord 0x008#9 0x00000008#32] s =
      .next { s with ill := false, cause := 0#4, pending := [], response := .none } := by
  rw [runAccesses_single, writeWord, performAccess_write_full, writeWindow_status (by decide)]
  rfl

end Sys2Proof.Machine

namespace Sys2Proof.Certificates

open Sys2Proof.Machine

/-- Settles O1: the word of a command has its opcode and its fields, and its must-be-zero bits are 0. -/
theorem decodeOfEncodeIsTheCommand : Obligations.DecodeOfEncodeIsTheCommand := fun _ _ => decode_encode

/-- Settles O2: a legal word is its opcode and the fields of its format, every other bit being checked to be 0. -/
theorem encodeOfDecodeIsTheWord : Obligations.EncodeOfDecodeIsTheWord := fun _ _ _ h =>
  ⟨encode_of_decode h, wellFormed_of_decode h⟩

/-- Settles O3: both sides say that OP is the row's and that the format's must-be-zero bits are 0. -/
theorem opcodeTableRowsDecode : Obligations.OpcodeTableRowsDecode := by
  intro row hrow c
  rw [opcodeTable_eq_map, List.mem_map] at hrow
  obtain ⟨o, _, rfl⟩ := hrow
  exact (decode_w16_op_iff o c).trans (and_rowMask_eq_iff o c).symm

/-- Settles O4: each clause is the equivalence of `decode` for that cause, OP read as a number and the must-be-zero check as
a row of the table. -/
theorem illegalWordsAndTheirCauses : Obligations.IllegalWordsAndTheirCauses := by
  intro w c
  have hreserved : Op.ofCode (opField c) = none ↔ c.toNat / 2 ^ 26 ∈ reservedOps := by
    rw [Op.ofCode_eq_none_iff_mem, opField_toNat]
  have htrim : Op.trim.code = opField c ↔ c.toNat / 2 ^ 26 = 0x28 := by
    rw [← opField_toNat, ← BitVec.toNat_inj, eq_comm]
    rfl
  refine ⟨?_, ?_, ?_⟩
  · rw [decode_eq_reservedOpcode_iff, hreserved]
  · rw [decode_eq_unsupportedWidth_iff, htrim]
  · rw [decode_eq_reservedField_iff, ← hreserved, ← htrim, Op.ofCode_eq_none_iff]
    simp only [opcodeTable_eq_map, List.forall_mem_map, ne_eq, and_rowMask_eq_iff]
    constructor
    · rintro ⟨o, hop, ht, hz⟩
      refine ⟨fun hnone => hnone o hop, fun ⟨htrim, hw⟩ => ht ⟨Op.code_inj.1 (hop.trans htrim.symm), hw⟩, ?_⟩
      rintro p _ ⟨hpop, hpz⟩
      obtain rfl : p = o := Op.code_inj.1 (hpop.trans hop.symm)
      exact hz hpz
    · rintro ⟨hsome, ht, hrows⟩
      push Not at hsome
      obtain ⟨o, hop⟩ := hsome
      exact ⟨o, hop, fun ⟨ho, hw⟩ => ht ⟨ho ▸ hop, hw⟩, fun hz => hrows o o.mem_all ⟨hop, hz⟩⟩

/-- Settles O59: the expansions are the spec's, and each is run write by write. -/
theorem pseudoInstructionsDoWhatTheyStandFor : Obligations.PseudoInstructionsDoWhatTheyStandFor := fun s _ _ x m =>
  ⟨rfl, rfl, rfl, rfl, rfl, rfl, rfl, rfl, runAccesses_withArg (fun _ => rfl) x s, runAccesses_withArg (fun _ => rfl) x s,
    runAccesses_withArg (fun _ => rfl) x s, runAccesses_withArg (fun _ => rfl) x s,
    runAccesses_argLo_command (fun _ => rfl) m s, runAccesses_argLo_command (fun _ => rfl) m s, runAccesses_setlen m s,
    runAccesses_clrill s⟩

/-- Settles O60: a word is emitted only for an opcode the part has, with its unused fields 0. -/
theorem assemblerEmitsOnlyLegalWords : Obligations.AssemblerEmitsOnlyLegalWords := by
  intro w line c h
  obtain ⟨o, f, ht, hf, rfl⟩ := assembleLine_eq_some h
  exact ⟨o.build f, decode_packWord ht hf, encode_build hf⟩

end Sys2Proof.Certificates
end

section
/-! PROOFS. The family of 40_construction.md: the word of every command as a number (R75), the frame of a command that
writes one value register, then NOP, CLR, MOV and LDI64 (R100 to R103). -/

namespace Sys2Proof

open Sys2Proof.Certificates

/-! ## Command words (R75) -/

theorem encode_eq_wordOf (i : Instr) :
    encode i = wordOf i.op.code.toNat i.fields.rd i.fields.ra i.fields.rb i.fields.imm.toNat := by
  apply BitVec.eq_of_toNat_eq
  have hlt := (encode i).isLt
  rw [encode, packWord_toNat] at hlt
  rw [encode, packWord_toNat, wordOf, BitVec.toNat_ofNat, Nat.mod_eq_of_lt hlt]

/-- A command's word is its opcode and fields put together as a number. -/
theorem hasWord_wordOf (i : Instr) :
    HasWord i (wordOf i.op.code.toNat i.fields.rd i.fields.ra i.fields.rb i.fields.imm.toNat) :=
  ⟨encode_eq_wordOf i, fun _ hw => encode_eq_wordOf i ▸ decode_encode hw⟩

/-- Every bit of NOP's word is fixed: OP is 0x00 and the 26 bits below it must be zero (R77, R79). -/
theorem decode_op_zero (w : Width) {c : Word} (hop : c.toNat / 2 ^ 26 = 0) :
    decode w c = if c = 0x00000000#32 then .legal .nop else .illegal .reservedField := by
  by_cases hc : c = 0x00000000#32
  · rw [if_pos hc, hc]
    exact decode_encode (i := .nop) rfl
  · have hnop : Op.nop.code = opField c := by
      rw [← BitVec.toNat_inj, opField_toNat, hop]
      rfl
    have hbits : ¬Op.nop.format.fieldsZero c.toNat := by
      intro (hzero : c.toNat % 2 ^ 26 = 0)
      have hnum : c.toNat = 0 := by omega
      exact hc (BitVec.eq_of_toNat_eq hnum)
    rw [if_neg hc]
    exact (decode_eq_reservedField_iff w c).2 ⟨.nop, hnop, by simp, hbits⟩

end Sys2Proof

namespace Sys2Proof.Machine

open Sys2Proof.Certificates

/-! ## Writing one value register -/

/-- The frame of one register write (R11). -/
theorem onlyRegs_setReg (s : State) (r : Reg) (v : Value) : OnlyRegs [r] s (s.setReg r v) := by
  refine ⟨fun q hq => ?_, ⟨rfl, rfl, rfl⟩, ⟨rfl, rfl, rfl⟩, ⟨rfl, rfl, rfl, rfl⟩, fun _ => rfl, rfl, rfl, rfl, rfl, rfl⟩
  exact State.setReg_reg_ne s r q v (by simpa using hq)

/-- A register given the value it holds: nothing changes. -/
@[simp] theorem State.setReg_reg_self (s : State) (r : Reg) : s.setReg r (s.reg r) = s := by
  rw [State.setReg, State.reg, RegFile.set_get_self]

/-! ## The 64-bit operand (R103) -/

/-- W is at least 2, so the operand is never cut. -/
theorem argValue_isZext (s : State) : IsZext s.limbs (argValue s) s.arg := by
  have hW : 2 ≤ s.limbs := two_le_limbs s.params.width
  refine ⟨length_zext64 _ _, ?_, ?_, fun i hi => ?_⟩ <;> rw [argValue, limb_zext64 _ _ _ hW]
  · simp
  · simp
  · rw [if_neg (by omega), if_neg (by omega)]

theorem valueNat_argValue (s : State) : valueNat (argValue s) = s.arg.toNat :=
  valueNat_zext64 s.limbs s.arg (two_le_limbs s.params.width)

/-! ## What the commands answer -/

theorem exec_nop (s : State) : exec .nop s = .next s := rfl

theorem exec_clr (rd : Reg) (s : State) : exec (.clr rd) s = .next (s.setReg rd (zeroValue s.params.width)) := rfl

theorem exec_mov (rd ra : Reg) (s : State) : exec (.mov rd ra) s = .next (s.setReg rd (s.reg ra)) := rfl

theorem exec_ldi64 (rd : Reg) (s : State) : exec (.ldi64 rd) s = .next (s.setReg rd (argValue s)) := rfl

end Sys2Proof.Machine

namespace Sys2Proof.Certificates

open Sys2Proof.Machine

/-- Settles O22: `exec` keeps the state, and the must-be-zero bits of OP 0x00 are all the others. -/
theorem nopChangesNothing : Obligations.NopChangesNothing :=
  ⟨by decide, exec_nop, fun w _ hop => decode_op_zero w hop⟩

/-- Settles O23: one register write, of the value whose W limbs are all 0. -/
theorem clrSetsTheRegisterToZero : Obligations.ClrSetsTheRegisterToZero := by
  refine ⟨by decide, fun rd s => ⟨hasWord_wordOf (.clr rd), _, exec_clr rd s, onlyRegs_setReg s rd _, ?_⟩⟩
  rw [State.setReg_reg_same]
  exact ⟨length_zeroValue _, limb_zeroValue _, valueNat_zeroValue _⟩

/-- Settles O24: one register write, of the value V[RA] holds; with RD = RA it writes what is there. -/
theorem movCopiesTheRegister : Obligations.MovCopiesTheRegister := by
  refine ⟨by decide, fun rd ra s => ⟨hasWord_wordOf (.mov rd ra), ⟨_, exec_mov rd ra s, onlyRegs_setReg s rd _, ?_⟩, ?_⟩⟩
  · exact State.setReg_reg_same s rd _
  · rw [exec_mov, State.setReg_reg_self]

/-- Settles O25: one register write, of ARG as an N-bit value. -/
theorem ldi64LoadsArg : Obligations.Ldi64LoadsArg := by
  refine ⟨by decide, fun rd s => ⟨hasWord_wordOf (.ldi64 rd), _, exec_ldi64 rd s, onlyRegs_setReg s rd _, ?_⟩⟩
  rw [State.setReg_reg_same]
  exact ⟨argValue_isZext s, valueNat_argValue s⟩

end Sys2Proof.Certificates
end

section
/-! PROOFS. The family of 41_negate_addsub.md: the carry sequence of `addChain` (R112), what the complement, the negation and
a difference are as values and as integers modulo 2^N (R110, R111, R117), then NOT, NEG, ADD, SUB, ADD64 and SUB64 (R110 to
R117). -/

namespace Sys2Proof.Machine

open Sys2Proof.Certificates

/-! ## The carry sequence (R112) -/

/-- The carry out of an accumulator: its high 32 bits. -/
def carryOut (acc : BitVec 64) : BitVec 64 := (acc.extractLsb' 32 32).setWidth 64

/-- The carry into limb `i` of `addChain(a, b)`. -/
def carryInto (a b : Value) : Nat → BitVec 64
  | 0 => 0#64
  | i + 1 => carryOut (carryInto a b i + (limb a i).setWidth 64 + (limb b i).setWidth 64)

/-- The accumulator at limb `i` of `addChain(a, b)`. -/
def accAt (a b : Value) (i : Nat) : BitVec 64 := carryInto a b i + (limb a i).setWidth 64 + (limb b i).setWidth 64

theorem carryInto_succ (a b : Value) (i : Nat) : carryInto a b (i + 1) = carryOut (accAt a b i) := rfl

theorem carryOut_toNat (acc : BitVec 64) : (carryOut acc).toNat = acc.toNat / 2 ^ 32 := by
  simp only [carryOut, BitVec.toNat_setWidth, BitVec.extractLsb'_toNat, Nat.shiftRight_eq_div_pow]
  omega

/-- A carry is 0 or 1: two limbs and a carry of at most 1 are below 2^33. -/
theorem carryInto_le_one (a b : Value) (i : Nat) : (carryInto a b i).toNat ≤ 1 := by
  induction i with
  | zero => simp [carryInto]
  | succ i ih =>
    have ha := (limb a i).isLt
    have hb := (limb b i).isLt
    rw [carryInto_succ, carryOut_toNat, accAt, acc_toNat _ _ _ ih]
    omega

theorem accAt_toNat (a b : Value) (i : Nat) :
    (accAt a b i).toNat = (carryInto a b i).toNat + (limb a i).toNat + (limb b i).toNat :=
  acc_toNat _ _ _ (carryInto_le_one a b i)

theorem accAt_lt (a b : Value) (i : Nat) : (accAt a b i).toNat < 2 ^ 33 := by
  have hc := carryInto_le_one a b i
  have ha := (limb a i).isLt
  have hb := (limb b i).isLt
  rw [accAt_toNat]
  omega

/-- The chain started at limb `i` with the carry into it gives the low half of each accumulator from there on. -/
theorem limb_addFrom (a b : Value) {i k n : Nat} (hk : k < n) :
    limb (addFrom a b (carryInto a b i) i n) k = (accAt a b (i + k)).extractLsb' 0 32 := by
  induction n generalizing i k with
  | zero => omega
  | succ n ih =>
    cases k with
    | zero => rfl
    | succ k =>
      calc limb (addFrom a b (carryInto a b i) i (n + 1)) (k + 1)
          = limb (addFrom a b (carryInto a b (i + 1)) (i + 1) n) k := rfl
        _ = (accAt a b (i + 1 + k)).extractLsb' 0 32 := ih (by omega)
        _ = (accAt a b (i + (k + 1))).extractLsb' 0 32 := by rw [Nat.add_right_comm, Nat.add_assoc]

theorem limb_addChain (a b : Value) {i n : Nat} (hi : i < n) :
    limb (addChain n a b) i = (accAt a b i).extractLsb' 0 32 := by
  have h := limb_addFrom a b (i := 0) hi
  rwa [Nat.zero_add] at h

/-! ## Complement and negation as values (R110, R111) -/

theorem notValue_isNot (n : Nat) (a : Value) : IsNot n (notValue n a) a :=
  ⟨length_notValue n a, fun i hi => by rw [notValue, limb_fromLimbs, if_pos hi]⟩

theorem oneValue_isOne {n : Nat} (hn : 1 ≤ n) : IsOne n (oneValue n) := by
  refine ⟨length_oneValue n, ?_, fun i hi => ?_⟩ <;> rw [oneValue, limb_fromLimbs]
  · rw [if_pos (show 0 < n from hn), if_pos rfl]
  · rw [if_neg (show i ≠ 0 by omega), ite_self]

theorem negValue_isNeg {n : Nat} (hn : 1 ≤ n) (a : Value) : IsNeg n (negValue n a) a :=
  ⟨notValue n a, oneValue n, notValue_isNot n a, oneValue_isOne hn, rfl⟩

/-! ## Negation and difference as integers modulo 2^N (R117) -/

theorem valueNat_negValue_int {n : Nat} (hn : 1 ≤ n) {a : Value} (ha : a.length = n) :
    (valueNat (negValue n a) : Int) = (-(valueNat a : Int)) % (2 ^ (32 * n) : Nat) := by
  have hlt : valueNat a < 2 ^ (32 * n) := ha ▸ valueNat_lt a
  rw [valueNat_negValue n a hn ha, Int.natCast_mod, Nat.cast_sub hlt.le, sub_eq_add_neg, Int.add_emod_left]

theorem valueNat_addChain_negValue {n : Nat} (hn : 1 ≤ n) {a b : Value} (ha : a.length = n) (hb : b.length = n) :
    (valueNat (addChain n a (negValue n b)) : Int) =
      ((valueNat a : Int) - (valueNat b : Int)) % (2 ^ (32 * n) : Nat) := by
  rw [valueNat_addChain n a _ ha (length_negValue n b), Int.natCast_mod, Nat.cast_add, valueNat_negValue_int hn hb,
    Int.add_emod_emod, ← sub_eq_add_neg]

/-- `a + b - b = a` (R117). -/
theorem addChain_addChain_negValue {n : Nat} (hn : 1 ≤ n) {a b : Value} (ha : a.length = n) (hb : b.length = n) :
    addChain n (addChain n a b) (negValue n b) = a := by
  have hlt : valueNat a < 2 ^ (32 * n) := ha ▸ valueNat_lt a
  apply eq_of_valueNat (by rw [length_addChain, ha])
  apply Int.natCast_inj.1
  calc (valueNat (addChain n (addChain n a b) (negValue n b)) : Int)
      = ((valueNat (addChain n a b) : Int) - valueNat b) % (2 ^ (32 * n) : Nat) :=
        valueNat_addChain_negValue hn (length_addChain n a b) hb
    _ = ((valueNat a : Int) + valueNat b - valueNat b) % (2 ^ (32 * n) : Nat) := by
        rw [valueNat_addChain n a b ha hb, Int.natCast_mod, Nat.cast_add, Int.emod_sub_emod]
    _ = valueNat a := by
        rw [add_sub_cancel_right, ← Int.natCast_mod, Nat.mod_eq_of_lt hlt]

/-- `a + (-a) = 0` (R117). -/
theorem valueNat_addChain_negValue_self {n : Nat} (hn : 1 ≤ n) {a : Value} (ha : a.length = n) :
    valueNat (addChain n a (negValue n a)) = 0 := by
  apply Int.natCast_inj.1
  rw [valueNat_addChain_negValue hn ha ha, sub_self, Int.zero_emod, Nat.cast_zero]

/-! ## What the commands answer -/

theorem State.one_le_limbs (s : State) : 1 ≤ s.limbs := Nat.le_of_succ_le (two_le_limbs s.params.width)

theorem length_argValue (s : State) : (argValue s).length = s.limbs := length_zext64 _ _

theorem exec_not (rd ra : Reg) (s : State) :
    exec (.not rd ra) s = .next (s.setReg rd (notValue s.limbs (s.reg ra))) := rfl

theorem exec_neg (rd ra : Reg) (s : State) :
    exec (.neg rd ra) s = .next (s.setReg rd (negValue s.limbs (s.reg ra))) := rfl

theorem exec_add (rd ra rb : Reg) (s : State) :
    exec (.add rd ra rb) s = .next (s.setReg rd (addChain s.limbs (s.reg ra) (s.reg rb))) := rfl

theorem exec_sub (rd ra rb : Reg) (s : State) :
    exec (.sub rd ra rb) s = .next (s.setReg rd (addChain s.limbs (s.reg ra) (negValue s.limbs (s.reg rb)))) := rfl

theorem exec_add64 (rd ra : Reg) (s : State) :
    exec (.add64 rd ra) s = .next (s.setReg rd (addChain s.limbs (s.reg ra) (argValue s))) := rfl

theorem exec_sub64 (rd ra : Reg) (s : State) :
    exec (.sub64 rd ra) s = .next (s.setReg rd (addChain s.limbs (s.reg ra) (negValue s.limbs (argValue s)))) := rfl

end Sys2Proof.Machine

namespace Sys2Proof.Certificates

open Sys2Proof.Machine

/-- Settles O26: the carries are those of `carryInto`, each at most 1, so no accumulator overflows. -/
theorem addChainPropagatesTheCarry : Obligations.AddChainPropagatesTheCarry := fun n a b =>
  ⟨length_addChain n a b, carryInto a b, rfl, fun i hi =>
    ⟨accAt a b i, rfl, accAt_toNat a b i, accAt_lt a b i, limb_addChain a b hi, rfl, carryInto_le_one a b (i + 1)⟩⟩

/-- Settles O29: one register write each, of the value whose number the lemmas on `addChain`, `negValue` and `notValue`
give. -/
theorem arithmeticIsModulo2ToTheN : Obligations.ArithmeticIsModulo2ToTheN := by
  intro rd ra rb s hs
  have hW := s.one_le_limbs
  have harg := length_argValue s
  refine ⟨⟨_, exec_add rd ra rb s, ?_⟩, ⟨_, exec_sub rd ra rb s, ?_⟩, ⟨_, exec_add64 rd ra s, ?_⟩,
    ⟨_, exec_sub64 rd ra s, ?_⟩, ⟨_, exec_neg rd ra s, ?_⟩, ⟨_, exec_not rd ra s, ?_⟩⟩ <;>
    rw [State.setReg_reg_same]
  · exact valueNat_addChain s.limbs _ _ (hs ra) (hs rb)
  · exact valueNat_addChain_negValue hW (hs ra) (hs rb)
  · rw [← valueNat_argValue s]
    exact valueNat_addChain s.limbs _ _ (hs ra) harg
  · rw [← valueNat_argValue s]
    exact valueNat_addChain_negValue hW (hs ra) harg
  · exact valueNat_negValue_int hW (hs ra)
  · exact Nat.eq_sub_of_add_eq (valueNat_notValue s.limbs _ (hs ra))

/-- Settles O30: the second command reads the first one's result and the operand the first one left alone. -/
theorem addThenSubGivesTheOperandBack : Obligations.AddThenSubGivesTheOperandBack := by
  intro ra rb rd re s hs
  have hW := s.one_le_limbs
  refine ⟨fun hne => ⟨_, _, exec_add rd ra rb s, exec_sub re rd rb _, ?_⟩,
    fun hne => ⟨_, _, exec_neg re ra s, exec_add rd ra re _, ?_⟩⟩ <;>
    rw [State.setReg_reg_same, State.setReg_reg_same, State.setReg_reg_ne _ _ _ _ hne.symm, State.setReg_limbs]
  · exact addChain_addChain_negValue hW (hs ra) (hs rb)
  · exact valueNat_addChain_negValue_self hW (hs ra)

/-- Settles O27: one register write each, of the complement and of the negation. -/
theorem notAndNegWriteTheirResults : Obligations.NotAndNegWriteTheirResults := by
  refine ⟨by decide, by decide, fun rd ra s => ⟨hasWord_wordOf (.not rd ra), hasWord_wordOf (.neg rd ra),
    ⟨_, exec_not rd ra s, onlyRegs_setReg s rd _, ?_⟩, ⟨_, exec_neg rd ra s, onlyRegs_setReg s rd _, ?_⟩⟩⟩ <;>
    rw [State.setReg_reg_same]
  · exact notValue_isNot s.limbs _
  · exact negValue_isNeg s.one_le_limbs _

/-- Settles O28: one register write each, of V[RA] plus V[RB] or ARG, or plus its negation. -/
theorem addAndSubWriteTheirResults : Obligations.AddAndSubWriteTheirResults := by
  refine ⟨by decide, by decide, by decide, by decide, fun rd ra rb s => ⟨hasWord_wordOf (.add rd ra rb),
    hasWord_wordOf (.sub rd ra rb), hasWord_wordOf (.add64 rd ra), hasWord_wordOf (.sub64 rd ra),
    ⟨_, exec_add rd ra rb s, onlyRegs_setReg s rd _, ?_⟩, ⟨_, exec_sub rd ra rb s, onlyRegs_setReg s rd _, ?_⟩,
    ⟨_, exec_add64 rd ra s, onlyRegs_setReg s rd _, ?_⟩, ⟨_, exec_sub64 rd ra s, onlyRegs_setReg s rd _, ?_⟩⟩⟩ <;>
    rw [State.setReg_reg_same]
  · exact ⟨_, negValue_isNeg s.one_le_limbs _, rfl⟩
  · exact ⟨_, argValue_isZext s, rfl⟩
  · exact ⟨_, _, argValue_isZext s, negValue_isNeg s.one_le_limbs _, rfl⟩

end Sys2Proof.Certificates
end

section
/-! PROOFS. The family of 42_incdec.md: which limbs a chain changes (R130), the frame of a command that writes V[RA] and then
V[RD], then INC, DEC, PINC and PDEC (R131 to R134). -/

namespace Sys2Proof.Machine

open Sys2Proof.Certificates

/-! ## The chains, limb by limb (R130) -/

/-- A limb wraps to 0 exactly when it was 0xFFFFFFFF. -/
theorem incChain_cons (l : Limb) (rest : Value) :
    incChain (l :: rest) = (l + 1#32) :: if l = 0xFFFFFFFF#32 then incChain rest else rest := by
  have hwrap : l + 1#32 ≠ 0#32 ↔ ¬l = 0xFFFFFFFF#32 := by bv_omega
  simp only [incChain, hwrap, ite_not]
  split <;> rfl

/-- A limb wraps to 0xFFFFFFFF exactly when it was 0. -/
theorem decChain_cons (l : Limb) (rest : Value) :
    decChain (l :: rest) = (l - 1#32) :: if l = 0#32 then decChain rest else rest := by
  have hwrap : l - 1#32 ≠ 0xFFFFFFFF#32 ↔ ¬l = 0#32 := by bv_omega
  simp only [decChain, hwrap, ite_not]
  split <;> rfl

/-- A chain that steps limb 0 and goes on to the next limb when the old limb was `last` steps a limb if every limb below it
was `last`, and keeps it otherwise. -/
theorem limb_of_chain {chain : Value → Value} {stepLimb : Limb → Limb} {last : Limb}
    (hcons : ∀ l rest, chain (l :: rest) = stepLimb l :: if l = last then chain rest else rest)
    {a : Value} {i : Nat} (hi : i < a.length) :
    limb (chain a) i = if ∀ j, j < i → limb a j = last then stepLimb (limb a i) else limb a i := by
  induction a generalizing i with
  | nil => simp at hi
  | cons l rest ih =>
    rw [hcons]
    cases i with
    | zero => simp
    | succ i =>
      simp only [limb_cons_succ, Nat.forall_lt_succ_left', limb_cons_zero]
      by_cases hl : l = last
      · simp only [hl, if_true, true_and]
        exact ih (Nat.lt_of_succ_lt_succ hi)
      · simp only [hl, if_false, false_and]

theorem limb_incChain {a : Value} {i : Nat} (hi : i < a.length) :
    limb (incChain a) i = if ∀ j, j < i → limb a j = 0xFFFFFFFF#32 then limb a i + 1#32 else limb a i :=
  limb_of_chain (stepLimb := (· + 1#32)) incChain_cons hi

theorem limb_decChain {a : Value} {i : Nat} (hi : i < a.length) :
    limb (decChain a) i = if ∀ j, j < i → limb a j = 0#32 then limb a i - 1#32 else limb a i :=
  limb_of_chain (stepLimb := (· - 1#32)) decChain_cons hi

/-! ## Writing V[RA], then V[RD] -/

/-- The frame of two register writes (R11): outside the register file that of the second, the first having changed nothing
there. -/
theorem onlyRegs_setReg_setReg (s : State) (rd ra : Reg) (new ret : Value) :
    OnlyRegs [rd, ra] s ((s.setReg ra new).setReg rd ret) := by
  obtain ⟨_, houtside⟩ := onlyRegs_setReg (s.setReg ra new) rd ret
  refine ⟨fun q hq => ?_, houtside⟩
  obtain ⟨hrd, hra⟩ : q ≠ rd ∧ q ≠ ra := by simpa using hq
  rw [State.setReg_reg_ne _ _ _ _ hrd, State.setReg_reg_ne _ _ _ _ hra]

/-- One value written to both: V[RA] holds it whether or not RD = RA. -/
theorem State.setReg_setReg_reg_first (s : State) (rd ra : Reg) (v : Value) : ((s.setReg ra v).setReg rd v).reg ra = v := by
  rw [State.reg_setReg, State.setReg_reg_same, ite_self]

/-- With RD ≠ RA the second write leaves V[RA] alone. -/
theorem State.setReg_setReg_reg_first_of_ne (s : State) {rd ra : Reg} (hne : rd ≠ ra) (new ret : Value) :
    ((s.setReg ra new).setReg rd ret).reg ra = new := by
  rw [State.setReg_reg_ne _ _ _ _ hne.symm, State.setReg_reg_same]

/-! ## What the commands answer -/

theorem exec_inc (rd ra : Reg) (s : State) :
    exec (.inc rd ra) s = .next ((s.setReg ra (incChain (s.reg ra))).setReg rd (incChain (s.reg ra))) := rfl

theorem exec_dec (rd ra : Reg) (s : State) :
    exec (.dec rd ra) s = .next ((s.setReg ra (decChain (s.reg ra))).setReg rd (decChain (s.reg ra))) := rfl

theorem exec_pinc (rd ra : Reg) (s : State) :
    exec (.pinc rd ra) s = .next ((s.setReg ra (incChain (s.reg ra))).setReg rd (s.reg ra)) := rfl

theorem exec_pdec (rd ra : Reg) (s : State) :
    exec (.pdec rd ra) s = .next ((s.setReg ra (decChain (s.reg ra))).setReg rd (s.reg ra)) := rfl

end Sys2Proof.Machine

namespace Sys2Proof.Certificates

open Sys2Proof.Machine

/-- Settles O31: the limbs by `limb_incChain` and `limb_decChain`, the lengths and the numbers by the laws of the chains. -/
theorem incDecChainsCarryThroughWrappedLimbs : Obligations.IncDecChainsCarryThroughWrappedLimbs := by
  intro w a ha
  refine ⟨(length_incChain a).trans ha, (length_decChain a).trans ha, fun i hi => ?_, ?_, ?_⟩
  · rw [← ha] at hi
    rw [limb_incChain hi, limb_decChain hi]
    exact ⟨fun hall => if_pos hall, fun ⟨j, hj, hne⟩ => if_neg fun hall => hne (hall j hj),
      fun hall => if_pos hall, fun ⟨j, hj, hne⟩ => if_neg fun hall => hne (hall j hj)⟩
  · rw [valueNat_incChain, ha, Width.bits]
  · rw [valueNat_decChain, ha, Width.bits]

/-- Settles O32: two register writes of the same value. -/
theorem incAndDecWriteTheNewValueTwice : Obligations.IncAndDecWriteTheNewValueTwice :=
  ⟨by decide, by decide, fun rd ra s => ⟨hasWord_wordOf (.inc rd ra), hasWord_wordOf (.dec rd ra),
    ⟨_, exec_inc rd ra s, onlyRegs_setReg_setReg s rd ra _ _, State.setReg_setReg_reg_first s rd ra _,
      State.setReg_reg_same _ rd _⟩,
    ⟨_, exec_dec rd ra s, onlyRegs_setReg_setReg s rd ra _ _, State.setReg_setReg_reg_first s rd ra _,
      State.setReg_reg_same _ rd _⟩⟩⟩

/-- Settles O33: the old value is written last, so V[RD] holds it, and V[RA] keeps the new one if it is another register. -/
theorem pincAndPdecReturnTheOldValue : Obligations.PincAndPdecReturnTheOldValue :=
  ⟨by decide, by decide, fun rd ra s => ⟨hasWord_wordOf (.pinc rd ra), hasWord_wordOf (.pdec rd ra),
    ⟨_, exec_pinc rd ra s, onlyRegs_setReg_setReg s rd ra _ _, State.setReg_reg_same _ rd _,
      fun hne => State.setReg_setReg_reg_first_of_ne s hne _ _⟩,
    ⟨_, exec_pdec rd ra s, onlyRegs_setReg_setReg s rd ra _ _, State.setReg_reg_same _ rd _,
      fun hne => State.setReg_setReg_reg_first_of_ne s hne _ _⟩⟩⟩

end Sys2Proof.Certificates
end

section
/-! PROOFS. The family of 43_shift.md: where each limb of a shift comes from (R140, R141, R142), the shifts as
multiplication and division (R140, R141) with the laws that follow (R147), then SHL, SHR, SHLI and SHRI (R143 to R146). -/

namespace Sys2Proof.Machine

/-! ## Limb by limb (R140 to R142) -/

/-- Both limbs that reach limb `j` from below lie in the value, so only the amount decides whether they are there. -/
theorem limb_shl (a : Value) (amount : Nat) {n j : Nat} (hj : j < n) :
    limb (shl n a amount) j =
      ((if amount / 32 ≤ j then limb a (j - amount / 32) <<< (amount % 32) else 0#32) |||
       (if amount % 32 ≠ 0 ∧ amount / 32 + 1 ≤ j then limb a (j - amount / 32 - 1) >>> (32 - amount % 32) else 0#32)) := by
  obtain ⟨_, hparts⟩ := shl_gathers n (amount / 32) (amount % 32) a n le_rfl
  have hwhole : j - amount / 32 < n := by omega
  have hcompl : j - amount / 32 - 1 < n := by omega
  refine (hparts j hj).trans ?_
  simp only [shlPart, hwhole, hcompl, and_true]

theorem limb_shr (a : Value) (amount : Nat) {n j : Nat} (hj : j < n) :
    limb (shr n a amount) j =
      ((if j + amount / 32 < n then limb a (j + amount / 32) >>> (amount % 32) else 0#32) |||
       (if amount % 32 ≠ 0 ∧ j + amount / 32 + 1 < n then limb a (j + amount / 32 + 1) <<< (32 - amount % 32) else 0#32)) :=
  (shr_gathers n (amount / 32) (amount % 32) a n le_rfl).2 j hj

/-- A multiple of 32 has r = 0: the limbs move up whole (R147). -/
theorem limb_shl_mul_32 (a : Value) (m : Nat) {n j : Nat} (hj : j < n) :
    limb (shl n a (32 * m)) j = if m ≤ j then limb a (j - m) else 0#32 := by
  have hk : 32 * m / 32 = m := Nat.mul_div_cancel_left m (by decide)
  have hr : 32 * m % 32 = 0 := Nat.mul_mod_right 32 m
  rw [limb_shl a _ hj, hk, hr]
  simp

/-- A multiple of 32 has r = 0: the limbs move down whole (R147). -/
theorem limb_shr_mul_32 (a : Value) (m : Nat) {n j : Nat} (hj : j < n) :
    limb (shr n a (32 * m)) j = if j + m < n then limb a (j + m) else 0#32 := by
  have hk : 32 * m / 32 = m := Nat.mul_div_cancel_left m (by decide)
  have hr : 32 * m % 32 = 0 := Nat.mul_mod_right 32 m
  rw [limb_shr a _ hj, hk, hr]
  simp

/-! ## As numbers (R140, R141) -/

theorem valueNat_shl (n : Nat) (a : Value) (amount : Nat) :
    valueNat (shl n a amount) = valueNat a * 2 ^ amount % 2 ^ (32 * n) := by
  apply Nat.eq_of_testBit_eq
  intro p
  rw [testBit_shl, Nat.testBit_mod_two_pow, Nat.testBit_mul_two_pow, Bool.and_assoc]

theorem valueNat_shr {n : Nat} {a : Value} (ha : a.length = n) (amount : Nat) :
    valueNat (shr n a amount) = valueNat a / 2 ^ amount := by
  apply Nat.eq_of_testBit_eq
  intro p
  rw [testBit_shr n a amount p ha, Nat.testBit_div_two_pow]

/-! ## Composition and excessive amounts (R147) -/

theorem shl_shl (n : Nat) (a : Value) (s1 s2 : Nat) : shl n (shl n a s1) s2 = shl n a (s1 + s2) := by
  apply eq_of_valueNat (by rw [length_shl, length_shl])
  rw [valueNat_shl, valueNat_shl, valueNat_shl, Nat.mod_mul_mod, Nat.mul_assoc, ← Nat.pow_add]

theorem shr_shr {n : Nat} {a : Value} (ha : a.length = n) (s1 s2 : Nat) :
    shr n (shr n a s1) s2 = shr n a (s1 + s2) := by
  apply eq_of_valueNat (by rw [length_shr, length_shr])
  rw [valueNat_shr (length_shr n a s1), valueNat_shr ha, valueNat_shr ha, Nat.div_div_eq_div_mul, ← Nat.pow_add]

/-- 2^N divides a · 2^s. -/
theorem shl_eq_zeroValue (w : Width) (a : Value) {amount : Nat} (h : w.bits ≤ amount) :
    shl w.limbs a amount = zeroValue w := by
  apply eq_zeroValue (length_shl _ _ _)
  rw [valueNat_shl]
  exact Nat.mod_eq_zero_of_dvd (dvd_mul_of_dvd_right (pow_dvd_pow 2 h) (valueNat a))

/-- a is below 2^N, so below 2^s. -/
theorem shr_eq_zeroValue {w : Width} {a : Value} (ha : a.length = w.limbs) {amount : Nat} (h : w.bits ≤ amount) :
    shr w.limbs a amount = zeroValue w := by
  have hlt : valueNat a < 2 ^ w.bits := by
    rw [Width.bits, ← ha]
    exact valueNat_lt a
  apply eq_zeroValue (length_shr _ _ _)
  rw [valueNat_shr ha]
  exact Nat.div_eq_of_lt (hlt.trans_le (Nat.pow_le_pow_right (by decide) h))

/-! ## What the commands answer -/

/-- ARG[31:0] as a number. -/
theorem argAmount_eq (s : State) : argAmount s = s.arg.toNat % 2 ^ 32 := by
  rw [argAmount, BitVec.extractLsb'_toNat, Nat.shiftRight_zero]

theorem exec_shl (rd ra : Reg) (s : State) :
    exec (.shl rd ra) s = .next (s.setReg rd (shl s.limbs (s.reg ra) (argAmount s))) := rfl

theorem exec_shr (rd ra : Reg) (s : State) :
    exec (.shr rd ra) s = .next (s.setReg rd (shr s.limbs (s.reg ra) (argAmount s))) := rfl

theorem exec_shli (rd ra : Reg) (imm : BitVec 16) (s : State) :
    exec (.shli rd ra imm) s = .next (s.setReg rd (shl s.limbs (s.reg ra) imm.toNat)) := rfl

theorem exec_shri (rd ra : Reg) (imm : BitVec 16) (s : State) :
    exec (.shri rd ra imm) s = .next (s.setReg rd (shr s.limbs (s.reg ra) imm.toNat)) := rfl

end Sys2Proof.Machine

namespace Sys2Proof.Certificates

open Sys2Proof.Machine

/-- Settles O34: the limbs a shifter has gathered once every source limb has contributed. -/
theorem shifterPlacesTheLimbs : Obligations.ShifterPlacesTheLimbs := fun n amount a =>
  ⟨length_shl n a amount, length_shr n a amount, fun _ hj => ⟨limb_shl a amount hj, limb_shr a amount hj⟩⟩

/-- Settles O36: the results agree with the product and the quotient bit by bit. -/
theorem shiftsMultiplyAndDivide : Obligations.ShiftsMultiplyAndDivide := fun w a amount ha =>
  ⟨valueNat_shl w.limbs a amount, valueNat_shr ha amount⟩

/-- Settles O37: limb moves from where each limb comes from, the other laws from the shifts as numbers. -/
theorem shiftLawsHold : Obligations.ShiftLawsHold := fun w a m s1 s2 ha =>
  ⟨fun _ hj => ⟨limb_shl_mul_32 a m hj, limb_shr_mul_32 a m hj⟩, shl_shl w.limbs a s1 s2, shr_shr ha s1 s2,
    fun h => ⟨shl_eq_zeroValue w a h, shr_eq_zeroValue ha h⟩⟩

/-- Settles O35: one register write each, by ARG[31:0] or by IMM. -/
theorem shiftCommandsWriteTheirResults : Obligations.ShiftCommandsWriteTheirResults := by
  refine ⟨by decide, by decide, by decide, by decide, fun rd ra imm s => ⟨hasWord_wordOf (.shl rd ra),
    hasWord_wordOf (.shr rd ra), hasWord_wordOf (.shli rd ra imm), hasWord_wordOf (.shri rd ra imm),
    ⟨_, exec_shl rd ra s, onlyRegs_setReg s rd _, ?_⟩, ⟨_, exec_shr rd ra s, onlyRegs_setReg s rd _, ?_⟩,
    ⟨_, exec_shli rd ra imm s, onlyRegs_setReg s rd _, State.setReg_reg_same s rd _⟩,
    ⟨_, exec_shri rd ra imm s, onlyRegs_setReg s rd _, State.setReg_reg_same s rd _⟩⟩⟩ <;>
    rw [State.setReg_reg_same, argAmount_eq]

end Sys2Proof.Certificates
end

section
/-! PROOFS. The family of 44_compare.md: the limb at which CMP's scan is decided (R160), the order it computes as the order
of the numbers (R161), the test of CMPEQ64 (R162), and the frame of a command that writes LT, EQ and GT. -/

namespace Sys2Proof.Machine

open Sys2Proof.Certificates

/-! ## CMP's scan (R160, R161) -/

/-- Among the low `n` limbs, the most significant at which `a` and `b` differ stands in the relation `r`: less than for LT,
greater than for GT (R160). -/
def DecidedBy (r : Nat → Nat → Prop) (a b : Value) (n : Nat) : Prop :=
  ∃ i : Nat, i < n ∧ r (limb a i).toNat (limb b i).toNat ∧ ∀ j : Nat, i < j → j < n → limb a j = limb b j

theorem not_decidedBy_zero (r : Nat → Nat → Prop) (a b : Value) : ¬DecidedBy r a b 0 :=
  fun ⟨i, hi, _⟩ => i.not_lt_zero hi

/-- The top limb decides, or the two values agree there and a lower limb decides. -/
theorem decidedBy_succ (r : Nat → Nat → Prop) (a b : Value) (n : Nat) :
    DecidedBy r a b (n + 1) ↔
      r (limb a n).toNat (limb b n).toNat ∨ limb a n = limb b n ∧ DecidedBy r a b n := by
  constructor
  · rintro ⟨i, hi, hr, habove⟩
    obtain hin | rfl := Nat.lt_succ_iff_lt_or_eq.1 hi
    · exact .inr ⟨habove n hin n.lt_succ_self, i, hin, hr, fun j hij hj => habove j hij (Nat.lt_succ_of_lt hj)⟩
    · exact .inl hr
  · rintro (hr | ⟨htop, i, hin, hr, habove⟩)
    · exact ⟨n, n.lt_succ_self, hr, fun j hnj hj => by omega⟩
    · refine ⟨i, Nat.lt_succ_of_lt hin, hr, fun j hij hj => ?_⟩
      obtain hjn | rfl := Nat.lt_succ_iff_lt_or_eq.1 hj
      · exact habove j hij hjn
      · exact htop

/-- The scan compares the top limbs, then the rest. -/
theorem compareLimbs_succ (a b : Value) (n : Nat) :
    compareLimbs a b (n + 1) = (compare (limb a n).toNat (limb b n).toNat).then (compareLimbs a b n) := by
  rw [compareLimbs, Nat.compare_eq_ite_lt]
  split
  · rfl
  · split <;> rfl

theorem compareLimbs_eq_lt_iff (a b : Value) (n : Nat) : compareLimbs a b n = .lt ↔ DecidedBy (· < ·) a b n := by
  induction n with
  | zero => simp [compareLimbs, not_decidedBy_zero]
  | succ n ih =>
    rw [compareLimbs_succ, Ordering.then_eq_lt, Nat.compare_eq_lt, Nat.compare_eq_eq, BitVec.toNat_inj, ih, decidedBy_succ]

theorem compareLimbs_eq_gt_iff (a b : Value) (n : Nat) : compareLimbs a b n = .gt ↔ DecidedBy (· > ·) a b n := by
  induction n with
  | zero => simp [compareLimbs, not_decidedBy_zero]
  | succ n ih =>
    rw [compareLimbs_succ, Ordering.then_eq_gt, Nat.compare_eq_gt, Nat.compare_eq_eq, BitVec.toNat_inj, ih, decidedBy_succ]

theorem compareLimbs_eq_eq_iff (a b : Value) (n : Nat) :
    compareLimbs a b n = .eq ↔ ∀ j : Nat, j < n → limb a j = limb b j := by
  induction n with
  | zero => simp [compareLimbs]
  | succ n ih =>
    rw [compareLimbs_succ, Ordering.then_eq_eq, Nat.compare_eq_eq, BitVec.toNat_inj, ih, Nat.forall_lt_succ_right, and_comm]

/-- On whole values the scan is the order of the numbers (R161). -/
theorem compareLimbs_eq_compare_valueNat {a b : Value} {n : Nat} (ha : a.length = n) (hb : b.length = n) :
    compareLimbs a b n = compare (valueNat a) (valueNat b) := by
  rw [compareLimbs_eq, fromLimbs_limb a n ha, fromLimbs_limb b n hb]

/-! ## CMPEQ64's test (R162) -/

theorem equals64_iff (a : Value) (x : DWord) (n : Nat) :
    equals64 a x n = true ↔ limb a 0 = x.extractLsb' 0 32 ∧ limb a 1 = x.extractLsb' 32 32 ∧
      ∀ i : Nat, 2 ≤ i → i < n → limb a i = 0#32 := by
  have hupper : (List.range n).all (fun i => i < 2 || limb a i == 0#32) = true ↔
      ∀ i : Nat, 2 ≤ i → i < n → limb a i = 0#32 := by
    simp only [List.all_eq_true, List.mem_range, Bool.or_eq_true, decide_eq_true_eq, beq_iff_eq]
    exact forall_congr' fun i => ⟨fun h h2 hi => (h hi).resolve_left h2.not_gt,
      fun h hi => or_iff_not_imp_left.2 fun h2 => h (Nat.le_of_not_lt h2) hi⟩
  rw [equals64, Bool.and_eq_true, Bool.and_eq_true, beq_iff_eq, beq_iff_eq, hupper, and_assoc]

/-! ## Writing LT, EQ and GT -/

/-- The frame of a write of the order flags (R28). -/
theorem onlyFlags_setOrder (s : State) (l e g : Bool) : OnlyFlags s (s.setOrder l e g) :=
  ⟨fun _ _ => rfl, ⟨rfl, rfl, rfl⟩, ⟨rfl, rfl, rfl, rfl⟩, fun _ => rfl, rfl, rfl, rfl, rfl, rfl⟩

theorem onlyFlags_setOrdering (o : Ordering) (s : State) : OnlyFlags s (setOrdering o s) := by
  cases o <;> exact onlyFlags_setOrder s _ _ _

theorem setOrdering_lt_iff (o : Ordering) (s : State) : (setOrdering o s).lt = true ↔ o = .lt := by
  rw [setOrdering_lt, beq_iff_eq]

theorem setOrdering_eq_iff (o : Ordering) (s : State) : (setOrdering o s).eq = true ↔ o = .eq := by
  rw [setOrdering_eq, beq_iff_eq]

theorem setOrdering_gt_iff (o : Ordering) (s : State) : (setOrdering o s).gt = true ↔ o = .gt := by
  rw [setOrdering_gt, beq_iff_eq]

/-- Each outcome sets its own flag and clears the other two. -/
theorem setOrdering_sets_one_flag (o : Ordering) (s : State) :
    ((setOrdering o s).lt = true ∧ (setOrdering o s).eq = false ∧ (setOrdering o s).gt = false) ∨
      ((setOrdering o s).lt = false ∧ (setOrdering o s).eq = true ∧ (setOrdering o s).gt = false) ∨
      ((setOrdering o s).lt = false ∧ (setOrdering o s).eq = false ∧ (setOrdering o s).gt = true) := by
  cases o with
  | lt => exact .inl ⟨rfl, rfl, rfl⟩
  | eq => exact .inr (.inl ⟨rfl, rfl, rfl⟩)
  | gt => exact .inr (.inr ⟨rfl, rfl, rfl⟩)

/-! ## What the commands answer -/

theorem exec_cmp (ra rb : Reg) (s : State) :
    exec (.cmp ra rb) s = .next (setOrdering (compareLimbs (s.reg ra) (s.reg rb) s.limbs) s) := rfl

theorem exec_cmpeq64 (ra : Reg) (s : State) :
    exec (.cmpeq64 ra) s = .next (s.setOrder false (equals64 (s.reg ra) s.arg s.limbs) false) := rfl

end Sys2Proof.Machine

namespace Sys2Proof.Certificates

open Sys2Proof.Machine

/-- Settles O39: on values of W limbs the scan is the comparison of the numbers. -/
theorem cmpIsTheNumericOrder : Obligations.CmpIsTheNumericOrder := by
  refine fun ra rb s hexact => ⟨_, exec_cmp ra rb s, ?_⟩
  rw [compareLimbs_eq_compare_valueNat (hexact ra) (hexact rb), setOrdering_lt_iff, setOrdering_eq_iff, setOrdering_gt_iff]
  exact ⟨Nat.compare_eq_lt, Nat.compare_eq_eq, Nat.compare_eq_gt⟩

/-- Settles O38: each flag is one outcome of the scan, which the highest limb that differs decides. -/
theorem cmpSetsOneOrderFlag : Obligations.CmpSetsOneOrderFlag :=
  ⟨by decide, fun ra rb s => ⟨hasWord_wordOf (.cmp ra rb), _, exec_cmp ra rb s, onlyFlags_setOrdering _ s,
    (setOrdering_lt_iff _ s).trans (compareLimbs_eq_lt_iff _ _ _),
    (setOrdering_gt_iff _ s).trans (compareLimbs_eq_gt_iff _ _ _),
    (setOrdering_eq_iff _ s).trans (compareLimbs_eq_eq_iff _ _ _), setOrdering_sets_one_flag _ s⟩⟩

/-- Settles O40: EQ is the test against ARG's halves and zeros above; LT and GT are written 0. -/
theorem cmpeq64ComparesWithArg : Obligations.Cmpeq64ComparesWithArg :=
  ⟨by decide, fun ra s => ⟨hasWord_wordOf (.cmpeq64 ra), _, exec_cmpeq64 ra s, onlyFlags_setOrder s _ _ _, rfl, rfl,
    equals64_iff (s.reg ra) s.arg s.limbs⟩⟩

end Sys2Proof.Certificates
end

section
/-! PROOFS. The family of 45_bitwise.md: the limbs of a limbwise operation, what a command that writes one leaves in RD and
outside it, then AND, OR and XOR (R170 to R172). -/

namespace Sys2Proof.Machine

open Sys2Proof.Certificates

/-! ## Limb by limb -/

@[simp] theorem length_limbwise (f : Limb → Limb → Limb) (n : Nat) (a b : Value) : (limbwise f n a b).length = n :=
  length_fromLimbs n _

/-- No bit moves between limbs: limb `i` comes from the limbs `i` of the operands alone. -/
theorem limb_limbwise (f : Limb → Limb → Limb) (a b : Value) {i n : Nat} (hi : i < n) :
    limb (limbwise f n a b) i = f (limb a i) (limb b i) := by
  rw [limbwise, limb_fromLimbs, if_pos hi]

/-- Writing V[RD] with `f` on every limb of `a` and `b`: RD's limbs, and the frame. -/
theorem setReg_limbwise (f : Limb → Limb → Limb) (rd : Reg) (a b : Value) (s : State) :
    OnlyRegs [rd] s (s.setReg rd (limbwise f s.limbs a b)) ∧
      ((s.setReg rd (limbwise f s.limbs a b)).reg rd).length = s.limbs ∧
      ∀ i : Nat, i < s.limbs → limb ((s.setReg rd (limbwise f s.limbs a b)).reg rd) i = f (limb a i) (limb b i) := by
  rw [State.setReg_reg_same]
  exact ⟨onlyRegs_setReg s rd _, length_limbwise f _ a b, fun _ hi => limb_limbwise f a b hi⟩

/-! ## What the commands answer -/

theorem exec_and (rd ra rb : Reg) (s : State) :
    exec (.and rd ra rb) s = .next (s.setReg rd (limbwise (· &&& ·) s.limbs (s.reg ra) (s.reg rb))) := rfl

theorem exec_or (rd ra rb : Reg) (s : State) :
    exec (.or rd ra rb) s = .next (s.setReg rd (limbwise (· ||| ·) s.limbs (s.reg ra) (s.reg rb))) := rfl

theorem exec_xor (rd ra rb : Reg) (s : State) :
    exec (.xor rd ra rb) s = .next (s.setReg rd (limbwise (· ^^^ ·) s.limbs (s.reg ra) (s.reg rb))) := rfl

end Sys2Proof.Machine

namespace Sys2Proof.Certificates

open Sys2Proof.Machine

/-- Settles O41: each command is one register write of a limbwise operation. -/
theorem bitwiseCommandsWorkLimbByLimb : Obligations.BitwiseCommandsWorkLimbByLimb :=
  ⟨by decide, by decide, by decide, fun rd ra rb s =>
    ⟨hasWord_wordOf (.and rd ra rb), hasWord_wordOf (.or rd ra rb), hasWord_wordOf (.xor rd ra rb),
      ⟨_, exec_and rd ra rb s, setReg_limbwise (· &&& ·) rd _ _ s⟩,
      ⟨_, exec_or rd ra rb s, setReg_limbwise (· ||| ·) rd _ _ s⟩,
      ⟨_, exec_xor rd ra rb s, setReg_limbwise (· ^^^ ·) rd _ _ s⟩⟩⟩

end Sys2Proof.Certificates
end

section
/-! PROOFS. The family of 46_serdes.md: the form TOBYTES and TOHEX leave in BUF and BLEN (R180, R185), the value FROMBYTES
reads there (R183), the digits FROMHEX finds in a text (R186 to R188), the two round trips (R182, R189), and GET64 (R190). -/

namespace Sys2Proof.Machine

open Sys2Proof.Certificates

variable {s : State} {n : Nat} {f : Nat → Byte}

/-! ## A form in BUF -/

/-- `s` with the bytes `f 0`, …, `f (n − 1)` in BUF from byte 0 and `n` in BLEN: what TOBYTES and TOHEX write (R180, R185). -/
def State.writeForm (s : State) (n : Nat) (f : Nat → Byte) : State :=
  (s.writeBytes 0 ((List.range n).map f)).setBlen (BitVec.ofNat 32 n)

theorem State.writeForm_readByte (s : State) (n : Nat) (f : Nat → Byte) (k : Nat) :
    (s.writeForm n f).readByte k = if k < n then f k else s.readByte k :=
  Memory.read_writeRange s.buf n k f

theorem State.writeForm_readByte_of_lt {k : Nat} (hk : k < n) : (s.writeForm n f).readByte k = f k := by
  rw [State.writeForm_readByte, if_pos hk]

/-- No form is longer than BUF, so BLEN holds its length. -/
theorem State.writeForm_blen_toNat (hn : n ≤ 256) : (s.writeForm n f).blen.toNat = n := by
  rw [State.writeForm, State.setBlen_blen, BitVec.toNat_ofNat]
  exact Nat.mod_eq_of_lt (by omega)

/-- Only BLEN and the bytes of the form change. -/
theorem onlyBufBelow_writeForm (s : State) (n : Nat) (f : Nat → Byte) : OnlyBufBelow n s (s.writeForm n f) := by
  refine ⟨fun _ _ => rfl, rfl, rfl, ⟨rfl, rfl, rfl⟩, ⟨rfl, rfl, rfl, rfl⟩, ⟨rfl, rfl, rfl, rfl, rfl⟩, fun a ha => ?_⟩
  rw [State.writeForm_readByte, if_neg (Nat.not_lt.2 ha)]

/-- A form is a text FROMHEX can read. -/
theorem holdsText_writeForm (s : State) (f : Nat → Byte) (hn : n ≤ 256) :
    HoldsText (s.writeForm n f) ((List.range n).map f) := by
  simp only [HoldsText, List.length_map, List.length_range]
  refine ⟨hn, rfl, fun j hj => ?_⟩
  rw [State.writeForm_readByte_of_lt hj]
  simp [List.getD_eq_getElem?_getD, hj]

theorem bytes_le_256 (w : Width) : w.bytes ≤ 256 := by cases w <;> decide

theorem chars_le_256 (w : Width) : w.chars ≤ 256 := by cases w <;> decide

/-! ## The binary form read (R183) -/

/-- The value FROMBYTES makes of BUF and BLEN. -/
def binaryValue (s : State) : Value :=
  if s.blen.toNat = 4 * s.limbs then fromBytes s.limbs s.readByte else zeroValue s.params.width

theorem binaryValue_of_full (h : s.blen.toNat = 4 * s.limbs) : binaryValue s = fromBytes s.limbs s.readByte := if_pos h

theorem binaryValue_of_ne (h : s.blen.toNat ≠ 4 * s.limbs) : binaryValue s = zeroValue s.params.width := if_neg h

theorem length_binaryValue (s : State) : (binaryValue s).length = s.limbs := by
  unfold binaryValue
  split
  · exact length_fromBytes _ _
  · exact length_zeroValue _

/-- No byte at B or above is read. -/
theorem binaryValue_congr {u : State} (hp : u.params = s.params) (hb : u.blen = s.blen)
    (hbuf : ∀ k : Nat, k < 4 * s.limbs → u.readByte k = s.readByte k) : binaryValue u = binaryValue s := by
  have hl : u.limbs = s.limbs := congrArg (fun p => p.width.limbs) hp
  rw [binaryValue, binaryValue, hb, hl, hp, fromBytes_congr hbuf]

/-- The comparison with B on all 32 bits of BLEN is one of numbers. -/
theorem blen_eq_bytes_iff (s : State) : s.blen = BitVec.ofNat 32 s.params.width.bytes ↔ s.blen.toNat = 4 * s.limbs := by
  have hB : s.params.width.bytes % 2 ^ 32 = s.params.width.bytes := by
    have hle := bytes_le_256 s.params.width
    exact Nat.mod_eq_of_lt (by omega)
  rw [← BitVec.toNat_inj, BitVec.toNat_ofNat, hB]
  rfl

/-- The binary form of a value of W limbs is read back as that value (R182). -/
theorem binaryValue_writeForm {x : Value} (hx : x.length = s.limbs) :
    binaryValue (s.writeForm s.params.width.bytes (byteOf x)) = x := by
  rw [binaryValue_of_full (State.writeForm_blen_toNat (bytes_le_256 _))]
  exact (fromBytes_congr fun _ hk => State.writeForm_readByte_of_lt hk).trans (fromBytes_byteOf x s.limbs hx)

/-! ## The digits in a text (R187, R188) -/

/-- The text begins with the mark `0x` or `0X`. -/
def StartsWithHexMark (text : List Byte) : Prop :=
  ∃ (c : Byte) (rest : List Byte), text = 0x30#8 :: c :: rest ∧ (c = 0x78#8 ∨ c = 0x58#8)

/-- One mark is skipped, and a second one behind it is not. -/
theorem skipHexMark_append {mark body : List Byte} (hmark : mark ∈ hexMarks)
    (hbody : mark = [] → ¬StartsWithHexMark body) : skipHexMark (mark ++ body) = body := by
  simp only [hexMarks, List.mem_cons, List.not_mem_nil, or_false] at hmark
  rcases hmark with rfl | rfl | rfl
  · exact skipHexMark_none body (hbody rfl)
  · rfl
  · rfl

/-- A mark is no whitespace. -/
theorem head_hexMark_append {mark body : List Byte} (hmark : mark ∈ hexMarks)
    (hbody : mark = [] → ∀ c ∈ body.head?, isSpace c = false) : ∀ c ∈ (mark ++ body).head?, isSpace c = false := by
  simp only [hexMarks, List.mem_cons, List.not_mem_nil, or_false] at hmark
  rcases hmark with rfl | rfl | rfl
  · exact hbody rfl
  all_goals
    rintro c ⟨⟩
    rfl

/-- Digits are no whitespace: whitespace can only follow an empty run of them. -/
theorem head_digits_append {ds tail : List Byte} (hds : ∀ d ∈ ds, isHexDigit d = true)
    (hspace : ds = [] → ∀ c ∈ tail.head?, isSpace c = false) : ∀ c ∈ (ds ++ tail).head?, isSpace c = false := by
  cases ds with
  | nil => exact hspace rfl
  | cons d ds =>
    rintro c ⟨⟩
    exact isSpace_of_isHexDigit d (hds d List.mem_cons_self)

/-- `x` is no digit: digits make a mark only if they are a lone `0` with `x` or `X` behind it. -/
theorem not_startsWithHexMark_append {ds tail : List Byte} (hds : ∀ d ∈ ds, isHexDigit d = true)
    (htail : ∀ c ∈ tail.head?, isHexDigit c = false)
    (hzero : ds = [0x30#8] → ∀ c ∈ tail.head?, c ≠ 0x78#8 ∧ c ≠ 0x58#8) : ¬StartsWithHexMark (ds ++ tail) := by
  rintro ⟨c, rest, heq, hc⟩
  match ds with
  | [] =>
    rw [List.nil_append] at heq
    exact absurd (htail 0x30#8 (by rw [heq]; rfl)) (by decide)
  | [d] =>
    obtain ⟨rfl, rfl⟩ := List.cons.inj heq
    obtain ⟨hx, hX⟩ := hzero rfl c rfl
    exact hc.elim hx hX
  | d :: e :: ds =>
    obtain ⟨_, hrest⟩ := List.cons.inj heq
    obtain ⟨rfl, _⟩ := List.cons.inj hrest
    have he : isHexDigit e = true := hds e (by simp)
    rcases hc with rfl | rfl <;> exact absurd he (by decide)

/-- A text of whitespace, at most one mark, digits and a tail that continues none of them: the run starts at the digits. -/
theorem hexDigits_append (mode : HexMode) {ws mark ds tail : List Byte} (hws : ∀ c ∈ ws, isSpace c = true)
    (hmark : mark ∈ hexMarks) (hds : ∀ d ∈ ds, isHexDigit d = true) (htail : ∀ c ∈ tail.head?, isHexDigit c = false)
    (hspace : mark = [] → ds = [] → ∀ c ∈ tail.head?, isSpace c = false)
    (hzero : mark = [] → ds = [0x30#8] → ∀ c ∈ tail.head?, c ≠ 0x78#8 ∧ c ≠ 0x58#8) :
    hexDigits mode (ws ++ (mark ++ (ds ++ tail))) = digitRun mode (ds ++ tail) := by
  have hhead := head_hexMark_append hmark fun hm => head_digits_append hds (hspace hm)
  have hbody := skipHexMark_append hmark fun hm => not_startsWithHexMark_append hds htail (hzero hm)
  rw [hexDigits, dropWhile_space ws _ hws hhead, hbody]

/-- In STOP mode the run ends at the first byte that is no digit (R187). -/
theorem digitRun_stop_append {ds tail : List Byte} (hds : ∀ d ∈ ds, isHexDigit d = true)
    (htail : ∀ c ∈ tail.head?, isHexDigit c = false) : digitRun .stop (ds ++ tail) = ds :=
  takeWhile_digits ds tail hds htail

/-- In ZERO mode every byte is of the run (R188). -/
theorem digitRun_zero (text : List Byte) : digitRun .zero text = text := rfl

/-- On digits alone the modes agree. -/
theorem digitRun_digits (mode : HexMode) {ds : List Byte} (hds : ∀ d ∈ ds, isHexDigit d = true) :
    digitRun mode ds = ds := by
  cases mode with
  | stop => exact List.takeWhile_eq_self_iff.2 hds
  | zero => exact digitRun_zero ds

/-- In clean text the run is its digits, in both modes. -/
theorem hexDigits_clean (mode : HexMode) {ws mark ds : List Byte} (hws : ∀ c ∈ ws, isSpace c = true)
    (hmark : mark ∈ hexMarks) (hds : ∀ d ∈ ds, isHexDigit d = true) : hexDigits mode (ws ++ (mark ++ ds)) = ds := by
  have happend := hexDigits_append mode (tail := []) hws hmark hds nofun (fun _ _ => nofun) (fun _ _ => nofun)
  rwa [List.append_nil, digitRun_digits mode hds] at happend

theorem valueNat_parseHex_eq_hexNumber (mode : HexMode) (n : Nat) (text : List Byte) :
    valueNat (parseHex mode n text) = hexNumber (hexDigits mode text) % 2 ^ (32 * n) := by
  rw [valueNat_parseHex, hexNumber, foldl_hexVal]

/-! ## The hex form (R185, R189) -/

theorem hexChar_eq_getD (y : BitVec 4) : hexChar y = hexAlphabet.getD y.toNat 0#8 := by revert y; decide

/-- Character `j` is the digit 16^(H−1−j) counts, in R184's codes. -/
theorem hexCharAt_eq_getD (n : Nat) (x : Value) {j : Nat} (hj : j < 8 * n) :
    hexCharAt n x j = hexAlphabet.getD (valueNat x / 16 ^ (8 * n - 1 - j) % 16) 0#8 := by
  obtain ⟨y, hchar, hy⟩ := hexCharAt_eq n x j hj
  rw [hchar, hexChar_eq_getD, hy]

theorem isHexDigit_hexCharAt (n : Nat) (x : Value) (j : Nat) : isHexDigit (hexCharAt n x j) = true := by
  unfold hexCharAt
  dsimp only
  split <;> exact isHexDigit_hexChar _

/-- The hex form of a value parses to that value, in both modes: its characters are all digits, and their number is the
value's. -/
theorem parseHex_hexForm (mode : HexMode) {x : Value} (hx : x.length = n) :
    parseHex mode n ((List.range (8 * n)).map (hexCharAt n x)) = x := by
  have hdigits : ∀ d ∈ (List.range (8 * n)).map (hexCharAt n x), isHexDigit d = true :=
    List.forall_mem_map.2 fun j _ => isHexDigit_hexCharAt n x j
  have hrun : hexDigits mode ((List.range (8 * n)).map (hexCharAt n x)) = (List.range (8 * n)).map (hexCharAt n x) :=
    hexDigits_clean mode (ws := []) (mark := []) nofun List.mem_cons_self hdigits
  apply eq_of_valueNat (by rw [length_parseHex, hx])
  rw [valueNat_parseHex, hrun, digitsNat_hexForm n x _ le_rfl hx, Nat.sub_self, pow_zero, Nat.div_one]
  exact Nat.mod_eq_of_lt (hx ▸ valueNat_lt x)

/-! ## FROMHEX's text (R186) -/

theorem length_textBytes (s : State) : (textBytes s).length = min s.blen.toNat 256 := by
  rw [textBytes, List.length_map, List.length_range, textLength]

theorem getD_textBytes (s : State) {j : Nat} (hj : j < (textBytes s).length) :
    (textBytes s).getD j 0#8 = s.readByte j := by
  rw [List.getD_eq_getElem _ _ hj]
  simp [textBytes]

/-- The text FROMHEX reads is the one BUF and BLEN hold. -/
theorem textBytes_of_holdsText {text : List Byte} (h : HoldsText s text) : textBytes s = text := by
  obtain ⟨hle, hblen, hbytes⟩ := h
  have hlen : (textBytes s).length = text.length := by
    rw [length_textBytes, hblen, BitVec.toNat_ofNat]
    omega
  refine List.ext_getElem hlen fun j hj hj' => ?_
  rw [← List.getD_eq_getElem _ 0#8 hj, ← List.getD_eq_getElem _ 0#8 hj', getD_textBytes s hj, hbytes j hj']

/-! ## GET64's word (R190) -/

theorem word64_low (w : Nat) (x : Value) (n : Nat) :
    (word64 w x n).extractLsb' 0 32 = if 2 * n < w then limb x (2 * n) else 0#32 :=
  BitVec.extractLsb'_append_eq_right

theorem word64_high (w : Nat) (x : Value) (n : Nat) :
    (word64 w x n).extractLsb' 32 32 = if 2 * n + 1 < w then limb x (2 * n + 1) else 0#32 :=
  BitVec.extractLsb'_append_eq_left

/-! ## What the commands answer -/

theorem exec_tobytes (ra : Reg) (s : State) :
    exec (.tobytes ra) s = .next (s.writeForm s.params.width.bytes (byteOf (s.reg ra))) := rfl

theorem exec_frombytes (rd : Reg) (s : State) : exec (.frombytes rd) s = .next (s.setReg rd (binaryValue s)) := by
  rw [binaryValue, ← if_congr (blen_eq_bytes_iff s) rfl rfl, apply_ite (s.setReg rd), apply_ite Host.Outcome.next]
  rfl

theorem exec_tohex (ra : Reg) (s : State) :
    exec (.tohex ra) s = .next (s.writeForm s.params.width.chars (hexCharAt s.limbs (s.reg ra))) := rfl

theorem exec_fromhex (rd : Reg) (s : State) :
    exec (.fromhex rd) s = .next (s.setReg rd (parseHex s.params.hexMode s.limbs (textBytes s))) := rfl

theorem exec_get64 (ra : Reg) (imm : BitVec 16) (s : State) :
    exec (.get64 ra imm) s = .next (s.setRes (word64 s.limbs (s.reg ra) imm.toNat)) := rfl

/-- FROMHEX of a text whose run is known: V[RD] is the run's number modulo 2^N. -/
theorem exec_fromhex_number (rd : Reg) {text ds : List Byte} (htext : HoldsText s text)
    (hds : hexDigits s.params.hexMode text = ds) :
    ∃ t : State, exec (.fromhex rd) s = .next t ∧ valueNat (t.reg rd) = hexNumber ds % 2 ^ s.params.width.bits := by
  refine ⟨_, exec_fromhex rd s, ?_⟩
  rw [State.setReg_reg_same, textBytes_of_holdsText htext, valueNat_parseHex_eq_hexNumber, hds]
  rfl

/-- The CMD write of a command that is legal on every part executes it; then the rest of the run. -/
theorem runAccesses_command_cons {i : Instr} (h : ∀ w : Width, WellFormed w i = true) {as : List Access} {s t : State}
    (hx : exec i ((s.setPending as).setResponse .written) = .next t) :
    runAccesses (commandWrite (encode i) :: as) s = runAccesses as t := by
  refine runAccesses_cons ?_
  rw [performAccess_commandWrite, issueCommand_legal (decode_encode (h _)), hx]

end Sys2Proof.Machine

namespace Sys2Proof.Certificates

open Sys2Proof.Machine

/-- Settles O43: one register write, of the value BUF and BLEN make. -/
theorem frombytesReadsTheBinaryForm : Obligations.FrombytesReadsTheBinaryForm := by
  refine ⟨by decide, fun rd s => ⟨hasWord_wordOf (.frombytes rd), _, exec_frombytes rd s, onlyRegs_setReg s rd _, ?_⟩⟩
  rw [State.setReg_reg_same]
  refine ⟨length_binaryValue s, fun h => ?_, fun h => ?_, fun u hp hb hbuf => ⟨_, exec_frombytes rd u, ?_⟩⟩
  · rw [binaryValue_of_full h, valueNat_fromBytes]
  · rw [binaryValue_of_ne h, valueNat_zeroValue]
  · rw [State.setReg_reg_same, binaryValue_congr hp hb hbuf]

/-- Settles O44: the first write leaves the full binary form of V[RA], which the second reads. -/
theorem binaryFormRoundTrips : Obligations.BinaryFormRoundTrips := by
  intro ra rd s hexact
  refine ⟨_, (runAccesses_command_cons (fun _ => rfl) (exec_tobytes ra _)).trans
    ((runAccesses_command (fun _ => rfl) _).trans (exec_frombytes rd _)), ?_⟩
  rw [State.setReg_reg_same]
  exact (binaryValue_congr rfl rfl fun _ _ => rfl).trans (binaryValue_writeForm (hexact ra))

/-- Settles O45: the form written is that of the H characters, each the alphabet's entry for its digit. -/
theorem tohexWritesTheHexForm : Obligations.TohexWritesTheHexForm := by
  refine ⟨by decide, fun ra s => ⟨hasWord_wordOf (.tohex ra), fun _ => ⟨_, exec_tohex ra s, onlyBufBelow_writeForm s _ _,
    State.writeForm_blen_toNat (chars_le_256 _), fun j hj => ?_⟩⟩⟩
  exact (State.writeForm_readByte_of_lt hj).trans (hexCharAt_eq_getD _ _ hj)

/-- Settles O47: the run of a clean text is its digits. -/
theorem cleanHexTextParsesToItsNumber : Obligations.CleanHexTextParsesToItsNumber := by
  intro rd s ws mark ds htext hws hmark hds
  rw [List.append_assoc] at htext
  exact exec_fromhex_number rd htext (hexDigits_clean _ hws hmark hds)

/-- Settles O48: the run starts at the digits, and the mode says whether it ends at the stray byte. -/
theorem strayByteEndsTheRunOrCountsAsZero : Obligations.StrayByteEndsTheRunOrCountsAsZero := by
  intro rd s ws mark ds tail c htext hws hmark hds hstray hspace hzero
  have htail : ∀ x ∈ (c :: tail).head?, isHexDigit x = false := by
    rintro x ⟨⟩
    exact hstray
  have hrun : hexDigits s.params.hexMode (ws ++ (mark ++ (ds ++ c :: tail))) =
      digitRun s.params.hexMode (ds ++ c :: tail) := by
    refine hexDigits_append _ hws hmark hds htail (fun hm hd => ?_) (fun hm hd => ?_) <;> rintro x ⟨⟩
    · exact hspace hm hd
    · exact hzero hm hd
  rw [List.append_assoc, List.append_assoc] at htext
  obtain ⟨t, hexec, hvalue⟩ := exec_fromhex_number rd htext hrun
  refine ⟨t, hexec, hvalue.trans ?_⟩
  cases s.params.hexMode with
  | stop => rw [digitRun_stop_append hds htail]
  | zero => rw [digitRun_zero]

/-- Settles O49: the first write leaves the hex form of V[RA], which the second parses. -/
theorem hexFormRoundTrips : Obligations.HexFormRoundTrips := by
  intro ra rd s hexact
  refine ⟨_, (runAccesses_command_cons (fun _ => rfl) (exec_tohex ra _)).trans
    ((runAccesses_command (fun _ => rfl) _).trans (exec_fromhex rd _)), ?_⟩
  have htext := textBytes_of_holdsText
    (holdsText_writeForm s (hexCharAt s.limbs (s.reg ra)) (chars_le_256 s.params.width))
  rw [State.setReg_reg_same]
  exact (congrArg (parseHex s.params.hexMode s.limbs) htext).trans (parseHex_hexForm _ (hexact ra))

/-- Settles O42: the form written is that of the value's B bytes. -/
theorem tobytesWritesTheBinaryForm : Obligations.TobytesWritesTheBinaryForm := by
  refine ⟨by decide, fun ra s => ⟨hasWord_wordOf (.tobytes ra), fun _ => ⟨_, exec_tobytes ra s,
    onlyBufBelow_writeForm s _ _, State.writeForm_blen_toNat (bytes_le_256 _), fun k hk => ?_⟩⟩⟩
  exact (congrArg BitVec.toNat (State.writeForm_readByte_of_lt hk)).trans (byteOf_toNat (s.reg ra) k)

/-- Settles O46: one register write, of the parse of BUF's first min(BLEN, 256) bytes. -/
theorem fromhexParsesTheBuffer : Obligations.FromhexParsesTheBuffer := by
  refine ⟨by decide, fun rd s => ⟨hasWord_wordOf (.fromhex rd), _, textBytes s, exec_fromhex rd s, onlyRegs_setReg s rd _,
    length_textBytes s, fun _ hj => getD_textBytes s hj, ?_⟩⟩
  rw [State.setReg_reg_same]
  exact ⟨rfl, length_parseHex _ _ _⟩

/-- Settles O50: one write of RES, of the word made of the two limbs. -/
theorem get64ReadsOneWordOfAValue : Obligations.Get64ReadsOneWordOfAValue :=
  ⟨by decide, fun ra imm s => ⟨hasWord_wordOf (.get64 ra imm), _, exec_get64 ra imm s, fun _ _ => rfl, rfl, rfl,
    ⟨rfl, rfl, rfl⟩, ⟨rfl, rfl, rfl, rfl⟩, fun _ => rfl, ⟨rfl, rfl, rfl, rfl, rfl⟩,
    word64_low s.limbs (s.reg ra) imm.toNat, word64_high s.limbs (s.reg ra) imm.toNat⟩⟩

end Sys2Proof.Certificates
end

section
/-! PROOFS. The family of 60_exceptions.md: what a legal command, an illegal command, an access and a run do to the record of
illegal commands (R210, R213, R214; 92_eei_decisions.md D24). -/

namespace Sys2Proof.Machine

open Sys2Proof.Certificates

/-! ## One command -/

/-- Only TRIM on a part that has no TRIM records anything, and there it is not legal (30_encoding.md R78). -/
theorem exec_sameRecord {i : Instr} {s t : State} (hw : WellFormed s.params.width i = true) (hx : exec i s = .next t) :
    SameRecord s t := by
  rcases exec_cases hx with
    ⟨hregs, _⟩ | ⟨_, v, rfl⟩ | ⟨_, l, e, g, rfl, _⟩ | ⟨_, bs, n, rfl, _⟩ | ⟨htrim, hwidth, _⟩
  · obtain ⟨_, _, hrecord, _⟩ := hregs.sameButRegs
    exact hrecord
  case inr.inr.inr.inr => exact absurd ⟨htrim, hwidth⟩ ((wellFormed_iff _ i).1 hw)
  all_goals exact ⟨rfl, rfl, rfl, rfl⟩

theorem issueCommand_illegal {c : Word} {s : State} {cause : Cause} (hd : decode s.params.width c = .illegal cause) :
    issueCommand c s = .next (raiseIllegal cause c s) := by
  simp [issueCommand, hd]

/-- The CMD write of an illegal word records it and completes (R213). -/
theorem step_illegal {s : State} {off : BitVec 9} {c : Word} {rest : List Access} {cause : Cause}
    (hp : s.pending = .write off 0xF#4 c :: rest) (hoff : off &&& 0x1FC#9 = 0x004#9)
    (hd : decode s.params.width c = .illegal cause) :
    step s = .next (raiseIllegal cause c { s with pending := rest, response := .written }) := by
  rw [step_write_full hp, writeResponse_cmd hoff, writeWindow_cmd ((windowReg_cmd_iff off).2 hoff)]
  exact issueCommand_illegal hd

/-! ## One access, one step -/

/-- What an access can do to the record: add no entry and set ILL only by a loss of power, or add one entry. -/
theorem performAccess_record {a : Access} {s t : State} (hx : performAccess a s = .next t) :
    (t.illegalLog = s.illegalLog ∧ (t.ill = true → s.ill = true ∨ a = .powerLoss)) ∨
      ∃ r : IllegalRecord, t.illegalLog = r :: s.illegalLog := by
  cases a with
  | read off =>
    obtain rfl := Host.Outcome.next.inj hx
    exact .inl ⟨rfl, .inl⟩
  | reset =>
    obtain rfl := Host.Outcome.next.inj hx
    exact .inl ⟨rfl, fun hill => by simp [resetBlock, State.resetOf] at hill⟩
  | powerLoss =>
    obtain rfl := Host.Outcome.next.inj hx
    exact .inl ⟨rfl, fun _ => .inr rfl⟩
  | write off lanes data =>
    rcases writeWindow_cases hx with ⟨_, hc⟩ | ⟨_, rfl | rfl | ⟨v, rfl⟩ | ⟨v, rfl⟩ | ⟨j, _, rfl⟩⟩
    · rcases issueCommand_cases hc with ⟨i, hd, hi⟩ | ⟨cause, _, rfl⟩
      · obtain ⟨hill, _, _, hlog⟩ := exec_sameRecord (wellFormed_of_decode hd) hi
        exact .inl ⟨hlog, fun ht => .inl (hill.symm.trans ht)⟩
      · exact .inr ⟨⟨cause, _⟩, raiseIllegal_illegalLog _ _ _⟩
    case inr.inr.inl => exact .inl ⟨rfl, fun hill => by simp [clearIllegal] at hill⟩
    all_goals exact .inl ⟨rfl, .inl⟩

theorem step_nil {s : State} (hp : s.pending = []) : step s = .next s := by
  unfold step
  rw [hp]

theorem step_next (s : State) : ∃ t : State, step s = .next t := by
  cases hp : s.pending with
  | nil => exact ⟨s, step_nil hp⟩
  | cons a rest =>
    rw [step_cons hp]
    exact performAccess_next a _

/-- A step takes accesses off the host's list and adds none. -/
theorem step_pending_suffix {s t : State} (hstep : step s = .next t) : t.pending <:+ s.pending := by
  rcases step_cases hstep with ⟨_, rfl⟩ | ⟨a, rest, hp, ha⟩
  · exact List.suffix_rfl
  · rw [performAccess_pending ha, hp]
    exact List.suffix_cons a rest

/-- The model's record only grows (log 8). -/
theorem step_illegalLog_suffix {s t : State} (hstep : step s = .next t) : s.illegalLog <:+ t.illegalLog := by
  rcases step_cases hstep with ⟨_, rfl⟩ | ⟨a, rest, _, ha⟩
  · exact List.suffix_rfl
  · rcases performAccess_record ha with ⟨hlog, _⟩ | ⟨r, hlog⟩ <;> rw [hlog]
    · exact List.suffix_rfl
    · exact List.suffix_cons r _

/-- A step that records no illegal command sets ILL only by a loss of power. -/
theorem step_ill_of_sameLog {s t : State} (hstep : step s = .next t) (hlog : t.illegalLog = s.illegalLog)
    (hpower : Access.powerLoss ∉ s.pending) (hill : t.ill = true) : s.ill = true := by
  rcases step_cases hstep with ⟨_, rfl⟩ | ⟨a, rest, hp, ha⟩
  · exact hill
  · rcases performAccess_record ha with ⟨_, hset⟩ | ⟨r, hgrown⟩
    · refine (hset hill).resolve_right fun ha => hpower ?_
      rw [hp, ha]
      exact List.mem_cons_self
    · exact absurd (hlog.symm.trans hgrown).symm (List.cons_ne_self r _)

/-! ## A run -/

theorem run_illegalLog_suffix {k : Nat} {s t : State} (hrun : Host.Core.run Sys2Proof.core k s = .next t) :
    s.illegalLog <:+ t.illegalLog := by
  induction k generalizing s with
  | zero =>
    obtain rfl := Host.Outcome.next.inj hrun
    exact List.suffix_rfl
  | succ k ih =>
    obtain ⟨u, hstep, hrest⟩ := run_succ_inv hrun
    exact (step_illegalLog_suffix hstep).trans (ih hrest)

/-- In a run that records no illegal command no step records one: the record only grows. -/
theorem run_ill_of_sameLog {k : Nat} {s t : State} (hrun : Host.Core.run Sys2Proof.core k s = .next t)
    (hlog : t.illegalLog = s.illegalLog) (hpower : Access.powerLoss ∉ s.pending) (hill : t.ill = true) : s.ill = true := by
  induction k generalizing s with
  | zero =>
    obtain rfl := Host.Outcome.next.inj hrun
    exact hill
  | succ k ih =>
    obtain ⟨u, hstep, hrest⟩ := run_succ_inv hrun
    have hsu : s.illegalLog <:+ u.illegalLog := step_illegalLog_suffix hstep
    have hus : u.illegalLog <:+ s.illegalLog := hlog ▸ run_illegalLog_suffix hrest
    have hu : u.illegalLog = s.illegalLog := hus.eq_of_length_le hsu.length_le
    have hpower' : Access.powerLoss ∉ u.pending := fun hmem => hpower ((step_pending_suffix hstep).subset hmem)
    exact step_ill_of_sameLog hstep hu hpower (ih hrest (hlog.trans hu.symm) hpower')

/-! ## A sequence of command words (R214) -/

/-- The CMD write of a legal word executes it; then the rest of the run. -/
theorem runAccesses_legal_cons {c : Word} {i : Instr} {as : List Access} {s t : State}
    (hd : decode s.params.width c = .legal i) (hx : exec i ((s.setPending as).setResponse .written) = .next t) :
    runAccesses (commandWrite c :: as) s = runAccesses as t := by
  refine runAccesses_cons ?_
  rw [performAccess_commandWrite, issueCommand_legal (s := (s.setPending as).setResponse .written) hd, hx]

/-- The CMD write of an illegal word records it; then the rest of the run. -/
theorem runAccesses_illegal_cons {c : Word} {cause : Cause} (as : List Access) {s : State}
    (hd : decode s.params.width c = .illegal cause) :
    runAccesses (commandWrite c :: as) s =
      runAccesses as (raiseIllegal cause c ((s.setPending as).setResponse .written)) := by
  refine runAccesses_cons ?_
  rw [performAccess_commandWrite, issueCommand_illegal (s := (s.setPending as).setResponse .written) hd]

/-- The first command word of a sequence, on the record: none if it is legal, the record of it if it is illegal. -/
theorem runAccesses_commandWrite_cons (c : Word) (as : List Access) (s : State) :
    ∃ u : State, runAccesses (commandWrite c :: as) s = runAccesses as u ∧ u.params = s.params ∧
      (((∃ i : Instr, decode s.params.width c = .legal i) ∧ SameRecord s u) ∨
        ∃ cause : Cause, decode s.params.width c = .illegal cause ∧ u.ill = true ∧
          (s.ill = false → u.cause = causeCode cause ∧ u.errcmd = c) ∧
          (s.ill = true → u.cause = s.cause ∧ u.errcmd = s.errcmd)) := by
  cases hd : decode s.params.width c with
  | legal i =>
    have hw : WellFormed s.params.width i = true := wellFormed_of_decode hd
    obtain ⟨u, hx⟩ := exec_next i ((s.setPending as).setResponse .written)
    obtain ⟨hparams, _⟩ := exec_outside hx
    have hrecord := exec_sameRecord (s := (s.setPending as).setResponse .written) hw hx
    exact ⟨u, runAccesses_legal_cons hd hx, hparams, .inl ⟨⟨i, rfl⟩, hrecord⟩⟩
  | illegal cause =>
    have hfirst := raiseIllegal_first cause c ((s.setPending as).setResponse .written)
    have hkept := raiseIllegal_kept cause c ((s.setPending as).setResponse .written)
    exact ⟨_, runAccesses_illegal_cons as hd, raiseIllegal_params _ _ _,
      .inr ⟨cause, rfl, raiseIllegal_ill _ _ _, hfirst, hkept⟩⟩

/-- While ILL = 1 a sequence of command words keeps the record that stands (R213, R214). -/
theorem runAccesses_commands_of_ill (cmds : List Word) {s : State} (hill : s.ill = true) :
    ∃ t : State, runAccesses (cmds.map commandWrite) s = .next t ∧ t.ill = true ∧ t.cause = s.cause ∧
      t.errcmd = s.errcmd := by
  induction cmds generalizing s with
  | nil => exact ⟨_, runAccesses_nil s, hill, rfl, rfl⟩
  | cons c cmds ih =>
    obtain ⟨u, hrun, _, hu⟩ := runAccesses_commandWrite_cons c (cmds.map commandWrite) s
    have hkept : u.ill = true ∧ u.cause = s.cause ∧ u.errcmd = s.errcmd := by
      rcases hu with ⟨_, huill, hcause, herrcmd, _⟩ | ⟨_, _, huill, _, hkeep⟩
      · exact ⟨huill.trans hill, hcause, herrcmd⟩
      · exact ⟨huill, hkeep hill⟩
    obtain ⟨huill, hcause, herrcmd⟩ := hkept
    obtain ⟨t, ht, htill, htcause, hterrcmd⟩ := ih huill
    exact ⟨t, hrun.trans ht, htill, htcause.trans hcause, hterrcmd.trans herrcmd⟩

/-- Every word of the sequence is legal on a part of width `w`. -/
def AllLegal (w : Width) (cmds : List Word) : Prop := ∀ c ∈ cmds, ∃ i : Instr, decode w c = .legal i

/-- The first illegal word of the sequence is `errcmd`, and `code` is the code of its cause. -/
def FirstIllegal (w : Width) (cmds : List Word) (errcmd : Word) (code : BitVec 4) : Prop :=
  ∃ (pre post : List Word) (c : Word) (cause : Cause), cmds = pre ++ c :: post ∧ AllLegal w pre ∧
    decode w c = .illegal cause ∧ errcmd = c ∧ code = causeCode cause

theorem FirstIllegal.not_allLegal {w : Width} {cmds : List Word} {errcmd : Word} {code : BitVec 4}
    (h : FirstIllegal w cmds errcmd code) : ¬AllLegal w cmds := by
  obtain ⟨pre, post, c, cause, rfl, _, hd, _⟩ := h
  intro hall
  obtain ⟨i, hi⟩ := hall c (by simp)
  cases hi.symm.trans hd

theorem FirstIllegal.cons {w : Width} {c : Word} {cmds : List Word} {errcmd : Word} {code : BitVec 4}
    (hc : ∃ i : Instr, decode w c = .legal i) (h : FirstIllegal w cmds errcmd code) :
    FirstIllegal w (c :: cmds) errcmd code := by
  obtain ⟨pre, post, d, cause, rfl, hpre, hrest⟩ := h
  exact ⟨c :: pre, post, d, cause, rfl, List.forall_mem_cons.2 ⟨hc, hpre⟩, hrest⟩

/-- From ILL = 0: all legal and ILL still 0, or the record is that of the first illegal word (R214). -/
theorem runAccesses_commands_of_not_ill (cmds : List Word) {s : State} (hill : s.ill = false) :
    ∃ t : State, runAccesses (cmds.map commandWrite) s = .next t ∧
      ((t.ill = false ∧ AllLegal s.params.width cmds) ∨
        (t.ill = true ∧ FirstIllegal s.params.width cmds t.errcmd t.cause)) := by
  induction cmds generalizing s with
  | nil => exact ⟨_, runAccesses_nil s, .inl ⟨hill, List.forall_mem_nil _⟩⟩
  | cons c cmds ih =>
    obtain ⟨u, hrun, hparams, ⟨hc, huill, _⟩ | ⟨cause, hd, huill, hfirst, _⟩⟩ :=
      runAccesses_commandWrite_cons c (cmds.map commandWrite) s
    · obtain ⟨t, ht, hrecord⟩ := ih (huill.trans hill)
      rw [hparams] at hrecord
      refine ⟨t, hrun.trans ht, hrecord.imp ?_ ?_⟩
      · exact fun ⟨htill, hall⟩ => ⟨htill, List.forall_mem_cons.2 ⟨hc, hall⟩⟩
      · exact fun ⟨htill, hfirst⟩ => ⟨htill, hfirst.cons hc⟩
    · obtain ⟨t, ht, htill, htcause, hterrcmd⟩ := runAccesses_commands_of_ill cmds huill
      obtain ⟨hcause, herrcmd⟩ := hfirst hill
      exact ⟨t, hrun.trans ht, .inr ⟨htill, [], cmds, c, cause, rfl, List.forall_mem_nil _, hd, hterrcmd.trans herrcmd,
        htcause.trans hcause⟩⟩

end Sys2Proof.Machine

namespace Sys2Proof.Certificates

open Sys2Proof.Machine

/-- Settles O8: the two outcomes of the run exclude each other, for an illegal word is not legal. -/
theorem illTellsWhetherASequenceWasLegal : Obligations.IllTellsWhetherASequenceWasLegal := by
  intro s cmds hill
  obtain ⟨t, hrun, ⟨htill, hall⟩ | ⟨htill, hfirst⟩⟩ := runAccesses_commands_of_not_ill cmds hill
  · exact ⟨t, hrun, iff_of_true htill hall, fun h => by simp [htill] at h⟩
  · exact ⟨t, hrun, iff_of_false (by simp [htill]) hfirst.not_allLegal, fun _ => hfirst⟩

/-- Settles O16: no step of such a run records an illegal command, and without one only a loss of power sets ILL. -/
theorem legalRunsNeverSetIll : Obligations.LegalRunsNeverSetIll := fun _ _ _ => run_ill_of_sameLog

/-- Settles O20: every command answers, and a legal one leaves the record alone. -/
theorem legalCommandsCompleteAndRecordNothing : Obligations.LegalCommandsCompleteAndRecordNothing := by
  intro i s hw
  obtain ⟨t, hx⟩ := exec_next i s
  exact ⟨t, hx, exec_sameRecord hw hx⟩

/-- Settles O15: the record grows step by step, and an illegal word written to CMD is its new head. -/
theorem stepForgetsNoIllegalCommand : Obligations.StepForgetsNoIllegalCommand :=
  ⟨fun _ _ => step_illegalLog_suffix,
    fun _ _ _ _ _ hp hoff hd => ⟨_, step_illegal hp hoff hd, raiseIllegal_illegalLog _ _ _⟩⟩

/-- Settles O7: the step is the record of the command, which writes ILL, CAUSE and ERRCMD if ILL was 0. -/
theorem illegalCommandOnlyRecords : Obligations.IllegalCommandOnlyRecords := by
  intro s off c rest cause hp hoff hd
  refine ⟨_, step_illegal hp hoff hd, raiseIllegal_response _ _ _, raiseIllegal_pending _ _ _, fun hill => ?_,
    fun hill => ⟨raiseIllegal_ill _ _ _, raiseIllegal_kept cause c _ hill⟩, fun q _ => raiseIllegal_reg _ _ _ q,
    ⟨raiseIllegal_arg _ _ _, raiseIllegal_res _ _ _, raiseIllegal_blen _ _ _⟩,
    ⟨raiseIllegal_lt _ _ _, raiseIllegal_eq _ _ _, raiseIllegal_gt _ _ _⟩, fun a => raiseIllegal_readByte _ _ _ a,
    raiseIllegal_params _ _ _⟩
  obtain ⟨hcause, herrcmd⟩ := raiseIllegal_first cause c { s with pending := rest, response := .written } hill
  rw [hcause]
  refine ⟨raiseIllegal_ill _ _ _, herrcmd, ?_, ?_, ?_⟩ <;> rintro rfl <;> rfl

/-- Settles O14: a step is nothing or one access, and every access answers. -/
theorem stepAlwaysAnswersNext : Obligations.StepAlwaysAnswersNext := step_next

end Sys2Proof.Certificates
end

section
/-! PROOFS. Host sequences, for 47_narrowing.md and 70_reset_and_hazards.md: a run that begins with one write for each element
of a list, and the writes of the first words of BUF (20_memory.md R52). -/

namespace Sys2Proof.Machine

/-! ## Writes and commands at the head of a run -/

/-- One access for each element of a list, each with its own effect: the rest of the run starts with all effects made. -/
theorem runAccesses_map_append {α : Type} {access : α → Access} {effect : State → α → State} {l : List α}
    (h : ∀ x ∈ l, ∀ (as : List Access) (s : State), runAccesses (access x :: as) s = runAccesses as (effect s x))
    (as : List Access) (s : State) : runAccesses (l.map access ++ as) s = runAccesses as (l.foldl effect s) := by
  induction l generalizing s with
  | nil => rfl
  | cons x l ih =>
    obtain ⟨hx, hl⟩ := List.forall_mem_cons.1 h
    rw [List.map_cons, List.cons_append, hx, ih hl, List.foldl_cons]

/-- A write of BLEN, then the rest of the run (10_state.md R26). -/
theorem runAccesses_blen (w : Word) (as : List Access) (s : State) :
    runAccesses (writeWord 0x020#9 w :: as) s = runAccesses as ((s.setBlen w).setResponse .none) := by
  have h : performAccess (writeWord 0x020#9 w) (s.setPending as) =
      .next (((s.setBlen w).setResponse .none).setPending as) := by
    rw [writeWord, performAccess_write_full, writeWindow_blen (by decide)]
    rfl
  rw [runAccesses_cons h, runAccesses_setPending]

/-! ## The first words of BUF -/

theorem bufWord_offset : ∀ j, j < 64 → (BitVec.ofNat 9 (0x100 + 4 * j) &&& 0x1FC#9).toNat = 0x100 + 4 * j := by
  decide

/-- A write of BUF word `j`, then the rest of the run (20_memory.md R52). -/
theorem runAccesses_bufWord {j : Nat} (hj : j < 64) (w : Word) (as : List Access) (s : State) :
    runAccesses (writeWord (BitVec.ofNat 9 (0x100 + 4 * j)) w :: as) s =
      runAccesses as ((writeBufWord s j w).setResponse .none) := by
  have hreg : windowReg (BitVec.ofNat 9 (0x100 + 4 * j)) = .buf j := windowReg_bufWord (bufWord_offset j hj)
  have h : performAccess (writeWord (BitVec.ofNat 9 (0x100 + 4 * j)) w) (s.setPending as) =
      .next (((writeBufWord s j w).setResponse .none).setPending as) := by
    rw [writeWord, performAccess_write_full, writeWindow_buf hreg, writeResponse, if_neg (by simp [hreg])]
    rfl
  rw [runAccesses_cons h, runAccesses_setPending]

/-- `s` after the host has written the words `f 0`, …, `f (n − 1)` to BUF words 0 to n − 1. -/
def State.writeBufWords (s : State) (n : Nat) (f : Nat → Word) : State :=
  (List.range n).foldl (fun u j => (writeBufWord u j (f j)).setResponse .none) s

theorem State.writeBufWords_succ (s : State) (n : Nat) (f : Nat → Word) :
    s.writeBufWords (n + 1) f = (writeBufWord (s.writeBufWords n f) n (f n)).setResponse .none := by
  simp [State.writeBufWords, List.range_succ]

theorem runAccesses_bufWords {n : Nat} (hn : n ≤ 64) (f : Nat → Word) (as : List Access) (s : State) :
    runAccesses ((List.range n).map (fun j => writeWord (BitVec.ofNat 9 (0x100 + 4 * j)) (f j)) ++ as) s =
      runAccesses as (s.writeBufWords n f) := by
  refine runAccesses_map_append (fun j hj as s => ?_) as s
  exact runAccesses_bufWord (Nat.lt_of_lt_of_le (List.mem_range.1 hj) hn) (f j) as s

/-- Byte `k` of BUF is byte `k mod 4` of word `k / 4` (20_memory.md R52). -/
theorem State.writeBufWords_readByte (s : State) {n k : Nat} (hk : k < 4 * n) (f : Nat → Word) :
    (s.writeBufWords n f).readByte k = (f (k / 4)).extractLsb' (8 * (k % 4)) 8 := by
  induction n with
  | zero => omega
  | succ n ih =>
    rw [State.writeBufWords_succ, State.setResponse_readByte]
    by_cases hlast : k < 4 * n
    · rw [writeBufWord_readByte_of_outside _ n _ (.inl hlast), ih hlast]
    · have hword : k / 4 = n := by omega
      have hbyte := writeBufWord_readByte_of_lt (s.writeBufWords n f) n (f n) (Nat.mod_lt k (by omega : 0 < 4))
      rw [← hword, Nat.div_add_mod] at hbyte
      rw [← hword, hbyte]

/-- Words written to BUF change BUF and the response alone. -/
theorem State.writeBufWords_eq (s : State) (n : Nat) (f : Nat → Word) :
    ∃ (m : Memory) (x : Response), s.writeBufWords n f = (s.setBuf m).setResponse x := by
  induction n with
  | zero => exact ⟨s.buf, s.response, rfl⟩
  | succ n ih =>
    obtain ⟨m, x, h⟩ := ih
    rw [State.writeBufWords_succ, h]
    exact ⟨_, _, rfl⟩

end Sys2Proof.Machine
end

section
/-! PROOFS. The family of 47_narrowing.md: TRIM (R200), and the way of a 256-bit value to a W = 8 part (R201). -/

namespace Sys2Proof.Machine

open Sys2Proof.Certificates

/-! ## TRIM's value (R200) -/

theorem length_trimValue (n : Nat) (x : Value) : (trimValue n x).length = n := length_fromLimbs n _

theorem limb_trimValue_of_lt (x : Value) {n i : Nat} (hn : 8 ≤ n) (hi : i < 8) : limb (trimValue n x) i = limb x i := by
  rw [trimValue, limb_fromLimbs, if_pos (by omega), if_pos hi]

theorem limb_trimValue_of_ge (n : Nat) (x : Value) {i : Nat} (hi : 8 ≤ i) : limb (trimValue n x) i = 0#32 := by
  rw [trimValue, limb_fromLimbs, if_neg (show ¬i < 8 by omega), ite_self]

/-- The low `n` limbs of a value are the value modulo 2^(32 n). -/
theorem valueNat_fromLimbs_limb (n : Nat) (x : Value) : valueNat (fromLimbs n (limb x)) = valueNat x % 2 ^ (32 * n) := by
  induction n with
  | zero => simp [fromLimbs, valueNat, Nat.mod_one]
  | succ n ih =>
    rw [valueNat_fromLimbs_succ, ih, limb_toNat, Nat.mul_add, pow_add, Nat.mod_mul]

/-- A byte is part of one limb. -/
theorem byteOf_congr {x y : Value} {k : Nat} (h : limb x (k / 4) = limb y (k / 4)) : byteOf x k = byteOf y k := by
  rw [byteOf, h, byteOf]

/-- The first 32 bytes of TRIM's value are those of the value's low eight limbs. -/
theorem byteOf_trimValue {n k : Nat} (hn : 8 ≤ n) (hk : k < 32) (x : Value) :
    byteOf (trimValue n x) k = byteOf (fromLimbs 8 (limb x)) k := by
  have hlimb : k / 4 < 8 := by omega
  apply byteOf_congr
  rw [limb_trimValue_of_lt x hn hlimb, limb_fromLimbs, if_pos hlimb]

/-! ## TRIM's word and what the command answers -/

theorem exec_trim (rd ra : Reg) {s : State} (hw : s.params.width = .w16) :
    exec (.trim rd ra) s = .next (s.setReg rd (trimValue s.limbs (s.reg ra))) := if_pos hw

/-- A part that is not W = 16 has no TRIM (30_encoding.md R78). -/
theorem decode_trim_unsupported (rd ra : Reg) {w : Width} (hw : w ≠ .w16) :
    decode w (encode (.trim rd ra)) = .illegal .unsupportedWidth :=
  (decode_eq_unsupportedWidth_iff w _).2 ⟨(opField_packWord _ _).symm, hw⟩

/-! ## From part to part (R201) -/

/-- TOBYTES alone: BUF holds the bytes of V[RA] (46_serdes.md R180). -/
theorem runAccesses_tobytes (ra : Reg) (s : State) :
    ∃ t : State, runAccesses [commandWrite (encode (.tobytes ra))] s = .next t ∧
      ∀ k, k < s.params.width.bytes → t.readByte k = byteOf (s.reg ra) k :=
  ⟨_, (runAccesses_command (fun _ => rfl) s).trans (exec_tobytes ra _), fun _ hk => State.writeForm_readByte_of_lt hk⟩

/-- On the W = 16 part the first 32 bytes of BUF are then those of the low eight limbs of V[RA]. -/
theorem runAccesses_trim_tobytes (rd ra : Reg) {s : State} (hw : s.params.width = .w16) :
    ∃ t : State, runAccesses [commandWrite (encode (.trim rd ra)), commandWrite (encode (.tobytes rd))] s = .next t ∧
      ∀ k, k < 4 * 8 → t.readByte k = byteOf (fromLimbs 8 (limb (s.reg ra))) k := by
  have hlegal : WellFormed s.params.width (.trim rd ra) = true := by rw [hw]; rfl
  have hlimbs : 8 ≤ s.limbs := by rw [State.limbs, hw]; decide
  have htrim := exec_trim rd ra (s := (s.setPending [commandWrite (encode (.tobytes rd))]).setResponse .written) hw
  rw [runAccesses_legal_cons (decode_encode hlegal) htrim]
  obtain ⟨t, ht, hbytes⟩ := runAccesses_tobytes rd
    (((s.setPending [commandWrite (encode (.tobytes rd))]).setResponse .written).setReg rd (trimValue s.limbs (s.reg ra)))
  rw [State.setReg_reg_same] at hbytes
  refine ⟨t, ht, fun k hk => ?_⟩
  have hk64 : k < s.params.width.bytes := by rw [hw]; exact hk.trans (by decide)
  rw [hbytes k hk64]
  exact byteOf_trimValue hlimbs hk _

/-- On the W = 8 part V[RE] is then the value whose 32 bytes are the first of the other part's BUF. -/
theorem runAccesses_copyToW8 (t : State) (re : Reg) {u : State} (hw : u.params.width = .w8) :
    ∃ v : State, runAccesses (copyToW8 t re) u = .next v ∧ v.reg re = fromBytes 8 t.readByte := by
  obtain ⟨m, x, hcopy⟩ := u.writeBufWords_eq 8 (readBufWord t)
  have hbyte : ∀ k, k < 4 * 8 → ((u.setBuf m).setResponse x).readByte k = t.readByte k := by
    intro k hk
    calc ((u.setBuf m).setResponse x).readByte k
        = (readBufWord t (k / 4)).extractLsb' (8 * (k % 4)) 8 := by rw [← hcopy, u.writeBufWords_readByte hk]
      _ = t.readByte (4 * (k / 4) + k % 4) := extract_readBufWord t _ (Nat.mod_lt k (by decide))
      _ = t.readByte k := by rw [Nat.div_add_mod]
  have hlimbs : u.limbs = 8 := by rw [State.limbs, hw]; rfl
  rw [copyToW8, runAccesses_bufWords (by decide), hcopy, runAccesses_blen, runAccesses_command (fun _ => rfl),
    exec_frombytes]
  refine ⟨_, rfl, ?_⟩
  rw [State.setReg_reg_same, binaryValue_of_full (by simp [hlimbs])]
  simp only [State.setResponse_limbs, State.setPending_limbs, State.setBlen_limbs, State.setBuf_limbs, hlimbs]
  exact fromBytes_congr hbyte

end Sys2Proof.Machine

namespace Sys2Proof.Certificates

open Sys2Proof.Machine

/-- Settles O52: the bytes copied are those of the low eight limbs of V[RA], and FROMBYTES makes them one value. -/
theorem trimmedValueReachesAW8Part : Obligations.TrimmedValueReachesAW8Part := by
  intro s u rd ra re hs hu _
  obtain ⟨t, ht, hbytes⟩ := runAccesses_trim_tobytes rd ra hs
  obtain ⟨v, hv, hreg⟩ := runAccesses_copyToW8 t re hu
  refine ⟨t, v, ht, hv, ?_⟩
  rw [hreg, fromBytes_congr hbytes, fromBytes_byteOf _ 8 (length_fromLimbs 8 _)]
  exact valueNat_fromLimbs_limb 8 _

/-- Settles O51: on W = 16 one register write; on another part the word is illegal, so the CMD write only records it. -/
theorem trimKeepsTheLow256Bits : Obligations.TrimKeepsTheLow256Bits := by
  refine ⟨by decide, fun rd ra s => ⟨hasWord_wordOf (.trim rd ra), fun hw => ?_, fun hw => ?_⟩⟩
  · have hlimbs : s.limbs = 16 := congrArg Width.limbs hw
    refine ⟨_, exec_trim rd ra hw, onlyRegs_setReg s rd _, ?_⟩
    rw [State.setReg_reg_same, hlimbs]
    exact ⟨length_trimValue 16 _, fun _ hi => limb_trimValue_of_lt _ (by decide) hi,
      fun _ hi => limb_trimValue_of_ge 16 _ hi⟩
  · obtain ⟨hword, _⟩ := hasWord_wordOf (.trim rd ra)
    have hrun := (runAccesses_illegal_cons [] (decode_trim_unsupported rd ra hw)).trans (runAccesses_nil _)
    rw [hword] at hrun
    refine ⟨_, hrun, fun q _ => ?_, ?_, fun hill => ?_⟩
    · exact raiseIllegal_reg _ _ _ q
    · exact raiseIllegal_ill _ _ _
    · exact raiseIllegal_first _ _ _ hill

end Sys2Proof.Certificates
end

section
/-! PROOFS. The family of 70_reset_and_hazards.md: the reset event (R240) and the software reset sequence (R242), stage by
stage. -/

namespace Sys2Proof.Machine

open Sys2Proof.Certificates

/-! ## The reset event (R240) -/

theorem resetBlock_reg (s : State) (r : Reg) : (resetBlock s).reg r = zeroValue s.params.width :=
  State.resetOf_reg s.params r

/-! ## The stages of the software reset sequence (R242) -/

/-- `s` after CLR of `r`, answered. -/
def State.cleared (s : State) (r : Reg) : State := (s.setReg r (zeroValue s.params.width)).setResponse .written

theorem runAccesses_clr (r : Reg) (as : List Access) (s : State) :
    runAccesses (commandWrite (encode (.clr r)) :: as) s = runAccesses as (s.cleared r) :=
  (runAccesses_command_cons (fun _ => rfl) (exec_clr r _)).trans rfl

theorem State.foldl_cleared_errcmd (l : List Reg) (s : State) : (l.foldl State.cleared s).errcmd = s.errcmd := by
  induction l generalizing s with
  | nil => rfl
  | cons q l ih => exact ih (s.cleared q)

theorem State.foldl_cleared_reg (l : List Reg) (s : State) (r : Reg) :
    (l.foldl State.cleared s).reg r = if r ∈ l then zeroValue s.params.width else s.reg r := by
  induction l generalizing s with
  | nil => simp
  | cons q l ih =>
    have hq : (s.cleared q).reg r = if r = q then zeroValue s.params.width else s.reg r := State.reg_setReg s q r _
    have hw : (s.cleared q).params.width = s.params.width := rfl
    rw [List.foldl_cons, ih, hq, hw]
    by_cases hl : r ∈ l
    · rw [if_pos hl, if_pos (List.mem_cons_of_mem q hl)]
    · simp [hl]

theorem mem_regAll (r : Reg) : r ∈ Reg.all := by cases r <;> decide

/-- CLR v0 to CLR v7: every value register is 0. -/
theorem runAccesses_clrAll (as : List Access) (s : State) :
    ∃ u : State, runAccesses (Reg.all.map (fun r => commandWrite (encode (.clr r))) ++ as) s = runAccesses as u ∧
      (∀ r, u.reg r = zeroValue s.params.width) ∧ u.errcmd = s.errcmd :=
  ⟨_, runAccesses_map_append (fun r _ => runAccesses_clr r) as s,
    fun r => (State.foldl_cleared_reg _ s r).trans (if_pos (mem_regAll r)), State.foldl_cleared_errcmd _ s⟩

/-- A register that is 0 is not the 64-bit integer 1. -/
theorem equals64_zeroValue_one (w : Width) (n : Nat) : equals64 (zeroValue w) 1#64 n = false := by
  simp [equals64]

/-- ARG = 1 and CMPEQ64 of a register that is 0: no order flag is left. -/
theorem runAccesses_clearFlags {r : Reg} {w : Width} (as : List Access) {s : State} (hr : s.reg r = zeroValue w) :
    runAccesses (writeWord 0x010#9 1#32 :: writeWord 0x014#9 0#32 :: commandWrite (encode (.cmpeq64 r)) :: as) s =
      runAccesses as { s with arg := 1#64, lt := false, eq := false, gt := false, response := .written } := by
  have harg : 0#32 ++ (s.arg.extractLsb' 32 32 ++ 1#32).extractLsb' 0 32 = 1#64 := by
    rw [BitVec.extractLsb'_append_eq_right]
    rfl
  have htest : equals64 (s.reg r) 1#64 s.limbs = false := by rw [hr, equals64_zeroValue_one]
  rw [runAccesses_argLo, runAccesses_argHi, runAccesses_command_cons (fun _ => rfl) (exec_cmpeq64 r _)]
  simp only [State.setResponse_reg, State.setResponse_arg, State.setResponse_limbs, State.setPending_reg,
    State.setPending_arg, State.setPending_limbs, State.setArg_reg, State.setArg_arg, State.setArg_limbs, harg, htest]
  rfl

/-- ARG_LO = 0 and GET64 of word 0 of a register that is 0: with ARG = 1 before, ARG and RES are 0. -/
theorem runAccesses_clearArgRes {r : Reg} {w : Width} (as : List Access) {s : State} (hr : s.reg r = zeroValue w)
    (harg : s.arg = 1#64) :
    runAccesses (writeWord 0x010#9 0#32 :: commandWrite (encode (.get64 r 0#16)) :: as) s =
      runAccesses as { s with arg := 0#64, res := 0#64, response := .written } := by
  have hhigh : s.arg.extractLsb' 32 32 = 0#32 := by rw [harg]; decide
  have hword : word64 s.limbs (s.reg r) 0 = 0#64 := by simp [word64, hr]
  rw [runAccesses_argLo, runAccesses_command_cons (fun _ => rfl) (exec_get64 r _ _), hhigh]
  simp only [State.setResponse_limbs, State.setPending_limbs, State.setArg_limbs, State.setResponse_reg,
    State.setPending_reg, State.setArg_reg, BitVec.toNat_ofNat, Nat.zero_mod, hword]
  rfl

/-- BLEN = 0, 64 zero words to BUF and STATUS bit 3: the record is cleared but for ERRCMD, and every byte is 0. -/
theorem runAccesses_clearBuf (s : State) : ∃ (m : Memory),
    runAccesses (writeWord 0x020#9 0#32 ::
      ((List.range 64).map (fun j => writeWord (BitVec.ofNat 9 (0x100 + 4 * j)) 0#32) ++ [writeWord 0x008#9 0x8#32])) s =
      .next { s with blen := 0#32, buf := m, ill := false, cause := 0#4, pending := [], response := .none } ∧
    ∀ a, a < 256 → Memory.read m a = 0#8 := by
  obtain ⟨m, x, hwords⟩ := ((s.setBlen 0#32).setResponse .none).writeBufWords_eq 64 fun _ => 0#32
  refine ⟨m, ?_, fun a ha => ?_⟩
  · rw [runAccesses_blen, runAccesses_bufWords (by decide), hwords, runAccesses_clrill]
    rfl
  · calc Memory.read m a
        = (((s.setBlen 0#32).setResponse .none).writeBufWords 64 fun _ => 0#32).readByte a := by rw [hwords]; rfl
      _ = 0#8 := by rw [State.writeBufWords_readByte _ ha, BitVec.extractLsb'_zero]

end Sys2Proof.Machine

namespace Sys2Proof.Certificates

open Sys2Proof.Machine

/-- Settles O58: the stages one after another; no command of the sequence is illegal, so ERRCMD is kept. -/
theorem softwareResetClearsAllButErrcmd : Obligations.SoftwareResetClearsAllButErrcmd := by
  intro s
  rw [softwareReset, List.append_assoc, List.append_assoc]
  obtain ⟨u, hclr, hzero, herrcmd⟩ := runAccesses_clrAll _ s
  obtain ⟨m, hbuf, hbytes⟩ := runAccesses_clearBuf
    { u with arg := 0#64, res := 0#64, lt := false, eq := false, gt := false, response := .written }
  refine ⟨_, hclr.trans (Eq.trans ?_ hbuf), hzero, rfl, rfl, rfl, hbytes, rfl, rfl, rfl, rfl, rfl, herrcmd⟩
  refine (runAccesses_clearFlags _ (hzero .v0)).trans (runAccesses_clearArgRes (w := s.params.width) _ ?_ ?_)
  · exact hzero .v0
  · rfl

/-- Settles O12: the step is the reset event, whose fields are those of the reset state of the same part. -/
theorem resetEventSetsEveryPieceOfState : Obligations.ResetEventSetsEveryPieceOfState := by
  intro s rest hp
  refine ⟨resetBlock (s.setPending rest), step_cons hp, rfl, rfl, fun r => ?_, rfl, rfl, rfl, fun _ => rfl, rfl, rfl, rfl,
    rfl, rfl, rfl, ?_⟩
  · rw [resetBlock_reg]
    exact ⟨length_zeroValue _, limb_zeroValue _⟩
  · rw [readWindow_id (by decide), readWindow_id (by decide)]
    rfl

end Sys2Proof.Certificates
end

section
/-! PROOFS. The words the spec writes out (95_test_vectors.md section 2.1, the examples of 40_construction.md to
47_narrowing.md). -/

namespace Sys2Proof.Certificates

/-- Settles O5: each legal word is that of its command, and each illegal word fails one check of `decode`. -/
theorem specWordsDecode : Obligations.SpecWordsDecode := by
  unfold Obligations.SpecWordsDecode
  decide

end Sys2Proof.Certificates
end
